-- ==== Sys2Proof/Word.lean ====
section
/-! DEFINITION. The word types of the block's encoded items (spec/30_encoding.md R300): 8-bit command,
event and output words, 16-bit segment descriptor words. Registers that the spec describes as integers
with a checked range are not words (spec/00_scope.md R8, R10). -/

namespace Sys2Proof

/-- A command word, an event word or an output word (30 R305, R311, R312). -/
abbrev Byte := BitVec 8

/-- A segment descriptor word (30 R301). -/
abbrev SegWord := BitVec 16

end Sys2Proof
end

