-- ==== Sys2Proof/Config.lean ====
section
/-! DEFINITION. What an implementation or its environment fixes: the parameters of spec/00_scope.md R7, the
planner's blocks (spec/10_state.md R150), and the values the spec leaves open, as constants without a body. -/

namespace Sys2Proof

/-- The three axes (00 R3). -/
inductive Axis where
  | x
  | y
  | z
  deriving DecidableEq, Repr

/-- One value for each axis (00 R10: "Per-axis registers are indexed by axis a in {X, Y, Z}"). -/
structure PerAxis (α : Type) where
  x : α
  y : α
  z : α
  deriving DecidableEq, Repr, Inhabited

/-- A reference to a planner block, an opaque identity (00 R13). -/
abbrev BlockRef := Nat

/-- A planner block (10 R150), with the answer `trapezoid_breakpoint` gives for it (10 R151). Its real
fields are rationals (log 4). The bounds of R150 are checked where a block is read, not in the type. -/
structure PlannerBlock where
  ident : BlockRef
  steps : PerAxis Nat
  stepEventCount : Nat
  directionBits : Byte
  entrySpeedSq : Rat
  nominalSpeedSq : Rat
  acceleration : Rat
  millimeters : Rat
  breakpoint : Nat
  deriving DecidableEq, Repr, Inhabited

/-- The parameter `RATE_NUMERICS` of 00 R7 (41 R409): exact real arithmetic, or another format. -/
inductive RateNumerics where
  | exact
  | inexact
  deriving DecidableEq, Repr, Inhabited

/-- The integer outputs of the rate converter (41 R403 to R406). -/
inductive RateField where
  | initialRate
  | nominalRate
  | rateDelta
  | nextStepDistance
  deriving DecidableEq, Repr

/-- The parameter `planner_next` of 00 R7, a total function that the spec leaves OPEN (log 14): `i + 1` but for the listed
(index, successor) pairs, which a run can compute, or any total function. -/
inductive PlannerNext where
  | succExcept (exceptions : List (Nat × Nat))
  | anyFunction
  deriving DecidableEq, Repr, Inhabited

/-- The parameters of 00 R7 that a configuration gives a value; the axis count is fixed (00 R3) and
`ACCEL_PERIOD` follows from the two frequencies. -/
structure Params where
  n : Nat
  segCap : Nat
  ticksPerSecond : Rat
  accelTicksPerSecond : Rat
  minRate : Nat
  fixedPointScale : Rat
  pulseWidth : Rat
  invertMask : Byte
  invertEnable : BitVec 1
  idleLockDelay : Rat
  pulseFits : Bool
  rateNumerics : RateNumerics
  plannerNext : PlannerNext
  deriving DecidableEq, Repr, Inhabited

/-- The fields of a block that the rate converter reads, "only b's fields ..." (41 R400). -/
structure RateOperands where
  entrySpeedSq : Rat
  nominalSpeedSq : Rat
  acceleration : Rat
  millimeters : Rat
  stepEventCount : Nat
  deriving DecidableEq, Repr, Inhabited

/-- The rate converter's operands, of a block (41 R400). -/
def PlannerBlock.rateOperands (b : PlannerBlock) : RateOperands where
  entrySpeedSq := b.entrySpeedSq
  nominalSpeedSq := b.nominalSpeedSq
  acceleration := b.acceleration
  millimeters := b.millimeters
  stepEventCount := b.stepEventCount

/-- FREE VALUE (log 14): the planner's successor function on block indices, where the configuration lists none (00 R7:
OPEN, a total function). -/
opaque Config.plannerSuccessor : Nat → Nat

/-- FREE VALUE (log 7): the block read through a reference the planner no longer answers for, or through no
reference (93 I27 "any value"; 70 R818). Applied to the free-value counter of State. -/
opaque Config.danglingBlock : Nat → PlannerBlock

/-- FREE VALUE (log 6): by how much an output of an implementation's rate arithmetic differs from the exact
result: 0 is one unit below, 1 equal, 2 one unit above ("to within one unit after `ceil`", 41 R409). A function
of the five fields of the block that the converter reads and the configuration (41 R400). -/
opaque Config.rateError : RateField → RateOperands → Params → Fin 3

/-- FREE VALUE (log 6): `distance_per_step` under an implementation's rate arithmetic (41 R409). -/
opaque Config.inexactDistance : RateOperands → Params → Rat

/-- FREE VALUE (log 5): a rate whose speed squared is negative; the spec takes the root of a
"real >= 0" only (41 R403, R404). -/
opaque Config.rateOfNegative : RateField → Rat → Params → Int

end Sys2Proof
end

