-- ==== Sys2Proof/Syntax.lean ====
section
/-! DEFINITION. The instructions: one constructor per row of spec/opcode_table.json (spec/30_encoding.md
R316), the four segment kinds, the eleven host commands and the three device events. -/

namespace Sys2Proof

/-- The flag of a segment descriptor (30 R302). -/
inductive SegFlag where
  | noop
  | endOfBlock
  | decel
  | decelEob
  deriving DecidableEq, Repr, Inhabited

/-- The fields of a segment descriptor (30 R303). -/
structure Descriptor where
  count : BitVec 8
  index : BitVec 4
  flag : SegFlag
  deriving DecidableEq, Repr, Inhabited

/-- The encoded items of the block (30 R316). A segment kind carries its `step_count` and `data_index`. -/
inductive Instr where
  | noop (stepCount : BitVec 8) (dataIndex : BitVec 4)
  | endOfBlock (stepCount : BitVec 8) (dataIndex : BitVec 4)
  | decel (stepCount : BitVec 8) (dataIndex : BitVec 4)
  | decelEob (stepCount : BitVec 8) (dataIndex : BitVec 4)
  | init
  | reset
  | wakeUp
  | goIdle
  | cycleStart
  | feedHold
  | cycleReinitialize
  | prepareSegments
  | queue
  | clearCycleStop
  | prepStep
  | tickBegin
  | tickBody
  | pulseReset
  deriving DecidableEq, Repr

end Sys2Proof
end

