-- ==== Sys2Proof/WellFormed.lean ====
section
/-! DEFINITION. Well-formedness of an instruction: the checks of spec/30_encoding.md R304 that concern its
fields (the reserved bits are a matter of the word, not of the decoded instruction). -/

namespace Sys2Proof

/-- R304 (2) and (3) on a descriptor's fields, in a ring of `n` slots: `data_index < N` and
`step_count >= 1`. A count above `SEG_CAP` is well-formed for the engine. -/
def wellFormedFields (n : Nat) (stepCount : BitVec 8) (dataIndex : BitVec 4) : Bool :=
  decide (dataIndex.toNat < n) && decide (stepCount ≠ 0)

/-- The commands and events have no operand fields (30 R311, R312) and are well-formed as they stand. -/
def Instr.wellFormed (n : Nat) : Instr → Bool
  | .noop c d => wellFormedFields n c d
  | .endOfBlock c d => wellFormedFields n c d
  | .decel c d => wellFormedFields n c d
  | .decelEob c d => wellFormedFields n c d
  | .init => true
  | .reset => true
  | .wakeUp => true
  | .goIdle => true
  | .cycleStart => true
  | .feedHold => true
  | .cycleReinitialize => true
  | .prepareSegments => true
  | .queue => true
  | .clearCycleStop => true
  | .prepStep => true
  | .tickBegin => true
  | .tickBody => true
  | .pulseReset => true

end Sys2Proof
end

