-- ==== Sys2Proof/Decode.lean ====
section
/-! DEFINITION. The decoder and the encoder of spec/30_encoding.md: segment descriptor words on the segment
ring, command and event bytes on the byte port. A 16-bit word is serialised least significant byte first
(spec/20_memory.md R202). -/

namespace Sys2Proof

/-- Where a word arrives: the format is told "from the port it arrives on" and, for bytes, from bit 7
(30 R300). -/
inductive Port where
  | ring
  | byte
  deriving DecidableEq, Repr

/-- Why the decoder rejects. -/
inductive Reject where
  /-- A descriptor word with bits 15:14 not 00 (30 R301, R313). -/
  | reservedBits (w : SegWord)
  /-- Command codes 0x00 and 0x0C to 0x7F (30 R311). -/
  | reservedCommand (code : Byte)
  /-- Event codes 0x83 to 0xFF (30 R312). -/
  | reservedEvent (code : Byte)
  /-- A byte list that is not one word of the port's format (30 R300: "Every word has a fixed length"). -/
  | badLength
  deriving DecidableEq, Repr

/-- Bit 12 of the word: the block ends with this segment (30 R302). -/
def SegFlag.eob : SegFlag → Bool
  | .noop => false
  | .endOfBlock => true
  | .decel => false
  | .decelEob => true

/-- Bit 13 of the word: deceleration is forced when the segment is loaded (30 R302). -/
def SegFlag.forcesDecel : SegFlag → Bool
  | .noop => false
  | .endOfBlock => false
  | .decel => true
  | .decelEob => true

/-- The flag with the given END_OF_BLOCK and DECEL bits (30 R302). -/
def flagOfBits (eob decel : Bool) : SegFlag :=
  match decel, eob with
  | false, false => .noop
  | false, true => .endOfBlock
  | true, false => .decel
  | true, true => .decelEob

/-- R303, after the reserved-bits check of R301. -/
def decodeDescriptor (w : SegWord) : Option Descriptor :=
  if w.extractLsb' 14 2 = 0 then
    some { count := w.extractLsb' 0 8
           index := w.extractLsb' 8 4
           flag := flagOfBits (w.getLsbD 12) (w.getLsbD 13) }
  else none

/-- R303: `w = (decel << 13) | (eob << 12) | (data_index << 8) | step_count`. -/
def encodeDescriptor (d : Descriptor) : SegWord :=
  ((BitVec.ofBool d.flag.forcesDecel).setWidth 16 <<< 13) |||
    ((BitVec.ofBool d.flag.eob).setWidth 16 <<< 12) |||
    (d.index.setWidth 16 <<< 8) ||| d.count.setWidth 16

/-- The segment kind a descriptor is (30 R316). -/
def Descriptor.instr (d : Descriptor) : Instr :=
  match d.flag with
  | .noop => .noop d.count d.index
  | .endOfBlock => .endOfBlock d.count d.index
  | .decel => .decel d.count d.index
  | .decelEob => .decelEob d.count d.index

/-- A word of the segment ring as an instruction. -/
def decodeSegment (w : SegWord) : Except Reject Instr :=
  match decodeDescriptor w with
  | some d => .ok d.instr
  | none => .error (.reservedBits w)

/-- R311 and R312: the command and event codes. -/
def decodeCode (c : Byte) : Except Reject Instr :=
  match c.toNat with
  | 0x01 => .ok .init
  | 0x02 => .ok .reset
  | 0x03 => .ok .wakeUp
  | 0x04 => .ok .goIdle
  | 0x05 => .ok .cycleStart
  | 0x06 => .ok .feedHold
  | 0x07 => .ok .cycleReinitialize
  | 0x08 => .ok .prepareSegments
  | 0x09 => .ok .queue
  | 0x0A => .ok .clearCycleStop
  | 0x0B => .ok .prepStep
  | 0x80 => .ok .tickBegin
  | 0x81 => .ok .tickBody
  | 0x82 => .ok .pulseReset
  | _ => if c.msb then .error (.reservedEvent c) else .error (.reservedCommand c)

/-- The bytes of a descriptor word, least significant byte first (20 R202). -/
def segBytes (w : SegWord) : List Byte :=
  [w.extractLsb' 0 8, w.extractLsb' 8 8]

/-- The instruction whose bytes arrive on a port; total on any bytes. -/
def decode : Port → List Byte → Except Reject Instr
  | .ring, [lo, hi] => decodeSegment (hi ++ lo)
  | .byte, [c] => decodeCode c
  | _, _ => .error .badLength

/-- The port an instruction arrives on (30 R316, the row's format). -/
def Instr.port : Instr → Port
  | .noop _ _ => .ring
  | .endOfBlock _ _ => .ring
  | .decel _ _ => .ring
  | .decelEob _ _ => .ring
  | .init => .byte
  | .reset => .byte
  | .wakeUp => .byte
  | .goIdle => .byte
  | .cycleStart => .byte
  | .feedHold => .byte
  | .cycleReinitialize => .byte
  | .prepareSegments => .byte
  | .queue => .byte
  | .clearCycleStop => .byte
  | .prepStep => .byte
  | .tickBegin => .byte
  | .tickBody => .byte
  | .pulseReset => .byte

/-- The bytes of an instruction (30 R301, R311, R312). -/
def encode : Instr → List Byte
  | .noop c d => segBytes (encodeDescriptor ⟨c, d, .noop⟩)
  | .endOfBlock c d => segBytes (encodeDescriptor ⟨c, d, .endOfBlock⟩)
  | .decel c d => segBytes (encodeDescriptor ⟨c, d, .decel⟩)
  | .decelEob c d => segBytes (encodeDescriptor ⟨c, d, .decelEob⟩)
  | .init => [0x01#8]
  | .reset => [0x02#8]
  | .wakeUp => [0x03#8]
  | .goIdle => [0x04#8]
  | .cycleStart => [0x05#8]
  | .feedHold => [0x06#8]
  | .cycleReinitialize => [0x07#8]
  | .prepareSegments => [0x08#8]
  | .queue => [0x09#8]
  | .clearCycleStop => [0x0A#8]
  | .prepStep => [0x0B#8]
  | .tickBegin => [0x80#8]
  | .tickBody => [0x81#8]
  | .pulseReset => [0x82#8]

/-- The instruction the decoder reads from a table word of `nbits` bits: 16 bits are a segment descriptor,
8 bits a command or an event. -/
def decodeTableWord (nbits w : Nat) : Option Instr :=
  let read := if nbits = 16 then decode .ring [BitVec.ofNat 8 w, BitVec.ofNat 8 (w / 256)]
    else if nbits = 8 then decode .byte [BitVec.ofNat 8 w]
    else .error .badLength
  match read with
  | .ok i => some i
  | .error _ => none

end Sys2Proof
end

