-- ==== Sys2Proof/Machine/State.lean ====
section
/-! DEFINITION. The machine's state as plain data (spec/10_state.md), what can stop a step, and the state after
reset. Registers with an integer range are `Int` or `Nat`; their ranges hold because every write is checked
(10 R100; log 18). -/

namespace Sys2Proof.Machine

/-- What stops the machine in the model. None of the spec's nine faults is here: those are recorded in the
state's `fault` register and the machine is then in a next state (60 R700). -/
inductive Fault where
  /-- Raised by every operation that reads or writes a ring slot (20 R200: the rings are `[0..N-1]`) when the
  index is `N` or more: there is no such slot. Safe: the model stops, and no run from reset gets there because
  every index is kept below `N` (20 R203; log 17). -/
  | noSuchSlot
  deriving DecidableEq, Repr

/-- Why the model gives an instruction no meaning. A word that the spec refuses is not here: its step is a next state with
the state unchanged (60 R711; log 10). -/
inductive Refusal where
  /-- Raised by exec for an instruction without a meaning yet; none is left. Safe. -/
  | notModelled (mnemonic : String)
  deriving DecidableEq, Repr

/-- 30 R308. -/
inductive RampState where
  | cruise
  | accel
  | decel
  deriving DecidableEq, Repr, Inhabited

/-- 30 R309. -/
inductive LoadState where
  | loadNone
  | loadSegment
  | loadBlock
  deriving DecidableEq, Repr, Inhabited

/-- 30 R310. -/
inductive RunState where
  | idle
  | queued
  | running
  | hold
  deriving DecidableEq, Repr, Inhabited

/-- The registers whose checked write can fail, with the axis or ring slot (60 R702). -/
inductive Reg where
  | counter (a : Axis)
  | segmentSteps
  | counterD
  | rate
  | rampCount
  | position (a : Axis)
  | rateOutput (f : RateField)
  | decelerateAfter (slot : Nat)
  | segment (slot : Nat)
  deriving DecidableEq, Repr

/-- The parameters of 00 R7 whose constraint INIT checks (60 R710). -/
inductive ParamName where
  | n
  | segCap
  | ticksPerSecond
  | accelTicksPerSecond
  | accelPeriod
  | minRate
  | fixedPointScale
  | pulseWidth
  | idleLockDelay
  deriving DecidableEq, Repr

/-- The sticky fault record: a code of 60 R701 with its info. -/
inductive FaultRecord where
  | range (r : Reg)
  | zeroStepSegment (tail : Nat)
  | badDataIndex (tail : Nat)
  | reservedBits (tail : Nat)
  | noCurrentBlock (tail : Nat)
  | badBlock (block : BlockRef)
  | resetWhileRunning
  | pulseOverlap (pins : Byte)
  | configInvalid (p : ParamName)
  deriving DecidableEq, Repr

/-- A SegmentData record (10 R126). -/
structure SegmentData where
  stepEventsRemaining : Nat
  initialRate : Nat
  nominalRate : Nat
  rateDelta : Nat
  nextStepDistance : Nat
  decelerateAfter : Nat
  distancePerStep : Rat
  deriving DecidableEq, Repr, Inhabited

/-- The two rings (10 R125, R126; 20 R200): lists of (slot, value) in canonical form, which `Memory.wf`
(Machine/Ops.lean) states. An unlisted slot of `seg` reads as the word 0 and one of `data` as
`SegmentData.unwritten` (log 2). -/
structure Memory where
  seg : List (Nat × SegWord)
  data : List (Nat × SegmentData)
  deriving DecidableEq, Repr

/-- What PREP_STEP returns (42 R451). -/
inductive PrepResult where
  | work
  | done
  deriving DecidableEq, Repr

/-- A block in the planner's store, with the planner index it stands at (10 R151). -/
structure PlannerEntry where
  index : Nat
  block : PlannerBlock
  deriving DecidableEq, Repr

/-- What arrives from outside the block, in the order in which the agents act (log 8). -/
inductive Input where
  /-- A command word on the command port or a device event (30 R311, R312). -/
  | word (c : Byte)
  /-- The planner changes its store between two steps (60 R726). -/
  | planner (store : List PlannerEntry)
  /-- The host supplies a configuration for the next INIT (70 R801). -/
  | supply (p : Params)
  deriving DecidableEq, Repr

/-- The state of the block and of its environment. -/
structure State where
  -- Engine registers (10 R101 to R114).
  counter : PerAxis Int
  segmentSteps : Nat
  counterD : Int
  rate : Nat
  deltaD : Nat
  outBits : Byte
  staged : Bool
  rampState : RampState
  rampCount : Nat
  loadState : LoadState
  busy : Bool
  curBlock : Option BlockRef
  curFlag : SegFlag
  curData : Nat
  tail : Nat
  -- Producer registers (10 R120 to R123).
  head : Nat
  nextHead : Nat
  prepBlock : Option BlockRef
  prepIndex : Nat
  dataPrepIndex : Nat
  -- Rings (10 R125, R126).
  mem : Memory
  -- Position, run-state, configuration registers (10 R128, R130, R132).
  position : PerAxis Int
  runState : RunState
  cfg : Params
  accelPeriod : Nat
  -- Device and observation state (10 R135 to R141).
  pins : Byte
  disableLine : BitVec 1
  tickEnabled : Bool
  pulseArmed : Bool
  cycleStop : Bool
  overrunCount : Nat
  fault : Option FaultRecord
  -- Environment: the planner's store (oldest block first), INIT's operand, what arrives next.
  planner : List PlannerEntry
  supplied : Params
  inputs : List Input
  -- The model's own: PREPARE_SEGMENTS in progress, PREP_STEP's return value, the free-value counter.
  preparing : Bool
  prepReturn : Option PrepResult
  freeCount : Nat
  deriving DecidableEq, Repr

/-- The configuration the machine is reset with. DESIGN CHOICE (log 1): only `N`, `SEG_CAP`, `PULSE_FITS` and
`RATE_NUMERICS` have a default in 00 R7. -/
def Params.atReset : Params where
  n := 10
  segCap := 250
  ticksPerSecond := 1000
  accelTicksPerSecond := 250
  minRate := 1
  fixedPointScale := 1000000
  pulseWidth := 0
  invertMask := 0
  invertEnable := 0
  idleLockDelay := 0
  pulseFits := true
  rateNumerics := .exact
  plannerNext := .succExcept []

/-- The power-on state: the state INIT leaves (70 R800, R801), with nothing listed in the rings (log 2), the
configuration of log 1, an empty planner (70 R802) and no input waiting. -/
def State.reset : State where
  counter := ⟨0, 0, 0⟩
  segmentSteps := 0
  counterD := 0
  rate := 0
  deltaD := 0
  outBits := 0
  staged := false
  rampState := .cruise
  rampCount := 0
  loadState := .loadBlock
  busy := false
  curBlock := none
  curFlag := .noop
  curData := 0
  tail := 0
  head := 0
  nextHead := 1
  prepBlock := none
  prepIndex := 0
  dataPrepIndex := 0
  mem := ⟨[], []⟩
  position := ⟨0, 0, 0⟩
  runState := .idle
  cfg := Params.atReset
  accelPeriod := 4
  pins := 0
  disableLine := 1
  tickEnabled := false
  pulseArmed := false
  cycleStop := false
  overrunCount := 0
  fault := none
  planner := []
  supplied := Params.atReset
  inputs := []
  preparing := false
  prepReturn := none
  freeCount := 0

end Sys2Proof.Machine
end

