-- ==== Sys2Proof/Machine/Flags.lean ====
section
/-! DEFINITION. Bit masks and bit tests of the output word, codes of the enumerations, and the enabling
conditions of the agents' steps (spec/30_encoding.md sections 3 and 4, spec/60_exceptions.md R701, R727). -/

namespace Sys2Proof.Machine

/-- 30 R305. -/
def stepMask : Byte := 0x07
/-- 30 R305. -/
def dirMask : Byte := 0x38
/-- 30 R305. -/
def outMask : Byte := 0x3F

/-- `STEP_BIT(a)` as a word (30 R305). -/
def stepBit : Axis → Byte
  | .x => 0x01
  | .y => 0x02
  | .z => 0x04

/-- `DIR_BIT(a)` as a word (30 R305). -/
def dirBit : Axis → Byte
  | .x => 0x08
  | .y => 0x10
  | .z => 0x20

/-- "1 means axis a moves in the negative direction" (30 R306). -/
def movesNegative (directionBits : Byte) (a : Axis) : Bool :=
  directionBits &&& dirBit a != 0

/-- The physical line levels of an output word: XOR with the invert mask, bits 7:6 cleared (43 R507, R518). -/
def lineLevels (w invertMask : Byte) : Byte :=
  (w ^^^ invertMask) &&& outMask

/-- Some step line is at its active level (10 R135, 43 R502). -/
def stepLineActive (pins invertMask : Byte) : Bool :=
  (pins ^^^ invertMask) &&& stepMask != 0

/-- 30 R308. -/
def RampState.code : RampState → BitVec 2
  | .cruise => 0
  | .accel => 1
  | .decel => 2

/-- 30 R309. -/
def LoadState.code : LoadState → BitVec 2
  | .loadNone => 0
  | .loadSegment => 1
  | .loadBlock => 2

/-- 30 R310. -/
def RunState.code : RunState → BitVec 2
  | .idle => 0
  | .queued => 1
  | .running => 2
  | .hold => 3

/-- The codes of 60 R701. -/
def FaultRecord.code : FaultRecord → Nat
  | .range _ => 1
  | .zeroStepSegment _ => 2
  | .badDataIndex _ => 3
  | .reservedBits _ => 4
  | .noCurrentBlock _ => 5
  | .badBlock _ => 6
  | .resetWhileRunning => 7
  | .pulseOverlap _ => 8
  | .configInvalid _ => 9

/-- The number in the `fault` register: "Code 0 means no fault" (60 R701). -/
def faultCode (s : State) : Nat :=
  match s.fault with
  | some r => r.code
  | none => 0

/-- TICK_BEGIN is enabled (60 R727). -/
def tickBeginEnabled (s : State) : Bool :=
  s.fault.isNone && s.tickEnabled && (!s.cfg.pulseFits || !s.pulseArmed)

/-- TICK_BODY is enabled (60 R727). -/
def tickBodyEnabled (s : State) : Bool :=
  s.fault.isNone && s.busy

/-- PULSE_RESET is enabled (60 R727). -/
def pulseResetEnabled (s : State) : Bool :=
  s.fault.isNone && s.pulseArmed

/-- A BACKGROUND step other than INIT is enabled (60 R727). -/
def backgroundEnabled (s : State) : Bool :=
  s.fault.isNone && !s.busy

/-- INIT is enabled "when `busy = false`, and also while `fault != none`" (70 R801). -/
def initEnabled (s : State) : Bool :=
  s.fault.isSome || !s.busy

/-- A tick body taken now loads a segment: a load is needed, no hold gates it (43 R504) and the ring is not
empty (43 R505, R506). -/
def loadDue (s : State) : Bool :=
  decide (s.loadState ≠ .loadNone) && decide (s.runState ≠ .hold) && decide (s.tail ≠ s.head)

end Sys2Proof.Machine
end

