-- ==== Sys2Proof/Machine/Operands.lean ====
section
/-! DEFINITION. Operands: per-axis fields, the ranges of the registers (spec/10_state.md R100), the checks of a
planner block (spec/60_exceptions.md R707) and of a configuration (spec/00_scope.md R7). -/

namespace Sys2Proof.Machine

/-- The field of one axis. -/
def atAxis {α : Type} (v : PerAxis α) : Axis → α
  | .x => v.x
  | .y => v.y
  | .z => v.z

/-- The record with the field of one axis replaced. -/
def setAxis {α : Type} (v : PerAxis α) (a : Axis) (e : α) : PerAxis α :=
  match a with
  | .x => { v with x := e }
  | .y => { v with y := e }
  | .z => { v with z := e }

/-- int32 (10 R100). -/
def inInt32 (v : Int) : Bool := decide (-2147483648 ≤ v) && decide (v ≤ 2147483647)
/-- uint32 (10 R100). -/
def inUint32 (v : Int) : Bool := decide (0 ≤ v) && decide (v ≤ 4294967295)
/-- uint16 (10 R100). -/
def inUint16 (v : Int) : Bool := decide (0 ≤ v) && decide (v ≤ 65535)
/-- uint8 (10 R100). -/
def inUint8 (v : Int) : Bool := decide (0 ≤ v) && decide (v ≤ 255)

/-- The block breaks a bound that BAD_BLOCK checks, in the order of 60 R707. -/
def badBlock (b : PlannerBlock) : Bool :=
  decide (b.stepEventCount = 0) || decide (2147483647 < b.stepEventCount) ||
    decide (b.stepEventCount < b.steps.x) || decide (b.stepEventCount < b.steps.y) ||
    decide (b.stepEventCount < b.steps.z) || decide (b.directionBits &&& ~~~dirMask ≠ 0)

/-- floor of a quotient of rationals, by integers only. -/
def floorQuotient (a b : Rat) : Int := (a.num * b.den) / (a.den * b.num)

/-- `ACCEL_PERIOD = floor(TICKS_PER_SECOND / ACCEL_TICKS_PER_SECOND)` (00 R7). -/
def accelPeriodOf (p : Params) : Int := floorQuotient p.ticksPerSecond p.accelTicksPerSecond

/-- The first parameter, "in the order of rule R7's table, that breaks its constraint" (60 R710). The constraint
`PULSE_WIDTH < 1 / TICKS_PER_SECOND` is written on numerators and denominators; `TICKS_PER_SECOND` is positive where
it is reached. Both values of `INVERT_ENABLE` and of `PULSE_FITS` are legal, and bits 7:6 of `INVERT_MASK` are
ignored. -/
def firstInvalid (p : Params) : Option ParamName :=
  if ¬ (2 ≤ p.n ∧ p.n ≤ 16) then some .n
  else if ¬ (1 ≤ p.segCap ∧ p.segCap ≤ 255) then some .segCap
  else if ¬ (0 < p.ticksPerSecond.num) then some .ticksPerSecond
  else if ¬ (0 < p.accelTicksPerSecond.num) then some .accelTicksPerSecond
  else if ¬ (2 ≤ accelPeriodOf p ∧ accelPeriodOf p ≤ 65535) then some .accelPeriod
  else if ¬ (p.minRate ≤ 2147483647) then some .minRate
  else if ¬ (0 < p.fixedPointScale.num) then some .fixedPointScale
  else if ¬ (p.pulseWidth.num * p.ticksPerSecond.num < p.pulseWidth.den * p.ticksPerSecond.den) then some .pulseWidth
  else if ¬ (0 ≤ p.idleLockDelay.num) then some .idleLockDelay
  else none

/-- `planner_next(i)` (00 R7, 10 R151; log 14). -/
def plannerNext (p : Params) (i : Nat) : Nat :=
  match p.plannerNext with
  | .succExcept l =>
    match l.find? (fun e => e.1 == i) with
    | some e => e.2
    | none => i + 1
  | .anyFunction => Config.plannerSuccessor i

end Sys2Proof.Machine
end

