-- ==== Sys2Proof/Machine/Ops.lean ====
section
/-! DEFINITION. The named operations: the outcome of a part of a step, raising a fault, checked register writes,
ring accesses, planner calls, and the register groups that several instructions write. -/

namespace Sys2Proof.Machine

/-- How a part of an agent's step ends. -/
inductive Flow where
  /-- The step goes on in this state. -/
  | go (s : State)
  /-- The step has ended in this state: a fault was raised, or an idle path was taken. -/
  | done (s : State)
  /-- The machine stops (log 17). -/
  | stop (f : Fault)
  deriving DecidableEq, Repr

/-- The next part of the step, if there is one. -/
def andThen (f : Flow) (k : State → Flow) : Flow :=
  match f with
  | .go s => k s
  | .done s => .done s
  | .stop r => .stop r

/-- The outcome of a step whose last part has run. -/
def finish (f : Flow) : Host.Outcome State Fault Refusal :=
  match f with
  | .go s => .next s
  | .done s => .next s
  | .stop r => .fault r

/-- `raise F(info)`: `fault <- (F, info)`, nothing else; "writes made earlier in the same step stand" (60 R700). -/
def raiseFault (r : FaultRecord) (s : State) : State :=
  { s with fault := some r }

/-- `raise` inside a step: no later write of the step happens (60 R700). -/
def raise (r : FaultRecord) (s : State) : Flow :=
  .done (raiseFault r s)

/-- A checked write: `written` if the value is in the register's range, else `RANGE(register)` "and the write does not
happen" (00 R10). -/
def put (r : Reg) (inRange : Bool) (written s : State) : Flow :=
  if inRange then .go written else raise (.range r) s

def writeCounter (a : Axis) (v : Int) (s : State) : Flow :=
  put (.counter a) (inInt32 v) { s with counter := setAxis s.counter a v } s

def writePosition (a : Axis) (v : Int) (s : State) : Flow :=
  put (.position a) (inInt32 v) { s with position := setAxis s.position a v } s

def writeCounterD (v : Int) (s : State) : Flow :=
  put .counterD (inInt32 v) { s with counterD := v } s

def writeRate (v : Int) (s : State) : Flow :=
  put .rate (inUint32 v) { s with rate := v.toNat } s

def writeRampCount (v : Int) (s : State) : Flow :=
  put .rampCount (inUint16 v) { s with rampCount := v.toNat } s

def writeSegmentSteps (v : Int) (s : State) : Flow :=
  put .segmentSteps (inUint8 v) { s with segmentSteps := v.toNat } s

/-! ## Rings -/

/-- What a slot of the data ring that nothing has written reads as. DESIGN CHOICE (log 2). -/
def SegmentData.unwritten : SegmentData := ⟨0, 0, 0, 0, 0, 0, 0⟩

/-- The value at slot `i`, `dflt` where the slot is not listed. -/
def cellGet {α : Type} (dflt : α) : List (Nat × α) → Nat → α
  | [], _ => dflt
  | c :: l, i => if c.1 = i then c.2 else cellGet dflt l i

/-- Insert before the first larger slot. -/
def cellInsert {α : Type} (i : Nat) (v : α) : List (Nat × α) → List (Nat × α)
  | [] => [(i, v)]
  | c :: l => if i < c.1 then (i, v) :: c :: l else c :: cellInsert i v l

/-- The list with slot `i` holding `v`; a slot holding `dflt` is not listed. -/
def cellSet {α : Type} [DecidableEq α] (dflt : α) (l : List (Nat × α)) (i : Nat) (v : α) : List (Nat × α) :=
  if v = dflt then l.filter (fun c => c.1 != i) else cellInsert i v (l.filter (fun c => c.1 != i))

/-- The canonical form of a ring's list: slots strictly rising, no entry equal to `dflt`. -/
abbrev cellsCanonical {α : Type} (dflt : α) (l : List (Nat × α)) : Prop :=
  l.Pairwise (fun c d => c.1 < d.1) ∧ ∀ c ∈ l, c.2 ≠ dflt

/-- Both rings are in canonical form. -/
abbrev Memory.wf (m : Memory) : Prop :=
  cellsCanonical (0 : SegWord) m.seg ∧ cellsCanonical SegmentData.unwritten m.data

/-- `SegRead(i)`: the word in slot `i` of the segment ring (00 R11). -/
def segRead (s : State) (i : Nat) : SegWord :=
  cellGet 0 s.mem.seg i

/-- `DataRead(i)`: the record in slot `i` of the segment data ring (00 R11). -/
def dataRead (s : State) (i : Nat) : SegmentData :=
  cellGet SegmentData.unwritten s.mem.data i

/-- `SegWrite(i, seg)` (00 R11). -/
def segWrite (i : Nat) (w : SegWord) (s : State) : State :=
  { s with mem := { s.mem with seg := cellSet 0 s.mem.seg i w } }

/-- `DataWrite(i, field, v)`, given the whole record with the fields replaced (00 R11). -/
def dataWrite (i : Nat) (d : SegmentData) (s : State) : State :=
  { s with mem := { s.mem with data := cellSet SegmentData.unwritten s.mem.data i d } }

/-- A ring has the slots `0` to `N - 1` (20 R200); there is no other (log 17). -/
def needSlot (i : Nat) (s : State) : Flow :=
  if i < s.cfg.n then .go s else .stop .noSuchSlot

/-- `(i + 1) mod N` (00 R9). -/
def ringNext (s : State) (i : Nat) : Nat := (i + 1) % s.cfg.n

/-! ## The planner's answers (10 R151) -/

/-- `current_block()`: "the oldest block the planner has not discarded". -/
def currentBlock (s : State) : Option PlannerBlock :=
  s.planner.head?.map PlannerEntry.block

/-- `discard_current_block()` "releases it" (log 13). -/
def discardCurrentBlock (s : State) : State :=
  { s with planner := s.planner.tail }

/-- `block_by_index(i)`: "the block at planner index i or none if the planner holds none there". -/
def blockByIndex (s : State) (i : Nat) : Option PlannerBlock :=
  (s.planner.find? (fun e => e.index == i)).map PlannerEntry.block

/-- The block a reference names, as the planner holds it now (20 R214: "the model reads the block's value as given at
each read"). -/
def blockOfRef (s : State) (r : BlockRef) : Option PlannerBlock :=
  (s.planner.find? (fun e => e.block.ident == r)).map PlannerEntry.block

/-- The block of `cur_block`, if the planner holds it. -/
def heldBlock (s : State) : Option PlannerBlock :=
  s.curBlock.bind (blockOfRef s)

/-- "B <- the block of cur_block" (43 R500); a free value where the planner no longer holds it (93 I27, log 7). -/
def loadedBlock (s : State) : PlannerBlock :=
  match heldBlock s with
  | some b => b
  | none => Config.danglingBlock s.freeCount

/-- The state after that read: a free value is taken once. -/
def countFreeBlock (s : State) : State :=
  match heldBlock s with
  | some _ => s
  | none => { s with freeCount := s.freeCount + 1 }

/-! ## Register groups -/

/-- The RESET body (44 R600), which INIT shares (70 R801). -/
def clearEngine (s : State) : State :=
  { s with
    counter := ⟨0, 0, 0⟩
    segmentSteps := 0
    counterD := 0
    rate := 0
    deltaD := 0
    outBits := 0
    staged := false
    rampState := .cruise
    rampCount := 0
    busy := false
    curFlag := .noop
    curData := 0
    loadState := .loadBlock
    curBlock := none
    prepBlock := none
    prepIndex := 0
    dataPrepIndex := 0
    tail := 0
    head := 0
    nextHead := 1 }

/-- `GO_IDLE()` (44 R602), as a host command and as the engine's idle path. -/
def idled (s : State) : State :=
  { s with
    tickEnabled := false
    disableLine := 1 - s.cfg.invertEnable
    busy := false }

/-- The part of `WAKE_UP()` that starts the tick source (44 R601). -/
def tickStarted (s : State) : State :=
  { s with
    staged := false
    outBits := s.cfg.invertMask &&& outMask
    tickEnabled := true }

/-- `WAKE_UP()` (44 R601), as a host command and inside CYCLE_START. -/
def woken (s : State) : State :=
  let s' := { s with disableLine := s.cfg.invertEnable }
  if s.runState = .running ∧ s.tickEnabled = false then tickStarted s' else s'

end Sys2Proof.Machine
end

