-- ==== Sys2Proof/Machine/Lifecycle.lean ====
section
/-! DEFINITION. INIT (spec/70_reset_and_hazards.md R801) and the lifecycle and run-state commands
(spec/44_lifecycle.md). A command that is not enabled leaves the state (spec/60_exceptions.md R727; log 9). -/

namespace Sys2Proof.Machine

/-- The configuration registers as the device holds them: bits 7:6 of `INVERT_MASK` "read as 0" (10 R132). -/
def heldParams (p : Params) : Params :=
  { p with invertMask := p.invertMask &&& outMask }

/-- `INIT(config)` for a legal configuration (70 R801). -/
def powerOn (p : Params) (s : State) : State :=
  let s1 := clearEngine { s with cfg := heldParams p, accelPeriod := (accelPeriodOf p).toNat }
  { s1 with
    position := ⟨0, 0, 0⟩
    runState := .idle
    tickEnabled := false
    pulseArmed := false
    pins := p.invertMask &&& outMask
    disableLine := 1 - p.invertEnable
    cycleStop := false
    overrunCount := 0
    fault := none
    preparing := false
    prepReturn := none }

/-- INIT (70 R801), with the configuration the host has supplied (log 15). -/
def execInit (s : State) : Host.Outcome State Fault Refusal :=
  if initEnabled s then
    match firstInvalid s.supplied with
    | some p => .next (raiseFault (.configInvalid p) s)
    | none => .next (powerOn s.supplied s)
  else .next s

/-- RESET (44 R600). -/
def execReset (s : State) : Host.Outcome State Fault Refusal :=
  if backgroundEnabled s then
    if s.tickEnabled then .next (raiseFault .resetWhileRunning s) else .next (clearEngine s)
  else .next s

/-- WAKE_UP (44 R601). -/
def execWakeUp (s : State) : Host.Outcome State Fault Refusal :=
  if backgroundEnabled s then .next (woken s) else .next s

/-- GO_IDLE (44 R602). -/
def execGoIdle (s : State) : Host.Outcome State Fault Refusal :=
  if backgroundEnabled s then .next (idled s) else .next s

/-- CYCLE_START (44 R603). -/
def execCycleStart (s : State) : Host.Outcome State Fault Refusal :=
  if backgroundEnabled s && decide (s.runState = .queued) then .next (woken { s with runState := .running })
  else .next s

/-- FEED_HOLD (44 R604). -/
def execFeedHold (s : State) : Host.Outcome State Fault Refusal :=
  if backgroundEnabled s && decide (s.runState = .running) then .next { s with runState := .hold }
  else .next s

/-- CYCLE_REINITIALIZE (44 R605). -/
def execCycleReinitialize (s : State) : Host.Outcome State Fault Refusal :=
  if backgroundEnabled s && decide (s.runState = .hold) && !s.tickEnabled then .next { s with runState := .idle }
  else .next s

/-- QUEUE (44 R606). -/
def execQueue (s : State) : Host.Outcome State Fault Refusal :=
  if backgroundEnabled s && decide (s.runState = .idle) then .next { s with runState := .queued }
  else .next s

/-- CLEAR_CYCLE_STOP (44 R607). -/
def execClearCycleStop (s : State) : Host.Outcome State Fault Refusal :=
  if backgroundEnabled s then
    .next { s with
      cycleStop := false
      runState := if s.runState = .running ∧ s.tickEnabled = false then .idle else s.runState }
  else .next s

end Sys2Proof.Machine
end

