-- ==== Sys2Proof/Machine/Rate.lean ====
section
/-! DEFINITION. The Rate Converter (spec/41_rate_converter.md), run by PREP_STEP when a new block starts. Square
roots and ceilings are exact (R409), computed on integers. -/

namespace Sys2Proof.Machine

/-- Add to the root `r`, from bit `b - 1` down, every bit that keeps its square at most `n`. -/
def rootBits : Nat → Nat → Nat → Nat
  | 0, r, _ => r
  | b + 1, r, n => if (r + 2 ^ b) * (r + 2 ^ b) ≤ n then rootBits b (r + 2 ^ b) n else rootBits b r n

/-- floor of the square root. -/
def floorRoot (n : Nat) : Nat := rootBits (Nat.log2 n / 2 + 1) 0 n

/-- ceiling of the square root. -/
def ceilRoot (n : Nat) : Nat :=
  if floorRoot n * floorRoot n = n then floorRoot n else floorRoot n + 1

/-- `ceil(sqrt(q) * k)` for `q >= 0` (R403, R404): as an integer, `sqrt(q) * k` is at most `m` iff `q * k * k` is at
most `m * m`. A negative `k` arises from no legal configuration. -/
def ceilRootTimes (q k : Rat) : Int :=
  if 0 ≤ k then (ceilRoot ⌈q * k * k⌉.toNat : Int) else -(floorRoot ⌊q * k * k⌋.toNat : Int)

/-- `K` (R401). -/
def speedConstant (p : Params) : Rat := p.fixedPointScale / (60 * p.ticksPerSecond)

/-- `K2` (R402). -/
def accelConstant (p : Params) : Rat :=
  p.fixedPointScale / (3600 * p.ticksPerSecond * p.accelTicksPerSecond)

/-- A rate from a speed squared (R403, R404); a free value for a negative operand (log 5). -/
def rateOfSpeedSq (f : RateField) (speedSq : Rat) (p : Params) : Int :=
  if 0 ≤ speedSq then ceilRootTimes speedSq (speedConstant p) else Config.rateOfNegative f speedSq p

/-- The exact integer outputs (R403 to R406). -/
def exactOutput (f : RateField) (b : PlannerBlock) (p : Params) : Int :=
  match f with
  | .initialRate => rateOfSpeedSq .initialRate b.entrySpeedSq p
  | .nominalRate => rateOfSpeedSq .nominalRate b.nominalSpeedSq p
  | .rateDelta => ⌈b.acceleration * accelConstant p⌉
  | .nextStepDistance => ⌈b.millimeters * p.fixedPointScale / b.stepEventCount⌉

/-- An integer output under `RATE_NUMERICS` (R409; log 6). -/
def rateOutput (f : RateField) (b : PlannerBlock) (p : Params) : Int :=
  match p.rateNumerics with
  | .exact => exactOutput f b p
  | .inexact => exactOutput f b p + ((Config.rateError f b.rateOperands p).val : Int) - 1

/-- `distance_per_step` (R407) under `RATE_NUMERICS` (R409). -/
def distancePerStep (b : PlannerBlock) (p : Params) : Rat :=
  match p.rateNumerics with
  | .exact => b.millimeters / b.stepEventCount
  | .inexact => Config.inexactDistance b.rateOperands p

/-- The range an integer output must lie in (R403 to R406). -/
def rateInRange (f : RateField) (v : Int) : Bool :=
  match f with
  | .initialRate => inUint32 v
  | .nominalRate => inUint32 v
  | .rateDelta => inUint32 v
  | .nextStepDistance => decide (1 ≤ v) && decide (v ≤ 2147483647)

/-- The first output out of its range, in the order of R400's tuple (60 R712). -/
def firstBadRate (b : PlannerBlock) (p : Params) : Option RateField :=
  [RateField.initialRate, .nominalRate, .rateDelta, .nextStepDistance].find?
    (fun f => !rateInRange f (rateOutput f b p))

end Sys2Proof.Machine
end

