-- ==== Sys2Proof/Machine/Prepare.lean ====
section
/-! DEFINITION. The Segment Preparer (spec/42_segment_preparer.md): PREP_STEP and PREPARE_SEGMENTS. -/

namespace Sys2Proof.Machine

/-- The fields of a block's SegmentData that step 2 writes before `decelerate_after` (R453). -/
def startedData (b : PlannerBlock) (p : Params) (d : SegmentData) : SegmentData :=
  { d with
    initialRate := (rateOutput .initialRate b p).toNat
    nominalRate := (rateOutput .nominalRate b p).toNat
    rateDelta := (rateOutput .rateDelta b p).toNat
    nextStepDistance := (rateOutput .nextStepDistance b p).toNat
    distancePerStep := distancePerStep b p
    stepEventsRemaining := b.stepEventCount }

/-- Step 2, `start_block(r)` (R453). A converter output out of range is raised before any field is written; a
breakpoint that is no uint32 after the others (R453's order of writes). -/
def startBlock (b : PlannerBlock) (s : State) : Flow :=
  let slot := ringNext s s.dataPrepIndex
  let s1 := { s with dataPrepIndex := slot }
  match firstBadRate b s.cfg with
  | some f => raise (.range (.rateOutput f)) s1
  | none =>
    andThen (needSlot slot s1) fun s2 =>
      let d := startedData b s2.cfg (dataRead s2 slot)
      put (.decelerateAfter slot) (inUint32 b.breakpoint)
        (dataWrite slot { d with decelerateAfter := b.breakpoint } s2) (dataWrite slot d s2)

/-- Step 3 (R454). -/
def segmentSize (segCap : Nat) (d : SegmentData) : Nat :=
  let n := min segCap d.stepEventsRemaining
  if 0 < d.decelerateAfter then min n d.decelerateAfter else n

/-- Step 4 (R455): "once `decelerate_after` is 0 it stays 0". -/
def consume (n : Nat) (d : SegmentData) : SegmentData :=
  { d with
    stepEventsRemaining := d.stepEventsRemaining - n
    decelerateAfter := if 0 < d.decelerateAfter then d.decelerateAfter - n else d.decelerateAfter }

/-- Step 5, the flag, computed after the decrement (R456). -/
def classify (d : SegmentData) : SegFlag :=
  flagOfBits (decide (d.stepEventsRemaining = 0)) (decide (d.decelerateAfter = 0))

/-- Step 5, the end of the block (R456). -/
def closeBlock (d : SegmentData) (s : State) : State :=
  if d.stepEventsRemaining = 0 then
    { s with prepBlock := none, prepIndex := plannerNext s.cfg s.prepIndex }
  else s

/-- Step 6 (R457): the descriptor, then `head`, then `next_head`. -/
def publish (n slot : Nat) (flag : SegFlag) (s : State) : State :=
  let w := encodeDescriptor { count := BitVec.ofNat 8 n, index := BitVec.ofNat 4 slot, flag := flag }
  let s1 := segWrite s.head w s
  let s2 := { s1 with head := s1.nextHead }
  { s2 with nextHead := ringNext s2 s2.head }

/-- Steps 3 to 6 on the block being prepared (R454 to R457). The descriptor's fields are checked like any written value
(00 R10); with a legal configuration they fit. -/
def emitSegment (s : State) : Flow :=
  andThen (needSlot s.dataPrepIndex s) fun s1 =>
    let slot := s1.dataPrepIndex
    let n := segmentSize s1.cfg.segCap (dataRead s1 slot)
    let d := consume n (dataRead s1 slot)
    let s2 := closeBlock d (dataWrite slot d s1)
    andThen (needSlot s2.head s2) fun s3 =>
      put (.segment s3.head) (decide (n < 256) && decide (slot < 16))
        { publish n slot (classify d) s3 with prepReturn := some .work } s3

/-- `return DONE` (R451). -/
def prepDone (s : State) : State :=
  { s with prepReturn := some .done }

/-- `PREP_STEP()` (R451). What it returns is left in `prepReturn`. -/
def prepStep (s : State) : Flow :=
  if s.nextHead = s.tail then .go (prepDone s)
  else
    match s.prepBlock with
    | some _ => emitSegment s
    | none =>
      match blockByIndex s s.prepIndex with
      | none => .go (prepDone s)
      | some b =>
        if badBlock b then raise (.badBlock b.ident) s
        else andThen (startBlock b { s with prepBlock := some b.ident }) emitSegment

/-- PREP_STEP as an instruction (R451). As an iteration of a PREPARE_SEGMENTS in progress it ends it when it returns DONE
(R450; log 11). -/
def execPrepStep (s : State) : Host.Outcome State Fault Refusal :=
  if backgroundEnabled s then
    finish (andThen (prepStep s) fun t =>
      .go { t with preparing := t.preparing && decide (t.prepReturn = some .work) })
  else .next s

/-- PREPARE_SEGMENTS (R450): its first PREP_STEP; while one returns WORK the command is in progress, and the next
iteration is a step of its own (60 R726; log 11). -/
def execPrepareSegments (s : State) : Host.Outcome State Fault Refusal :=
  if backgroundEnabled s then
    finish (andThen (prepStep s) fun t =>
      .go { t with preparing := decide (t.prepReturn = some .work) })
  else .next s

end Sys2Proof.Machine
end

