-- ==== Sys2Proof/Machine/Tick.lean ====
section
/-! DEFINITION. The tick engine and the pulse sequencer (spec/43_tick_engine.md): TICK_BEGIN, the phases of
TICK_BODY, PULSE_RESET. -/

namespace Sys2Proof.Machine

/-! ## Segment load (R504 to R508) -/

/-- R506: latch the segment. -/
def latch (d : Descriptor) (s : State) : State :=
  { s with segmentSteps := d.count.toNat, curFlag := d.flag, curData := d.index.toNat }

/-- R507's writes that no value can put out of range: the reference, the staged direction lines, the counters' seed (at
most 2^30, since the block has passed its check). -/
def seedBlock (b : PlannerBlock) (s : State) : State :=
  { s with
    curBlock := some b.ident
    outBits := lineLevels b.directionBits s.cfg.invertMask
    staged := true
    counter := ⟨(b.stepEventCount / 2 : Nat), (b.stepEventCount / 2 : Nat), (b.stepEventCount / 2 : Nat)⟩ }

/-- R507: a new block. -/
def loadBlock (s : State) : Flow :=
  match currentBlock s with
  | none => raise (.noCurrentBlock s.tail) s
  | some b =>
    if badBlock b then raise (.badBlock b.ident) s
    else
      andThen (writeCounterD (dataRead s s.curData).nextStepDistance (seedBlock b s)) fun s1 =>
      andThen (writeRate (max (dataRead s1 s1.curData).initialRate s1.cfg.minRate : Nat) s1) fun s2 =>
      writeRampCount (s2.accelPeriod / 2 : Nat) { s2 with rampState := .accel }

/-- R508: forced deceleration. -/
def forceDecel (s : State) : Flow :=
  let counted :=
    match s.rampState with
    | .cruise => writeRampCount (s.accelPeriod / 2 : Nat) s
    | .accel => writeRampCount ((s.accelPeriod : Int) - s.rampCount) s
    | .decel => .go s
  andThen counted fun s1 => .go { s1 with rampState := .decel }

/-- R506 to R508 for a descriptor whose reserved bits are 0: the checks of 30 R304 (2) and (3), the latch, the block if
a block load is due, the forced deceleration. -/
def loadSegment (d : Descriptor) (s : State) : Flow :=
  if s.cfg.n ≤ d.index.toNat then raise (.badDataIndex s.tail) s
  else if d.count = 0 then raise (.zeroStepSegment s.tail) s
  else
    andThen (if s.loadState = .loadBlock then loadBlock (latch d s) else .go (latch d s)) fun s1 =>
    andThen (if d.flag.forcesDecel then forceDecel s1 else .go s1) fun s2 =>
    .go { s2 with loadState := .loadNone }

/-! ## Ramp update (R509 to R512) -/

/-- R510. -/
def accelerate (d : SegmentData) (s : State) : Flow :=
  andThen (writeRate (s.rate + d.rateDelta : Nat) s) fun s1 =>
    if d.nominalRate ≤ s1.rate then
      andThen (writeRate d.nominalRate s1) fun s2 => .go { s2 with rampState := .cruise }
    else .go s1

/-- R511. DESIGN CHOICE (log 26): with `rate_delta = 0` and a positive rate this subtracts 0 and keeps the rate, as R511 and
D15 say; 41 R405's corner case says there that DECEL halves the rate at every acceleration tick. -/
def decelerate (d : SegmentData) (s : State) : Flow :=
  if d.rateDelta < s.rate then writeRate (s.rate - d.rateDelta : Nat) s
  else writeRate (s.rate / 2 : Nat) s

/-- R512. -/
def floorRate (s : State) : Flow :=
  writeRate (max s.rate s.cfg.minRate : Nat) s

/-- The adjustment of the rate at an acceleration tick (R510 to R512). -/
def accelTick (d : SegmentData) (s : State) : Flow :=
  andThen (if s.rampState = .accel then accelerate d s else decelerate d s) floorRate

/-- R509: the countdown. -/
def rampUpdate (d : SegmentData) (s : State) : Flow :=
  if s.rampState = .cruise then .go s
  else
    andThen (writeRampCount (s.rampCount - 1 : Nat) s) fun s1 =>
      if s1.rampCount = 0 then andThen (writeRampCount s1.accelPeriod s1) (accelTick d)
      else .go s1

/-! ## Inverse-time tick and step event (R513 to R518) -/

/-- Axis `a` steps at this event: its accumulator goes negative (R515). -/
def axisSteps (b : PlannerBlock) (s : State) (a : Axis) : Bool :=
  decide (atAxis s.counter a - atAxis b.steps a < 0)

/-- `ob` (R515): the block's direction bits and the step bits of the axes that step. Each axis reads only its own
accumulator, so the word is known before the accumulators are written. -/
def stepWord (b : PlannerBlock) (s : State) : Byte :=
  (b.directionBits &&& dirMask) |||
    (if axisSteps b s .x then stepBit .x else 0) |||
    (if axisSteps b s .y then stepBit .y else 0) |||
    (if axisSteps b s .z then stepBit .z else 0)

/-- The position after one step of axis `a` (R516). -/
def stepped (b : PlannerBlock) (a : Axis) (p : Int) : Int :=
  if movesNegative b.directionBits a then p - 1 else p + 1

/-- R515 and R516 for one axis. -/
def stepAxis (b : PlannerBlock) (a : Axis) (s : State) : Flow :=
  andThen (writeCounter a (atAxis s.counter a - atAxis b.steps a) s) fun s1 =>
    if atAxis s1.counter a < 0 then
      andThen (writeCounter a (atAxis s1.counter a + b.stepEventCount) s1) fun s2 =>
      writePosition a (stepped b a (atAxis s2.position a)) s2
    else .go s1

/-- R517 once the count has reached 0. -/
def finishSegment (s : State) : State :=
  let s1 :=
    if s.curFlag.eob then
      { discardCurrentBlock s with curBlock := none, loadState := .loadBlock }
    else { s with loadState := .loadSegment }
  { s1 with tail := ringNext s1 s1.tail }

/-- R517. -/
def countStep (s : State) : Flow :=
  andThen (writeSegmentSteps ((s.segmentSteps : Int) - 1) s) fun s1 =>
    if s1.segmentSteps = 0 then .go (finishSegment s1) else .go s1

/-- R518. -/
def stageWord (ob : Byte) (s : State) : State :=
  { s with outBits := lineLevels ob s.cfg.invertMask, staged := true }

/-- The step event with the loaded block `b` (R514 to R518). -/
def stepEventWith (b : PlannerBlock) (d : SegmentData) (s : State) : Flow :=
  andThen (writeCounterD (s.counterD + d.nextStepDistance) s) fun s1 =>
  andThen (stepAxis b .x s1) fun s2 =>
  andThen (stepAxis b .y s2) fun s3 =>
  andThen (stepAxis b .z s3) fun s4 =>
  andThen (countStep s4) fun s5 =>
  .go (stageWord (stepWord b s1) s5)

/-- The step event (R514 to R518). -/
def stepEvent (d : SegmentData) (s : State) : Flow :=
  stepEventWith (loadedBlock s) d (countFreeBlock s)

/-- R513, and the step event if the accumulator went negative. -/
def inverseTime (d : SegmentData) (s : State) : Flow :=
  andThen (writeCounterD (s.counterD - s.rate) s) fun s1 =>
    if s1.counterD < 0 then stepEvent d s1 else .go s1

/-- The body from the ramp update to its end (R509 to R519), with the SegmentData record of `cur_data`. -/
def engineTick (s : State) : Flow :=
  andThen (needSlot s.curData s) fun s0 =>
  andThen (rampUpdate (dataRead s0 s0.curData) s0) fun s1 =>
  andThen (inverseTime (dataRead s0 s0.curData) s1) fun s2 =>
  .go { s2 with busy := false }

/-- A tick body that loads the segment `d` (R506 to R519). -/
def segmentBody (d : Descriptor) (s : State) : Flow :=
  andThen (loadSegment d s) engineTick

/-- `TICK_BODY()` (R500, R503 to R519). -/
def tickBody (s : State) : Flow :=
  if s.loadState = .loadNone then engineTick s
  else if s.runState = .hold then .done (idled s)
  else if s.tail = s.head then .done { idled s with cycleStop := true }
  else
    andThen (needSlot s.tail s) fun s1 =>
      match decodeDescriptor (segRead s1 s1.tail) with
      | none => raise (.reservedBits s1.tail) s1
      | some d => segmentBody d s1

/-! ## Pulse emission (R502) -/

/-- R502: apply the staged word to all six lines and arm the one-shot. -/
def emitStaged (s : State) : Flow :=
  if s.staged then
    if s.pulseArmed && stepLineActive s.pins s.cfg.invertMask then raise (.pulseOverlap s.pins) s
    else .go { s with pins := s.outBits &&& outMask, pulseArmed := true, staged := false }
  else .go s

/-- TICK_BEGIN (R501, R502). -/
def execTickBegin (s : State) : Host.Outcome State Fault Refusal :=
  if tickBeginEnabled s then
    if s.busy then .next { s with overrunCount := s.overrunCount + 1 }
    else finish (andThen (emitStaged s) fun t => .go { t with busy := true })
  else .next s

/-- TICK_BODY (R503). -/
def execTickBody (s : State) : Host.Outcome State Fault Refusal :=
  if tickBodyEnabled s then finish (tickBody s) else .next s

/-- PULSE_RESET (R530). -/
def execPulseReset (s : State) : Host.Outcome State Fault Refusal :=
  if pulseResetEnabled s then
    .next { s with
      pins := (s.pins &&& ~~~stepMask) ||| (s.cfg.invertMask &&& stepMask)
      pulseArmed := false }
  else .next s

end Sys2Proof.Machine
end

