-- ==== Sys2Proof/Machine/Segments.lean ====
section
/-! DEFINITION. The four segment kinds (spec/43_tick_engine.md R520 to R523). A segment is executed by the engine: the
instruction is the tick body in which the engine loads it from the ring (R506 to R519); the kind's flag, latched in
`cur_flag`, then decides what its last step event does (R517). Log 12. -/

namespace Sys2Proof.Machine

/-- The tick body that loads the segment `d`, where one is pending and a load is due (R503, R506). -/
def runSegment (d : Descriptor) (s : State) : Host.Outcome State Fault Refusal :=
  if tickBodyEnabled s && loadDue s then finish (segmentBody d s) else .next s

/-- NOOP (R520): the ramp state is not forced; the block continues after its last step event. -/
def execNoop (stepCount : BitVec 8) (dataIndex : BitVec 4) (s : State) : Host.Outcome State Fault Refusal :=
  runSegment ⟨stepCount, dataIndex, .noop⟩ s

/-- END_OF_BLOCK (R521): as NOOP at load; its last step event releases the block. -/
def execEndOfBlock (stepCount : BitVec 8) (dataIndex : BitVec 4) (s : State) : Host.Outcome State Fault Refusal :=
  runSegment ⟨stepCount, dataIndex, .endOfBlock⟩ s

/-- DECEL (R522): the ramp is forced to DECEL at load; the block continues after its last step event. -/
def execDecel (stepCount : BitVec 8) (dataIndex : BitVec 4) (s : State) : Host.Outcome State Fault Refusal :=
  runSegment ⟨stepCount, dataIndex, .decel⟩ s

/-- DECEL_EOB (R523): at load as DECEL, at its last step event as END_OF_BLOCK. -/
def execDecelEob (stepCount : BitVec 8) (dataIndex : BitVec 4) (s : State) : Host.Outcome State Fault Refusal :=
  runSegment ⟨stepCount, dataIndex, .decelEob⟩ s

end Sys2Proof.Machine
end

