-- ==== Sys2Proof/Machine/Dispatch.lean ====
section
/-! DEFINITION. The meaning of each instruction. -/

namespace Sys2Proof.Machine

def exec (i : Instr) (s : State) : Host.Outcome State Fault Refusal :=
  match i with
  | .noop stepCount dataIndex => Sys2Proof.Machine.execNoop stepCount dataIndex s
  | .endOfBlock stepCount dataIndex => Sys2Proof.Machine.execEndOfBlock stepCount dataIndex s
  | .decel stepCount dataIndex => Sys2Proof.Machine.execDecel stepCount dataIndex s
  | .decelEob stepCount dataIndex => Sys2Proof.Machine.execDecelEob stepCount dataIndex s
  | .init => Sys2Proof.Machine.execInit s
  | .reset => Sys2Proof.Machine.execReset s
  | .wakeUp => Sys2Proof.Machine.execWakeUp s
  | .goIdle => Sys2Proof.Machine.execGoIdle s
  | .cycleStart => Sys2Proof.Machine.execCycleStart s
  | .feedHold => Sys2Proof.Machine.execFeedHold s
  | .cycleReinitialize => Sys2Proof.Machine.execCycleReinitialize s
  | .prepareSegments => Sys2Proof.Machine.execPrepareSegments s
  | .queue => Sys2Proof.Machine.execQueue s
  | .clearCycleStop => Sys2Proof.Machine.execClearCycleStop s
  | .prepStep => Sys2Proof.Machine.execPrepStep s
  | .tickBegin => Sys2Proof.Machine.execTickBegin s
  | .tickBody => Sys2Proof.Machine.execTickBody s
  | .pulseReset => Sys2Proof.Machine.execPulseReset s

end Sys2Proof.Machine
end

