-- ==== Sys2Proof/Machine/Fetch.lean ====
section
/-! DEFINITION. Which agent steps next and which word it takes (spec/60_exceptions.md R726, R727; log 8, log 9), and
how a word is placed there. -/

namespace Sys2Proof.Machine

/-- A word of the byte port that is a host command: bit 7 is 0 (30 R311). -/
def isCommand (c : Byte) : Bool := !c.msb

/-- The step another agent must take before the word `c` can be taken, if any: a command waits for a pending TICK_BODY
(44 R612) and for a PREPARE_SEGMENTS in progress, whose next iteration is a PREP_STEP (42 R450, 60 R726 "its steps never
overlap each other"). DESIGN CHOICE (log 25): the word 0x0B does not wait for a PREPARE_SEGMENTS in progress, it is taken as
that loop's next iteration, which the spec does not settle. With `PULSE_FITS` a TICK_BEGIN waits for the pulse reset (60 R727, 70 R811). Nothing waits under a
fault (60 R700). -/
def waitsFor (c : Byte) (s : State) : Option Byte :=
  if s.fault.isSome then none
  else if isCommand c then
    if s.busy then some 0x81#8
    else if s.preparing && c != 0x0B#8 then some 0x0B#8
    else none
  else if c == 0x80#8 && s.tickEnabled && s.cfg.pulseFits && s.pulseArmed then some 0x82#8
  else none

/-- With no input waiting, the canonical order of 30 R315: the pending body, the pulse reset "if `PULSE_FITS` and
`pulse_armed`", the next iteration of a PREPARE_SEGMENTS in progress, the next tick while the tick source runs. An armed
pulse reset without `PULSE_FITS`, which that expansion never takes, comes last (60 R727's fairness; log 8). -/
def ownStep (s : State) : Option Byte :=
  if s.fault.isSome then none
  else if s.busy then some 0x81#8
  else if s.cfg.pulseFits && s.pulseArmed then some 0x82#8
  else if s.preparing then some 0x0B#8
  else if s.tickEnabled then some 0x80#8
  else if s.pulseArmed then some 0x82#8
  else none

/-- The byte-port word whose step is taken next, and the state once it is taken off the inputs (a step that is not on the
inputs takes nothing off them). -/
def nextWord (s : State) : Option (Byte × State) :=
  match s.inputs with
  | [] => (ownStep s).map fun c => (c, s)
  | .word c :: rest =>
    match waitsFor c s with
    | some c' => some (c', s)
    | none => some (c, { s with inputs := rest })
  | .planner _ :: _ => none
  | .supply _ :: _ => none

/-- The bytes the word stands for: for a tick body that loads a segment the engine fetches that segment's word from the
ring at `tail` (43 R506), unless the word is no descriptor (30 R304: the body then faults); for every other word its own
byte. -/
def fetchBytes (c : Byte) (s : State) : Port × List Byte :=
  if c == 0x81#8 && tickBodyEnabled s && loadDue s && decide (s.tail < s.cfg.n) &&
      (decodeDescriptor (segRead s s.tail)).isSome then
    (.ring, segBytes (segRead s s.tail))
  else (.byte, [c])

/-- A step of the environment: the planner changes its store, or the host supplies a configuration. -/
def environmentStep (s : State) : State :=
  match s.inputs with
  | .planner store :: rest => { s with planner := store, inputs := rest }
  | .supply p :: rest => { s with supplied := p, inputs := rest }
  | .word _ :: _ => s
  | [] => s

/-- The byte-port word `c` placed first on the inputs, with nothing left that it would wait for. -/
def placeWord (c : Byte) (s : State) : State :=
  let s1 := { s with inputs := .word c :: s.inputs }
  match waitsFor c s with
  | none => s1
  | some _ => { s1 with busy := false, preparing := false, pulseArmed := false }

/-- The segment word `w` placed in the ring at `tail`, with a tick body pending that loads it: the ring is not empty
there, a load is needed, no hold gates it and no fault stops it (43 R503 to R506). -/
def placeSegment (w : SegWord) (s : State) : State :=
  let slot := if s.tail < s.cfg.n then s.tail else 0
  let head := if s.head = slot then ringNext s slot else s.head
  let s1 := segWrite slot w s
  { s1 with
    inputs := .word 0x81#8 :: s.inputs
    fault := none
    busy := true
    tail := slot
    head := head
    nextHead := ringNext s head
    runState := if s.runState = .hold then .running else s.runState
    loadState := if s.loadState = .loadNone then .loadSegment else s.loadState }

end Sys2Proof.Machine
end

