-- ==== Sys2Proof/Machine/Step.lean ====
section
/-! DEFINITION. One step of the machine: the word that is next is fetched, decoded and executed. -/

namespace Sys2Proof.Machine

/-- The decoded instruction is executed in the state after its word was taken. A word that the decoder rejects, a reserved
command or event code, is "refused, with no state change" (60 R711; log 10). -/
def runFetched (c : Byte) (s : State) : Host.Outcome State Fault Refusal :=
  match decode (fetchBytes c s).1 (fetchBytes c s).2 with
  | .ok i => exec i s
  | .error _ => .next s

/-- One step. Where no word is next, the environment acts, or the machine waits unchanged for an input. -/
def step (s : State) : Host.Outcome State Fault Refusal :=
  match nextWord s with
  | some (c, s') => runFetched c s'
  | none => .next (environmentStep s)

/-- The instruction with the bits `w`, placed where the next step fetches it: a segment word in the ring at `tail`, a
command or event first on the inputs. -/
def State.withFetchWord (s : State) (nbits w : Nat) : State :=
  if nbits = 16 then placeSegment (BitVec.ofNat 16 w) s else placeWord (BitVec.ofNat 8 w) s

end Sys2Proof.Machine
end

