-- ==== Sys2Proof/Safety.lean ====
section
/-! DEFINITION. The terms in which claims speak of states and runs: what a well-behaved state is, and what a tick, a
load and the preparer's slicing give where no fault is raised. Nothing here is used by the machine. -/

namespace Sys2Proof.Machine

/-! ## States -/

/-- The engine's registers are in the ranges of 10 R100 to R114, and the bits 10 R106 says are 0 are 0. -/
abbrev EngineInRange (s : State) : Prop :=
  inInt32 s.counter.x = true ∧ inInt32 s.counter.y = true ∧ inInt32 s.counter.z = true ∧
  inInt32 s.counterD = true ∧ s.segmentSteps ≤ 255 ∧ s.rate ≤ 4294967295 ∧ s.deltaD ≤ 4294967295 ∧
  s.rampCount ≤ 65535 ∧ s.outBits &&& 0xC0#8 = 0 ∧ s.curData < s.cfg.n ∧ s.tail < s.cfg.n

/-- The producer's indices are in range and `next_head = (head + 1) mod N` (10 R120, R123). -/
abbrev ProducerInRange (s : State) : Prop :=
  s.head < s.cfg.n ∧ s.nextHead = (s.head + 1) % s.cfg.n ∧ s.dataPrepIndex < s.cfg.n

/-- A SegmentData record's fields are in the ranges of 10 R126. -/
abbrev RecordInRange (d : SegmentData) : Prop :=
  d.stepEventsRemaining ≤ 4294967295 ∧ d.initialRate ≤ 4294967295 ∧ d.nominalRate ≤ 4294967295 ∧
  d.rateDelta ≤ 4294967295 ∧ d.nextStepDistance ≤ 2147483647 ∧ d.decelerateAfter ≤ 4294967295

/-- Positions are int32 (10 R128), the lines' unused bits are 0 (10 R135). -/
abbrev OutputsInRange (s : State) : Prop :=
  inInt32 s.position.x = true ∧ inInt32 s.position.y = true ∧ inInt32 s.position.z = true ∧
  s.pins &&& 0xC0#8 = 0

/-- The configuration registers satisfy 00 R7, `ACCEL_PERIOD` follows from them, and bits 7:6 of `INVERT_MASK` read as 0
(10 R132). -/
abbrev ConfigLegal (s : State) : Prop :=
  firstInvalid s.cfg = none ∧ (s.accelPeriod : Int) = accelPeriodOf s.cfg ∧ s.cfg.invertMask &&& 0xC0#8 = 0

/-- Every register is in its range (10 R100). -/
abbrev InRange (s : State) : Prop :=
  EngineInRange s ∧ ProducerInRange s ∧ (∀ e ∈ s.mem.data, RecordInRange e.2) ∧ OutputsInRange s ∧ ConfigLegal s

/-- How the run-state, the tick source, the busy flag and the load state go together: the tick source runs only in
RUNNING or HOLD (10 R137, 44 section 2), a body is pending only while it runs (10 R111), a segment is loaded or needed only
of a current block (10 R110, R112), and a loaded segment has a step event left (10 R102). -/
abbrev ControlConsistent (s : State) : Prop :=
  (s.tickEnabled = true → s.runState = .running ∨ s.runState = .hold) ∧
  (s.busy = true → s.tickEnabled = true) ∧
  (s.loadState ≠ .loadBlock → s.curBlock.isSome = true) ∧
  (s.loadState = .loadNone → 1 ≤ s.segmentSteps)

/-! ## A tick without a fault -/

/-- The ramp update (43 R509 to R512). With `rate_delta = 0` DECEL keeps a positive rate, by R511 against 41 R405's corner
case (DESIGN CHOICE, log 26). -/
def ramped (d : SegmentData) (s : State) : State :=
  if s.rampState = .cruise then s
  else if 2 ≤ s.rampCount then { s with rampCount := s.rampCount - 1 }
  else if s.rampState = .accel then
    if d.nominalRate ≤ s.rate + d.rateDelta then
      { s with rampCount := s.accelPeriod, rampState := .cruise, rate := max d.nominalRate s.cfg.minRate }
    else { s with rampCount := s.accelPeriod, rate := max (s.rate + d.rateDelta) s.cfg.minRate }
  else
    { s with
      rampCount := s.accelPeriod
      rate := max (if d.rateDelta < s.rate then s.rate - d.rateDelta else s.rate / 2) s.cfg.minRate }

/-- A Bresenham accumulator after a step event of a block (43 R515). -/
def counterAfter (b : PlannerBlock) (a : Axis) (c : Int) : Int :=
  if c - atAxis b.steps a < 0 then c - atAxis b.steps a + b.stepEventCount else c - atAxis b.steps a

/-- A position after a step event of a block, from the accumulator before it (43 R515, R516). -/
def positionAfter (b : PlannerBlock) (a : Axis) (c p : Int) : Int :=
  if c - atAxis b.steps a < 0 then stepped b a p else p

/-- The step event (43 R514 to R518), from a state whose `counter_d` has been decreased. -/
def evented (b : PlannerBlock) (d : SegmentData) (s : State) : State :=
  let last : Bool := decide (s.segmentSteps = 1)
  let ends : Bool := last && s.curFlag.eob
  { s with
    counterD := s.counterD + d.nextStepDistance
    counter := ⟨counterAfter b .x s.counter.x, counterAfter b .y s.counter.y, counterAfter b .z s.counter.z⟩
    position :=
      ⟨positionAfter b .x s.counter.x s.position.x, positionAfter b .y s.counter.y s.position.y,
        positionAfter b .z s.counter.z s.position.z⟩
    segmentSteps := s.segmentSteps - 1
    planner := if ends then s.planner.tail else s.planner
    curBlock := if ends then none else s.curBlock
    loadState := if ends then .loadBlock else if last then .loadSegment else s.loadState
    tail := if last then (s.tail + 1) % s.cfg.n else s.tail
    outBits := lineLevels (stepWord b s) s.cfg.invertMask
    staged := true }

/-- A tick body from the ramp update to its end (43 R509 to R519), with the loaded block `b`. -/
def ticked (b : PlannerBlock) (s : State) : State :=
  let d := dataRead s s.curData
  let r := ramped d s
  let e := { r with counterD := r.counterD - r.rate }
  { (if e.counterD < 0 then evented b d e else e) with busy := false }

/-- The state after the load of a segment of the same block (43 R506, R508). -/
def continued (x : Descriptor) (s : State) : State :=
  { s with
    segmentSteps := x.count.toNat
    curFlag := x.flag
    curData := x.index.toNat
    rampState := if x.flag.forcesDecel then .decel else s.rampState
    rampCount :=
      if x.flag.forcesDecel then
        match s.rampState with
        | .cruise => s.accelPeriod / 2
        | .accel => s.accelPeriod - s.rampCount
        | .decel => s.rampCount
      else s.rampCount
    loadState := .loadNone }

/-- The state after the load of the first segment of block `b` (43 R506 to R508). -/
def started (b : PlannerBlock) (x : Descriptor) (s : State) : State :=
  let d := dataRead s x.index.toNat
  { s with
    segmentSteps := x.count.toNat
    curFlag := x.flag
    curData := x.index.toNat
    curBlock := some b.ident
    outBits := lineLevels b.directionBits s.cfg.invertMask
    staged := true
    counter := ⟨(b.stepEventCount / 2 : Nat), (b.stepEventCount / 2 : Nat), (b.stepEventCount / 2 : Nat)⟩
    counterD := d.nextStepDistance
    rate := max d.initialRate s.cfg.minRate
    rampState := if x.flag.forcesDecel then .decel else .accel
    rampCount := if x.flag.forcesDecel then s.accelPeriod - s.accelPeriod / 2 else s.accelPeriod / 2
    loadState := .loadNone }

/-- The planner holds the loaded block, it passes its check, and each accumulator is in `[0, step_event_count - 1]`
(10 R101). -/
abbrev BlockLoaded (b : PlannerBlock) (s : State) : Prop :=
  heldBlock s = some b ∧ badBlock b = false ∧
  0 ≤ s.counter.x ∧ s.counter.x < b.stepEventCount ∧ 0 ≤ s.counter.y ∧ s.counter.y < b.stepEventCount ∧
  0 ≤ s.counter.z ∧ s.counter.z < b.stepEventCount

/-- No over-speed (70 R813): the rates of the loaded segment's record and the floor are at most `next_step_distance`, and
`counter_d` is in `[0, next_step_distance]` (43 R541). The bound on the sum is for the acceleration tick (43 R510); it is
on `next_step_distance`, not on `nominal_rate` as in 70 R822, because the rate may be above `nominal_rate` there (log 21). -/
abbrev SpeedBounded (s : State) : Prop :=
  let d := dataRead s s.curData
  0 ≤ s.counterD ∧ s.counterD ≤ d.nextStepDistance ∧ s.rate ≤ d.nextStepDistance ∧
  d.nominalRate ≤ d.nextStepDistance ∧ s.cfg.minRate ≤ d.nextStepDistance ∧ d.nextStepDistance ≤ 2147483647 ∧
  d.nextStepDistance + d.rateDelta ≤ 4294967295

/-- The positions are not at the ends of int32 (70 R822): the one premise that a step event can use up. -/
abbrev PositionsInside (s : State) : Prop :=
  (-2147483647 ≤ s.position.x ∧ s.position.x ≤ 2147483646) ∧
  (-2147483647 ≤ s.position.y ∧ s.position.y ≤ 2147483646) ∧
  (-2147483647 ≤ s.position.z ∧ s.position.z ≤ 2147483646)

/-- The small registers are in range (10 R102, R109, R113, R132), with a step event left. -/
abbrev EventLeft (s : State) : Prop :=
  1 ≤ s.segmentSteps ∧ s.segmentSteps ≤ 255 ∧ s.rampCount ≤ 65535 ∧ s.accelPeriod ≤ 65535 ∧ s.curData < s.cfg.n

/-- A tick body on a loaded segment of block `b` raises no fault: 70 R822's premises, with log 21's bound in the place of one
of them. -/
abbrev SafeToTick (b : PlannerBlock) (s : State) : Prop :=
  BlockLoaded b s ∧ SpeedBounded s ∧ PositionsInside s ∧ EventLeft s

/-! ## Runs of one axis, and of the preparer -/

/-- One step event of one axis: the accumulator and the number of steps made so far (43 R515). -/
def bresenhamEvent (b : PlannerBlock) (a : Axis) (v : Int × Nat) : Int × Nat :=
  (counterAfter b a v.1, if v.1 - atAxis b.steps a < 0 then v.2 + 1 else v.2)

/-- `k` step events of one axis. -/
def bresenhamEvents (b : PlannerBlock) (a : Axis) : Nat → Int × Nat → Int × Nat
  | 0, v => v
  | k + 1, v => bresenhamEvents b a k (bresenhamEvent b a v)

/-- The segments the preparer makes of a block's record, as (size, flag), until no step event remains (42 R454 to R456), for
at most `fuel` segments. -/
def slices (segCap : Nat) : Nat → SegmentData → List (Nat × SegFlag)
  | 0, _ => []
  | fuel + 1, d =>
    let n := segmentSize segCap d
    let d' := consume n d
    if d'.stepEventsRemaining = 0 then [(n, classify d')] else (n, classify d') :: slices segCap fuel d'

/-- An outcome with its next state changed. -/
def mapNext (f : State → State) : Host.Outcome State Fault Refusal → Host.Outcome State Fault Refusal
  | .next s => .next (f s)
  | .fault r => .fault r
  | .refused r => .refused r

/-- The number of unread segments (20 R212). -/
def occupancy (s : State) : Nat := (s.head + s.cfg.n - s.tail) % s.cfg.n

end Sys2Proof.Machine
end

