-- ==== Sys2Proof/Certificates/Slice0/Obligations.lean ====
section
/-! DEFINITION. The statements for the provers. Each docstring names the rules of spec/ it formalises, and says where a
clause is the model's own choice. -/

open Sys2Proof Sys2Proof.Machine

/-! ## Encoding (30_encoding.md) -/

/-- Every instruction, with every operand, decodes from its own bytes (30 R301, R303, R311, R312). -/
def Obligations.DecodeOfEncode : Prop :=
  ∀ i : Instr, decode i.port (encode i) = .ok i

/-- Bytes the decoder accepts are the encoding of the instruction it gives, on that instruction's port: no two byte lists of
one port mean the same instruction (30 R300, R316). -/
def Obligations.AcceptedBytesAreEncodings : Prop :=
  ∀ (p : Port) (bs : List Byte) (i : Instr), decode p bs = .ok i → i.port = p ∧ encode i = bs

/-- Words written out from the tables of 30 R301, R311 and R312 decode to the instructions they stand for. -/
def Obligations.SpecWordsDecode : Prop :=
  decode .ring [0xFA, 0x01] = .ok (.noop 250 1) ∧ decode .ring [0xC8, 0x11] = .ok (.endOfBlock 200 1) ∧
  decode .ring [0x32, 0x21] = .ok (.decel 50 1) ∧ decode .ring [0xFF, 0x3F] = .ok (.decelEob 255 15) ∧
  decode .byte [0x01] = .ok .init ∧ decode .byte [0x05] = .ok .cycleStart ∧ decode .byte [0x0B] = .ok .prepStep ∧
  decode .byte [0x80] = .ok .tickBegin ∧ decode .byte [0x82] = .ok .pulseReset

/-- 30 R303: the fields of a descriptor word whose reserved bits are 0, none of them sign-extended, scaled or shifted, and
the word the preparer assembles from the fields. -/
def Obligations.DescriptorWordFields : Prop :=
  (∀ w : SegWord, w.toNat < 16384 →
    ∃ d, decodeDescriptor w = some d ∧ d.count.toNat = w.toNat % 256 ∧ d.index.toNat = w.toNat / 256 % 16 ∧
      d.flag.eob = w.getLsbD 12 ∧ d.flag.forcesDecel = w.getLsbD 13) ∧
  (∀ d : Descriptor, (encodeDescriptor d).toNat =
    d.flag.forcesDecel.toNat * 8192 + d.flag.eob.toNat * 4096 + d.index.toNat * 256 + d.count.toNat)

/-- The codes that mean something (30 R311, R312). A reserved one is refused by name, and a step that takes it changes no
state (30 R313, 60 R711); that such a word waits like others and is then taken off the inputs is the model's own choice
(log 8, log 10). -/
def Obligations.ReservedCodesAreRefused : Prop :=
  (∀ c : Byte, (∃ i, decode .byte [c] = .ok i) ↔
    ((1 ≤ c.toNat ∧ c.toNat ≤ 0x0B) ∨ (0x80 ≤ c.toNat ∧ c.toNat ≤ 0x82))) ∧
  (∀ (s : State) (c : Byte) (rest : List Input), s.inputs = .word c :: rest → waitsFor c s = none →
    ((c = 0 ∨ (0x0C ≤ c.toNat ∧ c.toNat ≤ 0x7F)) →
      decode .byte [c] = .error (.reservedCommand c) ∧ step s = .next { s with inputs := rest }) ∧
    (0x83 ≤ c.toNat →
      decode .byte [c] = .error (.reservedEvent c) ∧ step s = .next { s with inputs := rest }))

/-! ## Steps (60_exceptions.md R726, R727) -/

/-- A step runs the instruction its fetched bytes decode to, in the state after the word was taken off the inputs; in
particular a command or event that waits for nothing runs with the inputs after it left (log 8). -/
def Obligations.StepRunsTheFetchedInstruction : Prop :=
  (∀ (s s' : State) (c : Byte) (i : Instr), nextWord s = some (c, s') →
    decode (fetchBytes c s').1 (fetchBytes c s').2 = .ok i → step s = exec i s') ∧
  (∀ (s : State) (c : Byte) (rest : List Input) (i : Instr), s.inputs = .word c :: rest → waitsFor c s = none →
    c ≠ 0x81#8 → decode .byte [c] = .ok i → step s = exec i { s with inputs := rest })

/-- When a tick body is next and a load is due, the step runs the segment whose word stands in the ring at `tail`, and
TICK_BODY as an instruction is that segment (43 R503, R506, R520 to R523). That a segment as an instruction is the tick body
that loads it is the model's reading (log 12), and so is that with no input the pending body is the step that is taken, also
with the one-shot armed (log 8; 60 R727 leaves the order free). -/
def Obligations.StepRunsTheSegmentAtTail : Prop :=
  ∀ (s : State) (rest : List Input) (i : Instr), s.fault = none → s.busy = true → s.loadState ≠ .loadNone →
    s.runState ≠ .hold → s.tail ≠ s.head → s.tail < s.cfg.n → decode .ring (segBytes (segRead s s.tail)) = .ok i →
    exec .tickBody s = exec i s ∧
    (s.inputs = .word 0x81#8 :: rest → step s = exec i { s with inputs := rest }) ∧
    (s.inputs = [] → step s = exec i s)

/-- No command runs between a tick's begin and its body (44 R612, 60 R727). How the model does it is its own choice: a command
word that arrives meanwhile stays on the inputs (log 9), and the step is the pending TICK_BODY (log 8). -/
def Obligations.CommandWaitsForTheTickBody : Prop :=
  ∀ (s : State) (c : Byte) (rest : List Input), s.inputs = .word c :: rest → c.toNat < 0x80 → s.fault = none →
    s.busy = true →
    step s = exec .tickBody s ∧ ∀ t, exec .tickBody s = .next t → t.inputs = s.inputs

/-- What arrives from the environment changes the planner's store or INIT's operand and nothing of the block; with no input,
nothing armed, pending or running, a step changes nothing. That is the model's own reading of 60 R726 and R731: INIT's operand
is a field that an input replaces (log 15), no input writes a register or a ring (log 24), and the inputs are a list of which a
step takes the first, the machine waiting where there is none (log 8). -/
def Obligations.EnvironmentStepsTouchOnlyTheirOwn : Prop :=
  (∀ (s : State) (store : List PlannerEntry) (rest : List Input), s.inputs = .planner store :: rest →
    step s = .next { s with planner := store, inputs := rest }) ∧
  (∀ (s : State) (p : Params) (rest : List Input), s.inputs = .supply p :: rest →
    step s = .next { s with supplied := p, inputs := rest }) ∧
  (∀ s : State, s.inputs = [] → s.busy = false → s.pulseArmed = false → s.preparing = false → s.tickEnabled = false →
    step s = .next s)

/-- A word placed in the reset state is run by the very next step. This is of the model's own means to run one word: where
withFetchWord puts it (log 22), and the schedule of the inputs from which a step takes it (log 8); the spec has no such
operation. -/
def Obligations.PlacedWordRunsFirst : Prop :=
  (∀ (c : Byte) (i : Instr), decode .byte [c] = .ok i →
    step (State.reset.withFetchWord 8 c.toNat) = exec i State.reset) ∧
  (∀ (w : SegWord) (i : Instr), decode .ring (segBytes w) = .ok i →
    step (State.reset.withFetchWord 16 w.toNat) =
      exec i { State.reset.withFetchWord 16 w.toNat with inputs := [] })

/-! ## INIT, RESET and the lifecycle commands (70 R801, 44_lifecycle.md) -/

/-- 00 R7: INIT accepts a configuration exactly when every constraint holds. -/
def Obligations.LegalConfigurations : Prop :=
  ∀ p : Params, firstInvalid p = none ↔
    ((2 ≤ p.n ∧ p.n ≤ 16) ∧ (1 ≤ p.segCap ∧ p.segCap ≤ 255) ∧ 0 < p.ticksPerSecond ∧ 0 < p.accelTicksPerSecond ∧
      (2 ≤ ⌊p.ticksPerSecond / p.accelTicksPerSecond⌋ ∧ ⌊p.ticksPerSecond / p.accelTicksPerSecond⌋ ≤ 65535) ∧
      p.minRate ≤ 2 ^ 31 - 1 ∧ 0 < p.fixedPointScale ∧ p.pulseWidth < 1 / p.ticksPerSecond ∧ 0 ≤ p.idleLockDelay)

/-- 70 R801, with the supplied configuration as operand: a legal one gives the power-on state, the ring contents, the
planner and the inputs as they were; an illegal one writes nothing but the fault record. Of the model's own reading are: that
an illegal INIT under a recorded fault replaces that fault's record (log 15), that the configuration INIT writes holds also `N`,
`PULSE_FITS`, `RATE_NUMERICS` and `planner_next` (log 16), and the fields `preparing` and `prepReturn` (log 11). -/
def Obligations.InitPowersOn : Prop :=
  decode .byte [0x01] = .ok .init ∧
  ∀ s : State, (s.busy = false ∨ s.fault ≠ none) →
    (firstInvalid s.supplied = none →
      exec .init s = .next { s with
        cfg := { s.supplied with invertMask := s.supplied.invertMask &&& 0x3F }
        accelPeriod := ⌊s.supplied.ticksPerSecond / s.supplied.accelTicksPerSecond⌋.toNat
        counter := ⟨0, 0, 0⟩, segmentSteps := 0, counterD := 0, rate := 0, deltaD := 0, outBits := 0, staged := false
        rampState := .cruise, rampCount := 0, busy := false, curFlag := .noop, curData := 0, loadState := .loadBlock
        curBlock := none, prepBlock := none, prepIndex := 0, dataPrepIndex := 0, tail := 0, head := 0, nextHead := 1
        position := ⟨0, 0, 0⟩, runState := .idle, tickEnabled := false, pulseArmed := false
        pins := s.supplied.invertMask &&& 0x3F, disableLine := 1 - s.supplied.invertEnable
        cycleStop := false, overrunCount := 0, fault := none, preparing := false, prepReturn := none }) ∧
    (∀ p, firstInvalid s.supplied = some p → exec .init s = .next { s with fault := some (.configInvalid p) })

/-- 44 R600: RESET under a running tick raises RESET_WHILE_RUNNING and writes nothing else; otherwise it writes every engine
and producer register and leaves everything else. -/
def Obligations.ResetClearsTheEngine : Prop :=
  decode .byte [0x02] = .ok .reset ∧
  ∀ s : State, s.fault = none → s.busy = false →
    exec .reset s = .next (if s.tickEnabled then { s with fault := some .resetWhileRunning }
      else { s with
        counter := ⟨0, 0, 0⟩, segmentSteps := 0, counterD := 0, rate := 0, deltaD := 0, outBits := 0, staged := false
        rampState := .cruise, rampCount := 0, busy := false, curFlag := .noop, curData := 0, loadState := .loadBlock
        curBlock := none, prepBlock := none, prepIndex := 0, dataPrepIndex := 0, tail := 0, head := 0, nextHead := 1 })

/-- 44 R610: RESET followed by RESET leaves the same state as one RESET (with the tick source stopped). -/
def Obligations.ResetIsIdempotent : Prop :=
  ∀ s t : State, s.fault = none → s.busy = false → s.tickEnabled = false → exec .reset s = .next t →
    exec .reset t = .next t

/-- 44 R601. -/
def Obligations.WakeUpEnablesAndStarts : Prop :=
  decode .byte [0x03] = .ok .wakeUp ∧
  ∀ s : State, s.fault = none → s.busy = false →
    exec .wakeUp s = .next (
      if s.runState = .running ∧ s.tickEnabled = false then
        { s with disableLine := s.cfg.invertEnable, staged := false, outBits := s.cfg.invertMask &&& 0x3F
                 tickEnabled := true }
      else { s with disableLine := s.cfg.invertEnable })

/-- 44 R602, as a host command: the tick source is stopped, the outputs are disabled, the engine is not busy; a pulse
already armed stays armed. -/
def Obligations.GoIdleStopsTheTick : Prop :=
  decode .byte [0x04] = .ok .goIdle ∧
  ∀ s : State, s.fault = none → s.busy = false →
    exec .goIdle s = .next { s with tickEnabled := false, disableLine := 1 - s.cfg.invertEnable, busy := false }

/-- 44 R603. -/
def Obligations.CycleStartRunsAQueuedCycle : Prop :=
  decode .byte [0x05] = .ok .cycleStart ∧
  ∀ s : State, s.fault = none → s.busy = false →
    exec .cycleStart s = .next (
      if s.runState = .queued then
        if s.tickEnabled then { s with runState := .running, disableLine := s.cfg.invertEnable }
        else
          { s with runState := .running, disableLine := s.cfg.invertEnable, staged := false
                   outBits := s.cfg.invertMask &&& 0x3F, tickEnabled := true }
      else s)

/-- 44 R604, the command itself: only the run-state changes. -/
def Obligations.FeedHoldHoldsARunningCycle : Prop :=
  decode .byte [0x06] = .ok .feedHold ∧
  ∀ s : State, s.fault = none → s.busy = false →
    exec .feedHold s = .next { s with runState := if s.runState = .running then .hold else s.runState }

/-- 44 R605. -/
def Obligations.CycleReinitializeEndsAHold : Prop :=
  decode .byte [0x07] = .ok .cycleReinitialize ∧
  ∀ s : State, s.fault = none → s.busy = false →
    exec .cycleReinitialize s =
      .next { s with runState := if s.runState = .hold ∧ s.tickEnabled = false then .idle else s.runState }

/-- 44 R606. -/
def Obligations.QueueEntersQueued : Prop :=
  decode .byte [0x09] = .ok .queue ∧
  ∀ s : State, s.fault = none → s.busy = false →
    exec .queue s = .next { s with runState := if s.runState = .idle then .queued else s.runState }

/-- 44 R607. -/
def Obligations.ClearCycleStopAcknowledges : Prop :=
  decode .byte [0x0A] = .ok .clearCycleStop ∧
  ∀ s : State, s.fault = none → s.busy = false →
    exec .clearCycleStop s =
      .next { s with
        cycleStop := false
        runState := if s.runState = .running ∧ s.tickEnabled = false then .idle else s.runState }

/-! ## Tick begin, pulse reset, idle paths (43 R501 to R505, R530) -/

/-- 43 R501: a tick that finds the engine busy is counted and does nothing else. -/
def Obligations.TickBeginCountsAnOverrun : Prop :=
  decode .byte [0x80] = .ok .tickBegin ∧
  ∀ s : State, s.fault = none → s.tickEnabled = true → (s.cfg.pulseFits = true → s.pulseArmed = false) → s.busy = true →
    exec .tickBegin s = .next { s with overrunCount := s.overrunCount + 1 }

/-- 43 R502: a tick that passes the guard applies a staged word to the six lines and arms the pulse reset, or raises
PULSE_OVERLAP with nothing written; a tick with nothing staged only becomes busy. -/
def Obligations.TickBeginEmits : Prop :=
  ∀ s : State, s.fault = none → s.tickEnabled = true → (s.cfg.pulseFits = true → s.pulseArmed = false) → s.busy = false →
    exec .tickBegin s = .next (
      if s.staged then
        if s.pulseArmed = true ∧ (s.pins ^^^ s.cfg.invertMask) &&& 0x07 ≠ 0 then
          { s with fault := some (.pulseOverlap s.pins) }
        else { s with pins := s.outBits &&& 0x3F, pulseArmed := true, staged := false, busy := true }
      else { s with busy := true })

/-- 43 R530: the step lines return to their inactive level, the direction lines stay. -/
def Obligations.PulseResetClearsTheStepLines : Prop :=
  decode .byte [0x82] = .ok .pulseReset ∧
  ∀ s : State, s.fault = none → s.pulseArmed = true →
    ∃ t, exec .pulseReset s = .next t ∧ t = { s with pins := t.pins, pulseArmed := false } ∧
      t.pins &&& 0x07 = s.cfg.invertMask &&& 0x07 ∧ t.pins &&& 0xF8 = s.pins &&& 0xF8

/-- 43 R530: the pulse reset and a tick body give the same state in either order. -/
def Obligations.PulseResetCommutesWithTheBody : Prop :=
  ∀ s t u : State, s.busy = true → s.pulseArmed = true → s.fault = none → exec .tickBody s = .next t → t.fault = none →
    exec .pulseReset s = .next u → ∃ v, exec .tickBody u = .next v ∧ exec .pulseReset t = .next v

/-- 43 R504: with a load due, a hold makes the body go idle and consume nothing. -/
def Obligations.HoldGatesTheLoad : Prop :=
  ∀ s : State, s.fault = none → s.busy = true → s.loadState ≠ .loadNone → s.runState = .hold →
    exec .tickBody s = .next { s with tickEnabled := false, disableLine := 1 - s.cfg.invertEnable, busy := false }

/-- 43 R505: with a load due and no hold, an empty ring makes the body go idle and signal the cycle stop. -/
def Obligations.EmptyRingStopsTheCycle : Prop :=
  ∀ s : State, s.fault = none → s.busy = true → s.loadState ≠ .loadNone → s.runState ≠ .hold → s.tail = s.head →
    exec .tickBody s = .next { s with
      tickEnabled := false, disableLine := 1 - s.cfg.invertEnable, busy := false, cycleStop := true }

/-- 44 R604, 43 R504: a loaded segment runs on whatever the run-state: the tick body's outcome does not depend on it, and
leaves it. -/
def Obligations.LoadedSegmentIgnoresTheRunState : Prop :=
  ∀ (s : State) (r : RunState), s.loadState = .loadNone →
    exec .tickBody { s with runState := r } = mapNext (fun t => { t with runState := r }) (exec .tickBody s)

/-! ## Tick bodies and segment loads (43 R506 to R523) -/

/-- 43 R509 to R519: a tick body on a loaded segment, under `SafeToTick`, raises no fault and gives exactly the ramp update,
the inverse-time tick and, where `counter_d` goes negative, the step event. The next state is written out in `ticked`;
everything it does not name is as before. `SafeToTick` has the premises of 70 R822 but for one, which the model replaces
(log 21); DECEL with `rate_delta = 0` keeps the rate, which is the model's choice between 43 R511 and 41 R405 (log 26). -/
def Obligations.LoadedTickCompletes : Prop :=
  ∀ (b : PlannerBlock) (s : State), s.fault = none → s.busy = true → s.loadState = .loadNone → SafeToTick b s →
    exec .tickBody s = .next (ticked b s)

/-- 43 R541, 10 R101, 70 R822: such a body keeps every premise of `SafeToTick` but the room of the positions, which a step
event can use up: no fault is recorded, the accumulators stay in `[0, step_event_count - 1]`, `counter_d` in
`[0, next_step_distance]`, the rate at most `next_step_distance`, the small registers in range, the block held until it ends,
and a step event is left while the segment is loaded. So while it is loaded and the positions have room, the next body is safe
as well. The premises are the model's, with one of 70 R822's replaced (log 21). -/
def Obligations.LoadedTickKeepsThePremises : Prop :=
  ∀ (b : PlannerBlock) (s t : State), s.fault = none → s.busy = true → s.loadState = .loadNone → SafeToTick b s →
    exec .tickBody s = .next t →
    t.fault = none ∧ SpeedBounded t ∧ t.rampCount ≤ 65535 ∧ t.accelPeriod ≤ 65535 ∧ t.segmentSteps ≤ 255 ∧
    t.curData < t.cfg.n ∧ (t.loadState = .loadNone → 1 ≤ t.segmentSteps) ∧
    (0 ≤ t.counter.x ∧ t.counter.x < b.stepEventCount) ∧ (0 ≤ t.counter.y ∧ t.counter.y < b.stepEventCount) ∧
    (0 ≤ t.counter.z ∧ t.counter.z < b.stepEventCount) ∧
    (t.loadState ≠ .loadBlock → heldBlock t = some b) ∧
    (t.loadState = .loadNone → PositionsInside t → SafeToTick b t)

/-- 43 R506, R508, R520 to R523, R544: a segment of the same block, of each kind: `step_count`, flag and slot are latched,
a DECEL kind forces the ramp, everything else carries over, and the tick goes on (`SafeToTick` as in log 21, a zero
`rate_delta` in DECEL as in log 26). -/
def Obligations.SegmentContinuesItsBlock : Prop :=
  ∀ (b : PlannerBlock) (s : State) (c : BitVec 8) (d : BitVec 4), s.fault = none → s.busy = true →
    s.loadState = .loadSegment → s.runState ≠ .hold → s.tail ≠ s.head → d.toNat < s.cfg.n → c ≠ 0 →
    s.rampCount ≤ s.accelPeriod →
    (SafeToTick b (continued ⟨c, d, .noop⟩ s) → exec (.noop c d) s = .next (ticked b (continued ⟨c, d, .noop⟩ s))) ∧
    (SafeToTick b (continued ⟨c, d, .endOfBlock⟩ s) →
      exec (.endOfBlock c d) s = .next (ticked b (continued ⟨c, d, .endOfBlock⟩ s))) ∧
    (SafeToTick b (continued ⟨c, d, .decel⟩ s) → exec (.decel c d) s = .next (ticked b (continued ⟨c, d, .decel⟩ s))) ∧
    (SafeToTick b (continued ⟨c, d, .decelEob⟩ s) →
      exec (.decelEob c d) s = .next (ticked b (continued ⟨c, d, .decelEob⟩ s)))

/-- 43 R506 to R508, R520 to R523: the first segment of the planner's current block, of each kind: the direction lines are
staged, the accumulators seeded, `counter_d`, rate and ramp set, and the tick goes on (`SafeToTick` as in log 21, a zero
`rate_delta` in DECEL as in log 26). -/
def Obligations.SegmentStartsABlock : Prop :=
  ∀ (b : PlannerBlock) (s : State) (c : BitVec 8) (d : BitVec 4), s.fault = none → s.busy = true →
    s.loadState = .loadBlock → s.runState ≠ .hold → s.tail ≠ s.head → d.toNat < s.cfg.n → c ≠ 0 →
    currentBlock s = some b →
    (SafeToTick b (started b ⟨c, d, .noop⟩ s) → exec (.noop c d) s = .next (ticked b (started b ⟨c, d, .noop⟩ s))) ∧
    (SafeToTick b (started b ⟨c, d, .endOfBlock⟩ s) →
      exec (.endOfBlock c d) s = .next (ticked b (started b ⟨c, d, .endOfBlock⟩ s))) ∧
    (SafeToTick b (started b ⟨c, d, .decel⟩ s) → exec (.decel c d) s = .next (ticked b (started b ⟨c, d, .decel⟩ s))) ∧
    (SafeToTick b (started b ⟨c, d, .decelEob⟩ s) →
      exec (.decelEob c d) s = .next (ticked b (started b ⟨c, d, .decelEob⟩ s)))

/-- 30 R304, 60 R703 to R705, R712: the descriptor checks at a load, in their order; the body writes nothing but the fault
record. -/
def Obligations.MalformedSegmentsFault : Prop :=
  ∀ s : State, s.fault = none → s.busy = true → s.loadState ≠ .loadNone → s.runState ≠ .hold → s.tail ≠ s.head →
    (s.tail < s.cfg.n → 16384 ≤ (segRead s s.tail).toNat →
      exec .tickBody s = .next { s with fault := some (.reservedBits s.tail) }) ∧
    (∀ x : Descriptor, s.cfg.n ≤ x.index.toNat →
      exec x.instr s = .next { s with fault := some (.badDataIndex s.tail) }) ∧
    (∀ x : Descriptor, x.index.toNat < s.cfg.n → x.count = 0 →
      exec x.instr s = .next { s with fault := some (.zeroStepSegment s.tail) })

/-- 60 R706, R707, R700: at a block load the planner's missing or invalid block is a fault; the latched segment stands, and
nothing else is written. -/
def Obligations.BlockLoadFaults : Prop :=
  ∀ (s : State) (x : Descriptor), s.fault = none → s.busy = true → s.loadState = .loadBlock → s.runState ≠ .hold →
    s.tail ≠ s.head → x.index.toNat < s.cfg.n → x.count ≠ 0 →
    (currentBlock s = none →
      exec x.instr s = .next { s with
        segmentSteps := x.count.toNat, curFlag := x.flag, curData := x.index.toNat
        fault := some (.noCurrentBlock s.tail) }) ∧
    (∀ b, currentBlock s = some b → badBlock b = true →
      exec x.instr s = .next { s with
        segmentSteps := x.count.toNat, curFlag := x.flag, curData := x.index.toNat
        fault := some (.badBlock b.ident) })

/-- 60 R700, R702, 43 R510: an acceleration that takes the rate past uint32 records RANGE(rate); the reloaded countdown
stands, the rate and everything after it is not written. -/
def Obligations.RateOverflowFaults : Prop :=
  ∀ s : State, s.fault = none → s.busy = true → s.loadState = .loadNone → s.rampState = .accel → s.rampCount ≤ 1 →
    s.accelPeriod ≤ 65535 → s.curData < s.cfg.n → 4294967295 < s.rate + (dataRead s s.curData).rateDelta →
    exec .tickBody s = .next { s with rampCount := s.accelPeriod, fault := some (.range .rate) }

/-- 43 R542: within a loaded segment, ACCEL never lowers the rate and stays at most nominal, DECEL never raises it, stays at
least `MIN_RATE` and is not left, CRUISE keeps it. -/
def Obligations.RampIsMonotone : Prop :=
  ∀ s t : State, s.fault = none → s.busy = true → s.loadState = .loadNone → exec .tickBody s = .next t → t.fault = none →
    (s.rampState = .accel → s.rate ≤ (dataRead s s.curData).nominalRate →
      s.cfg.minRate ≤ (dataRead s s.curData).nominalRate →
      s.rate ≤ t.rate ∧ t.rate ≤ (dataRead s s.curData).nominalRate ∧ t.rampState ≠ .decel) ∧
    (s.rampState = .decel → s.cfg.minRate ≤ s.rate →
      t.rate ≤ s.rate ∧ s.cfg.minRate ≤ t.rate ∧ t.rampState = .decel) ∧
    (s.rampState = .cruise → t.rate = s.rate ∧ t.rampState = .cruise)

/-- 43 R541, 70 R832: a tick body moves each axis by at most one step, whatever the state. -/
def Obligations.AtMostOneStepPerTick : Prop :=
  ∀ s t : State, exec .tickBody s = .next t →
    (s.position.x - 1 ≤ t.position.x ∧ t.position.x ≤ s.position.x + 1) ∧
    (s.position.y - 1 ≤ t.position.y ∧ t.position.y ≤ s.position.y + 1) ∧
    (s.position.z - 1 ≤ t.position.z ∧ t.position.z ≤ s.position.z + 1)

/-- 43 R540, Bresenham exactness: from the seed, after `k` step events of a valid block an axis has stepped
`max(0, ceil((k*s - h) / E))` times and its accumulator is in `[0, E - 1]`; after all `E` events it has stepped exactly
`steps[a]` times and the accumulator is back at the seed. -/
def Obligations.BresenhamIsExact : Prop :=
  ∀ (b : PlannerBlock) (a : Axis), 1 ≤ b.stepEventCount → atAxis b.steps a ≤ b.stepEventCount →
    (∀ k : Nat,
      let r := bresenhamEvents b a k (((b.stepEventCount / 2 : Nat) : Int), 0)
      0 ≤ r.1 ∧ r.1 < b.stepEventCount ∧
      (r.2 : Int) = max 0 ⌈((k * atAxis b.steps a : Rat) - (b.stepEventCount / 2 : Nat)) / b.stepEventCount⌉) ∧
    bresenhamEvents b a b.stepEventCount (((b.stepEventCount / 2 : Nat) : Int), 0) =
      (((b.stepEventCount / 2 : Nat) : Int), atAxis b.steps a)

/-! ## The preparer and the rate converter (42_segment_preparer.md, 41_rate_converter.md) -/

/-- 42 R451, R452, R450: a full ring, or a planner without a next block, makes PREP_STEP and PREPARE_SEGMENTS return DONE
and write nothing of the block. -/
def Obligations.PrepStepReturnsDone : Prop :=
  ∀ s : State, s.fault = none → s.busy = false →
    (s.nextHead = s.tail ∨ (s.prepBlock = none ∧ blockByIndex s s.prepIndex = none)) →
    exec .prepStep s = .next { s with prepReturn := some .done, preparing := false } ∧
    exec .prepareSegments s = .next { s with prepReturn := some .done, preparing := false }

/-- 42 R454 to R457: a PREP_STEP on the block being prepared cuts one segment of
`min(SEG_CAP, step_events_remaining, decelerate_after when positive)` step events, publishes its descriptor at `head`, and
returns WORK; every other slot of both rings and every other register is as before. PREPARE_SEGMENTS does the same and stays
in progress (42 R450; `preparing` is the model's own field, log 11). -/
def Obligations.PrepStepCutsASegment : Prop :=
  ∀ (s : State) (r : BlockRef), s.fault = none → s.busy = false → s.nextHead ≠ s.tail → s.prepBlock = some r →
    s.dataPrepIndex < s.cfg.n → s.head < s.cfg.n → s.cfg.n ≤ 16 → s.cfg.segCap ≤ 255 →
    let d := dataRead s s.dataPrepIndex
    let k := if 0 < d.decelerateAfter then min (min s.cfg.segCap d.stepEventsRemaining) d.decelerateAfter
      else min s.cfg.segCap d.stepEventsRemaining
    let left := d.stepEventsRemaining - k
    let due := d.decelerateAfter - k
    ∃ m : Memory,
      (∀ i, cellGet 0 m.seg i = if i = s.head then
          encodeDescriptor ⟨BitVec.ofNat 8 k, BitVec.ofNat 4 s.dataPrepIndex, flagOfBits (left == 0) (due == 0)⟩
        else segRead s i) ∧
      (∀ i, cellGet SegmentData.unwritten m.data i = if i = s.dataPrepIndex then
          { d with stepEventsRemaining := left, decelerateAfter := due } else dataRead s i) ∧
      (∀ p : Bool,
        let t := { s with
          mem := m, head := s.nextHead, nextHead := (s.nextHead + 1) % s.cfg.n, prepReturn := some .work
          prepBlock := if left = 0 then none else some r
          prepIndex := if left = 0 then plannerNext s.cfg s.prepIndex else s.prepIndex
          preparing := p }
        (p = s.preparing → exec .prepStep s = .next t) ∧ (p = true → exec .prepareSegments s = .next t))

/-- 42 R452, R453: a PREP_STEP that fetches a new block takes the next SegmentData slot, writes all its fields from the rate
converter, the block and the breakpoint, and then cuts the block's first segment: it is the PREP_STEP of the state in which
that record stands and the block is being prepared. -/
def Obligations.PrepStepStartsABlock : Prop :=
  ∀ (s : State) (b : PlannerBlock), s.fault = none → s.busy = false → s.nextHead ≠ s.tail → s.prepBlock = none →
    blockByIndex s s.prepIndex = some b → badBlock b = false → firstBadRate b s.cfg = none → b.breakpoint ≤ 4294967295 →
    1 ≤ s.cfg.n →
    let slot := (s.dataPrepIndex + 1) % s.cfg.n
    ∃ m : Memory,
      m.seg = s.mem.seg ∧
      (∀ i, cellGet SegmentData.unwritten m.data i = if i = slot then
          { stepEventsRemaining := b.stepEventCount
            initialRate := (rateOutput .initialRate b s.cfg).toNat
            nominalRate := (rateOutput .nominalRate b s.cfg).toNat
            rateDelta := (rateOutput .rateDelta b s.cfg).toNat
            nextStepDistance := (rateOutput .nextStepDistance b s.cfg).toNat
            decelerateAfter := b.breakpoint
            distancePerStep := distancePerStep b s.cfg }
        else dataRead s i) ∧
      exec .prepStep s = exec .prepStep { s with mem := m, dataPrepIndex := slot, prepBlock := some b.ident } ∧
      exec .prepareSegments s =
        exec .prepareSegments { s with mem := m, dataPrepIndex := slot, prepBlock := some b.ident }

/-- 60 R707, R702, R700: an invalid block faults before anything is written; a converter output out of range faults after
the block is taken and the slot advanced, with no field of the record written; a breakpoint that is no uint32 faults with the
other fields of the record written (`startedData`), its `decelerate_after` as it was. That a planner can answer such a
breakpoint is the model's choice (log 13), and so are the names of the registers and the order of the checks (log 19). -/
def Obligations.PrepStepFaults : Prop :=
  ∀ (s : State) (b : PlannerBlock), s.fault = none → s.busy = false → s.nextHead ≠ s.tail → s.prepBlock = none →
    blockByIndex s s.prepIndex = some b →
    (badBlock b = true → exec .prepStep s = .next { s with fault := some (.badBlock b.ident) }) ∧
    (∀ f, badBlock b = false → firstBadRate b s.cfg = some f →
      exec .prepStep s = .next { s with
        prepBlock := some b.ident, dataPrepIndex := (s.dataPrepIndex + 1) % s.cfg.n
        fault := some (.range (.rateOutput f)) }) ∧
    (badBlock b = false → firstBadRate b s.cfg = none → 4294967295 < b.breakpoint → 1 ≤ s.cfg.n →
      let slot := (s.dataPrepIndex + 1) % s.cfg.n
      ∃ m : Memory,
        m.seg = s.mem.seg ∧
        (∀ i, cellGet SegmentData.unwritten m.data i =
          if i = slot then startedData b s.cfg (dataRead s slot) else dataRead s i) ∧
        exec .prepStep s = .next { s with
          mem := m, prepBlock := some b.ident, dataPrepIndex := slot
          fault := some (.range (.decelerateAfter slot)) })

/-- 42 R458: the segments of one block. Their sizes are from 1 to `SEG_CAP` and sum to the block's step events, exactly the
last one ends the block, and a segment forces deceleration exactly from the one on that reaches `decelerate_after`. -/
def Obligations.SegmentsPartitionTheBlock : Prop :=
  ∀ (segCap fuel : Nat) (d : SegmentData), 1 ≤ segCap → 1 ≤ d.stepEventsRemaining → d.stepEventsRemaining ≤ fuel →
    ((slices segCap fuel d).map Prod.fst).sum = d.stepEventsRemaining ∧
    (∀ p ∈ slices segCap fuel d, 1 ≤ p.1 ∧ p.1 ≤ segCap) ∧
    (∃ pre last, slices segCap fuel d = pre ++ [last] ∧ last.2.eob = true ∧ ∀ p ∈ pre, p.2.eob = false) ∧
    (∀ pre p post, slices segCap fuel d = pre ++ p :: post →
      (p.2.forcesDecel = true ↔ d.decelerateAfter ≤ (pre.map Prod.fst).sum + p.1))

/-- 20 R210, R212: the preparer, a PREP_STEP or a PREPARE_SEGMENTS (whose step is its first PREP_STEP, log 11), never writes a
slot in the occupied range, leaves `tail`, and either leaves the occupancy or adds one to it. -/
def Obligations.PreparerKeepsUnreadSegments : Prop :=
  ∀ (i : Instr) (s t : State), (i = .prepStep ∨ i = .prepareSegments) → 2 ≤ s.cfg.n → s.head < s.cfg.n →
    s.tail < s.cfg.n → s.nextHead = (s.head + 1) % s.cfg.n → exec i s = .next t →
    (∀ k, k < s.cfg.n → (k + s.cfg.n - s.tail) % s.cfg.n < occupancy s → segRead t k = segRead s k) ∧
    t.tail = s.tail ∧
    ((t.head = s.head ∧ occupancy t = occupancy s) ∨
      (t.head = s.nextHead ∧ occupancy t = occupancy s + 1))

/-- 41 R401, R403, R404, R408, R409: under exact numerics the two rates are the ceilings of `sqrt(speed²) * K` over the real
numbers, `K = FIXED_POINT_SCALE / (60 * TICKS_PER_SECOND)`. -/
def Obligations.RatesAreExactCeilings : Prop :=
  ∀ (b : PlannerBlock) (p : Params), p.rateNumerics = .exact → 0 ≤ b.entrySpeedSq → 0 ≤ b.nominalSpeedSq →
    rateOutput .initialRate b p =
      ⌈Real.sqrt (b.entrySpeedSq : ℝ) * ((p.fixedPointScale : ℝ) / (60 * (p.ticksPerSecond : ℝ)))⌉ ∧
    rateOutput .nominalRate b p =
      ⌈Real.sqrt (b.nominalSpeedSq : ℝ) * ((p.fixedPointScale : ℝ) / (60 * (p.ticksPerSecond : ℝ)))⌉

/-- 41 R402, R405, R406, R407: the other outputs under exact numerics. -/
def Obligations.DeltaAndDistanceFormulas : Prop :=
  ∀ (b : PlannerBlock) (p : Params), p.rateNumerics = .exact →
    rateOutput .rateDelta b p =
      ⌈b.acceleration * (p.fixedPointScale / (3600 * p.ticksPerSecond * p.accelTicksPerSecond))⌉ ∧
    rateOutput .nextStepDistance b p = ⌈b.millimeters * p.fixedPointScale / b.stepEventCount⌉ ∧
    distancePerStep b p = b.millimeters / b.stepEventCount

/-- 41 R409: another arithmetic agrees with the exact result to within one unit after `ceil`. -/
def Obligations.InexactNumericsWithinOneUnit : Prop :=
  ∀ (f : RateField) (b : PlannerBlock) (p : Params), p.rateNumerics = .inexact →
    rateOutput f b p - exactOutput f b p ≤ 1 ∧ exactOutput f b p - rateOutput f b p ≤ 1

/-! ## The whole machine -/

/-- 60 R700: under a recorded fault nothing but INIT changes the block. That exec of an instruction that is not enabled answers
the unchanged state, and that a step takes its word off the inputs, is the model's own choice (log 9, log 8): at most an input
is taken, the planner's store or INIT's operand replaced. -/
def Obligations.FaultsAreSticky : Prop :=
  (∀ (i : Instr) (s : State), s.fault ≠ none → i ≠ .init → exec i s = .next s) ∧
  (∀ s t : State, s.fault ≠ none → (∀ rest, s.inputs ≠ .word 0x01#8 :: rest) → step s = .next t →
    t = { s with inputs := t.inputs, planner := t.planner, supplied := t.supplied })

/-- 60 R727, 44 R612: a step that is not enabled leaves the state as it is (that the model answers a next state there is its
own choice, log 9): a background step while a body is pending, a TICK_BEGIN without the tick source or, with `PULSE_FITS`,
with the one-shot armed, a TICK_BODY or a segment with no body pending, a segment that no load takes, a PULSE_RESET with
the one-shot not armed. -/
def Obligations.NotEnabledLeavesTheState : Prop :=
  ∀ s : State,
    (s.fault = none → s.busy = true → ∀ i ∈ [Instr.init, .reset, .wakeUp, .goIdle, .cycleStart, .feedHold,
      .cycleReinitialize, .prepareSegments, .queue, .clearCycleStop, .prepStep], exec i s = .next s) ∧
    (s.tickEnabled = false ∨ (s.cfg.pulseFits = true ∧ s.pulseArmed = true) → exec .tickBegin s = .next s) ∧
    (s.busy = false → exec .tickBody s = .next s) ∧
    (s.busy = false ∨ s.loadState = .loadNone ∨ s.runState = .hold ∨ s.tail = s.head →
      ∀ x : Descriptor, exec x.instr s = .next s) ∧
    (s.pulseArmed = false → exec .pulseReset s = .next s)

/-- 10 R128: `position` is changed only by a tick body (as TICK_BODY or as the segment it loads) and by INIT. -/
def Obligations.PositionMovesOnlyInTicks : Prop :=
  ∀ (i : Instr) (s t : State), exec i s = .next t → t.position ≠ s.position →
    i = .tickBody ∨ i = .init ∨ ∃ x : Descriptor, i = x.instr

/-- 10 R137, R132, R139: the tick source is started only by WAKE_UP or CYCLE_START and only into RUNNING; the configuration is
written only by INIT; `cycle_stop` is set only by a tick body and cleared only by CLEAR_CYCLE_STOP or INIT. -/
def Obligations.SingleWritersOfTheDeviceState : Prop :=
  ∀ (i : Instr) (s t : State), exec i s = .next t →
    (s.tickEnabled = false → t.tickEnabled = true → (i = .wakeUp ∨ i = .cycleStart) ∧ t.runState = .running) ∧
    ((t.cfg ≠ s.cfg ∨ t.accelPeriod ≠ s.accelPeriod) → i = .init) ∧
    (s.cycleStop = false → t.cycleStop = true → i = .tickBody) ∧
    (s.cycleStop = true → t.cycleStop = false → i = .clearCycleStop ∨ i = .init)

/-- 60 R725, 20 R205: the TICK and PULSE agents write no producer register, no ring slot, no run-state and no
configuration; the preparer writes the rings and its own registers and nothing of the engine. -/
def Obligations.AgentsWriteOnlyTheirOwn : Prop :=
  (∀ (i : Instr) (s t : State),
    (i = .tickBegin ∨ i = .tickBody ∨ i = .pulseReset ∨ ∃ x : Descriptor, i = x.instr) → exec i s = .next t →
    t.mem = s.mem ∧ t.head = s.head ∧ t.nextHead = s.nextHead ∧ t.prepBlock = s.prepBlock ∧ t.prepIndex = s.prepIndex ∧
    t.dataPrepIndex = s.dataPrepIndex ∧ t.runState = s.runState ∧ t.cfg = s.cfg ∧ t.accelPeriod = s.accelPeriod ∧
    t.deltaD = s.deltaD ∧ t.preparing = s.preparing ∧ t.prepReturn = s.prepReturn ∧ t.supplied = s.supplied ∧
    t.inputs = s.inputs) ∧
  (∀ (i : Instr) (s t : State), (i = .prepStep ∨ i = .prepareSegments) → exec i s = .next t →
    t = { s with
      mem := t.mem, head := t.head, nextHead := t.nextHead, prepBlock := t.prepBlock, prepIndex := t.prepIndex
      dataPrepIndex := t.dataPrepIndex, fault := t.fault, preparing := t.preparing, prepReturn := t.prepReturn })

/-- 10 R100: every step keeps every register in its range, the ring indices below `N`, `next_head` the successor of `head`,
and the configuration legal. -/
def Obligations.StepKeepsRanges : Prop :=
  ∀ s t : State, InRange s → step s = .next t → InRange t

/-- 70 R800, 10 R160: the reset state is in range (with the configuration of log 1). -/
def Obligations.ResetIsInRange : Prop := InRange State.reset

/-- Every step keeps the rings' canonical form (the model's own representation, log 3). -/
def Obligations.StepKeepsMemoryCanonical : Prop :=
  ∀ s t : State, s.mem.wf → step s = .next t → t.mem.wf

/-- The reset state's rings are in canonical form (log 3). -/
def Obligations.ResetMemoryIsCanonical : Prop := State.reset.mem.wf

/-- 10 R102, R110, R111, R112, R137: every step keeps the run-state, the tick source, the busy flag and the load state
consistent. -/
def Obligations.StepKeepsControlConsistent : Prop :=
  ∀ s t : State, ControlConsistent s → step s = .next t → ControlConsistent t

/-- The reset state meets `ControlConsistent` (70 R801). -/
def Obligations.ResetIsControlConsistent : Prop := ControlConsistent State.reset

/-! ## The rate converter's operands (41_rate_converter.md) -/

/-- 41 R400: the converter reads of a block only the speeds squared, the acceleration, the length and the step events, under
either numerics: two blocks that agree on these five fields have the same five outputs. -/
def Obligations.RateConverterReadsFiveFields : Prop :=
  ∀ (b b' : PlannerBlock) (p : Params), b.entrySpeedSq = b'.entrySpeedSq → b.nominalSpeedSq = b'.nominalSpeedSq →
    b.acceleration = b'.acceleration → b.millimeters = b'.millimeters → b.stepEventCount = b'.stepEventCount →
    (∀ f, rateOutput f b p = rateOutput f b' p) ∧ distancePerStep b p = distancePerStep b' p
end

