-- ==== Sys2Proof/Laws/Flow.lean ====
section
/-! SUPPORT. What the parts of a step do when they are put together: one lemma per outcome of `andThen`, `finish`, `put`
and `needSlot`, and one rule that carries a property of states through a step's parts. -/

namespace Sys2Proof.Machine

@[simp] theorem andThen_go (s : State) (k : State → Flow) : andThen (.go s) k = k s := rfl
@[simp] theorem andThen_done (s : State) (k : State → Flow) : andThen (.done s) k = .done s := rfl
@[simp] theorem andThen_stop (r : Fault) (k : State → Flow) : andThen (.stop r) k = .stop r := rfl
@[simp] theorem finish_go (s : State) : finish (.go s) = .next s := rfl
@[simp] theorem finish_done (s : State) : finish (.done s) = .next s := rfl
@[simp] theorem finish_stop (r : Fault) : finish (.stop r) = .fault r := rfl

theorem andThen_assoc (f : Flow) (k l : State → Flow) :
    andThen (andThen f k) l = andThen f fun s => andThen (k s) l := by
  cases f <;> rfl

/-- A step's parts go on to the end exactly when each of them goes on. -/
theorem andThen_eq_go {f : Flow} {k : State → Flow} {t : State} :
    andThen f k = .go t ↔ ∃ s, f = .go s ∧ k s = .go t := by
  cases f <;> simp

theorem finish_eq_next {f : Flow} {t : State} : finish f = .next t ↔ f = .go t ∨ f = .done t := by
  cases f <;> simp

/-- A checked write goes on exactly when the value is in range. -/
theorem put_eq_go {r : Reg} {c : Bool} {w s t : State} : put r c w s = .go t ↔ c = true ∧ w = t := by
  cases c <;> simp [put, raise]

theorem put_of_inRange {r : Reg} {c : Bool} {w s : State} (h : c = true) : put r c w s = .go w := by
  simp [put, h]

theorem put_of_outOfRange {r : Reg} {c : Bool} {w s : State} (h : c = false) :
    put r c w s = .done (raiseFault (.range r) s) := by
  simp [put, raise, h]

theorem needSlot_eq_go {i : Nat} {s t : State} : needSlot i s = .go t ↔ i < s.cfg.n ∧ s = t := by
  unfold needSlot; split <;> simp_all

theorem needSlot_of_lt {i : Nat} {s : State} (h : i < s.cfg.n) : needSlot i s = .go s := by
  simp [needSlot, h]

/-- Where a part of a step goes on, its state has the property `P`; where it ends the step, its state has `Q`. -/
def Ends (P Q : State → Prop) : Flow → Prop
  | .go s => P s
  | .done s => Q s
  | .stop _ => True

variable {P P' Q Q' : State → Prop}

@[simp] theorem ends_go {s : State} : Ends P Q (.go s) ↔ P s := Iff.rfl
@[simp] theorem ends_done {s : State} : Ends P Q (.done s) ↔ Q s := Iff.rfl
@[simp] theorem ends_stop {r : Fault} : Ends P Q (.stop r) ↔ True := Iff.rfl
@[simp] theorem ends_raise {r : FaultRecord} {s : State} : Ends P Q (raise r s) ↔ Q (raiseFault r s) := Iff.rfl

/-- The parts of a step, one after the other. -/
theorem ends_andThen {f : Flow} {k : State → Flow} (hf : Ends P' Q f) (hk : ∀ s, P' s → Ends P Q (k s)) :
    Ends P Q (andThen f k) := by
  cases f with
  | go s => exact hk s hf
  | done s => exact hf
  | stop r => exact trivial

theorem ends_mono {f : Flow} (h : Ends P Q f) (hP : ∀ s, P s → P' s) (hQ : ∀ s, Q s → Q' s) : Ends P' Q' f := by
  cases f with
  | go s => exact hP s h
  | done s => exact hQ s h
  | stop r => exact trivial

theorem ends_and {f : Flow} (h : Ends P Q f) (h' : Ends P' Q' f) :
    Ends (fun s => P s ∧ P' s) (fun s => Q s ∧ Q' s) f := by
  cases f with
  | go s => exact ⟨h, h'⟩
  | done s => exact ⟨h, h'⟩
  | stop r => exact trivial

/-- A checked write writes a value in range, or raises RANGE and writes nothing. -/
theorem ends_put {r : Reg} {c : Bool} {w s : State} (hin : c = true → P w)
    (hout : c = false → Q (raiseFault (.range r) s)) : Ends P Q (put r c w s) := by
  cases c with
  | true => exact hin rfl
  | false => exact hout rfl

theorem ends_needSlot {i : Nat} {s : State} (h : i < s.cfg.n → P s) : Ends P Q (needSlot i s) := by
  unfold needSlot
  split
  · exact h ‹_›
  · trivial

theorem ends_ite {c : Prop} [Decidable c] {f g : Flow} (hf : c → Ends P Q f) (hg : ¬ c → Ends P Q g) :
    Ends P Q (if c then f else g) := by
  split
  · exact hf ‹_›
  · exact hg ‹_›

theorem ends_of_go {f : Flow} {t : State} (hf : Ends P Q f) (h : f = .go t) : P t := by subst h; exact hf

theorem ends_of_done {f : Flow} {t : State} (hf : Ends P Q f) (h : f = .done t) : Q t := by subst h; exact hf

/-- A property of every end of the last part is a property of the next state. -/
theorem ends_of_finish {f : Flow} {t : State} (h : finish f = .next t) (hf : Ends P P f) : P t := by
  rcases finish_eq_next.1 h with h | h <;> subst h <;> exact hf

end Sys2Proof.Machine
end

