-- ==== Sys2Proof/Laws/Tick.lean ====
section
/-! SUPPORT. The tick body: what each part gives where its checks pass, what no part writes, and where a part that ends
the step leaves a fault. -/

namespace Sys2Proof.Machine

/-! ## Ranges -/

theorem inInt32_iff {v : Int} : inInt32 v = true ↔ -2147483648 ≤ v ∧ v ≤ 2147483647 := by simp [inInt32]
theorem inUint32_iff {v : Int} : inUint32 v = true ↔ 0 ≤ v ∧ v ≤ 4294967295 := by simp [inUint32]
theorem inUint16_iff {v : Int} : inUint16 v = true ↔ 0 ≤ v ∧ v ≤ 65535 := by simp [inUint16]
theorem inUint8_iff {v : Int} : inUint8 v = true ↔ 0 ≤ v ∧ v ≤ 255 := by simp [inUint8]

@[simp] theorem atAxis_setAxis {α : Type} (v : PerAxis α) (a b : Axis) (e : α) :
    atAxis (setAxis v a e) b = if b = a then e else atAxis v b := by
  cases a <;> cases b <;> rfl

/-! ## Checked writes -/

theorem writeCounter_of {a : Axis} {v : Int} {s : State} (h : inInt32 v = true) :
    writeCounter a v s = .go { s with counter := setAxis s.counter a v } := put_of_inRange h
theorem writePosition_of {a : Axis} {v : Int} {s : State} (h : inInt32 v = true) :
    writePosition a v s = .go { s with position := setAxis s.position a v } := put_of_inRange h
theorem writeCounterD_of {v : Int} {s : State} (h : inInt32 v = true) :
    writeCounterD v s = .go { s with counterD := v } := put_of_inRange h
theorem writeRate_of {v : Nat} {s : State} (h : v ≤ 4294967295) : writeRate v s = .go { s with rate := v } :=
  put_of_inRange (inUint32_iff.2 (by omega))
theorem writeRampCount_of {v : Nat} {s : State} (h : v ≤ 65535) :
    writeRampCount v s = .go { s with rampCount := v } := put_of_inRange (inUint16_iff.2 (by omega))
theorem writeSegmentSteps_of {v : Nat} {s : State} (h : v ≤ 255) :
    writeSegmentSteps v s = .go { s with segmentSteps := v } := put_of_inRange (inUint8_iff.2 (by omega))

/-! ## The ramp update -/

/-- Where no write is out of range, the ramp update gives `ramped` (43 R509 to R512). -/
theorem rampUpdate_eq_ramped {d : SegmentData} {s : State} (hc : s.rampCount ≤ 65535) (hp : s.accelPeriod ≤ 65535)
    (hr : s.rate ≤ 4294967295) (hm : s.cfg.minRate ≤ 4294967295) (hn : d.nominalRate ≤ 4294967295)
    (ha : s.rampState = .accel → s.rampCount ≤ 1 → s.rate + d.rateDelta ≤ 4294967295) :
    rampUpdate d s = .go (ramped d s) := by
  have hmax : ∀ x, x ≤ 4294967295 → max x s.cfg.minRate ≤ 4294967295 := fun x hx => Nat.max_le.2 ⟨hx, hm⟩
  unfold rampUpdate ramped
  split
  · rfl
  · rename_i hcr
    rw [writeRampCount_of (by omega), andThen_go]
    by_cases h2 : 2 ≤ s.rampCount
    · have : s.rampCount - 1 ≠ 0 := by omega
      simp only [this, h2, if_true, if_false]
    · have h1 : s.rampCount - 1 = 0 := by omega
      simp only [h1, h2, if_true, if_false]
      rw [writeRampCount_of hp, andThen_go]
      unfold accelTick
      cases hs : s.rampState with
      | cruise => exact absurd hs hcr
      | accel =>
        have hsum := ha hs (by omega)
        simp only [if_true, accelerate]
        rw [writeRate_of hsum, andThen_go]
        split
        · rw [writeRate_of hn, andThen_go, andThen_go, floorRate, writeRate_of (hmax _ hn)]
        · rw [andThen_go, floorRate, writeRate_of (hmax _ hsum)]
      | decel =>
        have e : (RampState.decel = RampState.accel) = False := by simp
        simp only [e, if_false, decelerate]
        split
        · rw [writeRate_of (by omega), andThen_go, floorRate, writeRate_of (hmax (s.rate - d.rateDelta) (by omega))]
        · rw [writeRate_of (by omega), andThen_go, floorRate, writeRate_of (hmax (s.rate / 2) (by omega))]

/-! ## The step event -/

/-- One axis of a step event, from an accumulator in `[0, step_event_count - 1]` (43 R515, R516). -/
theorem stepAxis_eq {b : PlannerBlock} {a : Axis} {s : State} (hE : (b.stepEventCount : Int) ≤ 2147483647)
    (hs : atAxis b.steps a ≤ b.stepEventCount) (h0 : 0 ≤ atAxis s.counter a)
    (h1 : atAxis s.counter a < b.stepEventCount)
    (hp : -2147483647 ≤ atAxis s.position a ∧ atAxis s.position a ≤ 2147483646) :
    stepAxis b a s = .go { s with
      counter := setAxis s.counter a (counterAfter b a (atAxis s.counter a))
      position := setAxis s.position a (positionAfter b a (atAxis s.counter a) (atAxis s.position a)) } := by
  have hs' : ((atAxis b.steps a : Nat) : Int) ≤ b.stepEventCount := by exact_mod_cast hs
  have hc : inInt32 (atAxis s.counter a - atAxis b.steps a) = true := inInt32_iff.2 (by omega)
  have setset : ∀ (v : PerAxis Int) (x y : Int), setAxis (setAxis v a x) a y = setAxis v a y := by
    intro v x y; cases a <;> rfl
  have setself : ∀ v : PerAxis Int, setAxis v a (atAxis v a) = v := by intro v; cases a <;> rfl
  unfold stepAxis
  rw [writeCounter_of hc, andThen_go]
  simp only [atAxis_setAxis, if_true]
  split
  · rename_i hneg
    have hc2 : inInt32 (atAxis s.counter a - atAxis b.steps a + b.stepEventCount) = true := inInt32_iff.2 (by omega)
    have hp2 : inInt32 (stepped b a (atAxis s.position a)) = true := by
      unfold stepped
      rw [inInt32_iff]
      split <;> omega
    rw [writeCounter_of hc2, andThen_go, writePosition_of hp2]
    simp only [setset, counterAfter, positionAfter, hneg, if_true]
  · rename_i hneg
    simp only [counterAfter, positionAfter, hneg, if_false, setself]

/-- The step count of a step event, with a step event left (43 R517). -/
theorem countStep_eq {s : State} (h1 : 1 ≤ s.segmentSteps) (h2 : s.segmentSteps ≤ 255) :
    countStep s = .go (if s.segmentSteps = 1 then finishSegment { s with segmentSteps := 0 }
      else { s with segmentSteps := s.segmentSteps - 1 }) := by
  unfold countStep
  have e : (s.segmentSteps : Int) - 1 = ((s.segmentSteps - 1 : Nat) : Int) := by omega
  rw [e, writeSegmentSteps_of (by omega), andThen_go]
  by_cases h : s.segmentSteps = 1
  · simp [h]
  · have : s.segmentSteps - 1 ≠ 0 := by omega
    simp only [this, h, if_false]

/-! ## The segment load -/

/-- What a block load gives where the planner's block passes its check and no write is out of range (43 R507). -/
theorem loadBlock_eq {b : PlannerBlock} {s : State} (hc : currentBlock s = some b) (hb : badBlock b = false)
    (hd : (dataRead s s.curData).nextStepDistance ≤ 2147483647)
    (hr : max (dataRead s s.curData).initialRate s.cfg.minRate ≤ 4294967295) (hp : s.accelPeriod ≤ 65535) :
    loadBlock s = .go { seedBlock b s with
      counterD := (dataRead s s.curData).nextStepDistance
      rate := max (dataRead s s.curData).initialRate s.cfg.minRate
      rampState := .accel
      rampCount := s.accelPeriod / 2 } := by
  unfold loadBlock
  simp only [hc, hb, Bool.false_eq_true, if_false]
  rw [writeCounterD_of (inInt32_iff.2 (by omega)), andThen_go]
  rw [writeRate_of, andThen_go]
  rotate_left
  · exact hr
  rw [writeRampCount_of]
  · rfl
  · show s.accelPeriod / 2 ≤ 65535
    omega

/-- Forced deceleration where the countdown is at most the period (43 R508). -/
theorem forceDecel_eq {s : State} (hp : s.accelPeriod ≤ 65535) (hc : s.rampCount ≤ s.accelPeriod) :
    forceDecel s = .go { s with
      rampState := .decel
      rampCount := match s.rampState with
        | .cruise => s.accelPeriod / 2
        | .accel => s.accelPeriod - s.rampCount
        | .decel => s.rampCount } := by
  unfold forceDecel
  cases s.rampState with
  | cruise =>
    dsimp only
    rw [writeRampCount_of (by omega), andThen_go]
  | accel =>
    dsimp only
    rw [show (s.accelPeriod : Int) - s.rampCount = ((s.accelPeriod - s.rampCount : Nat) : Int) by omega,
      writeRampCount_of (by omega), andThen_go]
  | decel => rfl

/-- The load of a well-formed segment of the block that is loaded (43 R506, R508). -/
theorem loadSegment_eq_of_continued {d : Descriptor} {s : State} (hi : d.index.toNat < s.cfg.n) (hc : d.count ≠ 0)
    (hl : s.loadState ≠ .loadBlock) (hp : s.accelPeriod ≤ 65535) (hr : s.rampCount ≤ s.accelPeriod) :
    loadSegment d s = .go (continued d s) := by
  have h1 : ¬ s.cfg.n ≤ d.index.toNat := by omega
  unfold loadSegment
  simp only [h1, hc, hl, if_false, andThen_go]
  cases hf : d.flag.forcesDecel with
  | false => simp [continued, hf, latch]
  | true =>
    simp only [if_true]
    rw [forceDecel_eq (s := latch d s) hp hr, andThen_go]
    cases hs : s.rampState <;> simp [continued, hf, latch, hs]

/-- The load of a well-formed segment that starts the planner's current block (43 R506 to R508). -/
theorem loadSegment_eq_of_started {b : PlannerBlock} {d : Descriptor} {s : State} (hi : d.index.toNat < s.cfg.n)
    (hc : d.count ≠ 0) (hl : s.loadState = .loadBlock) (hcb : currentBlock s = some b) (hb : badBlock b = false)
    (hd : (dataRead s d.index.toNat).nextStepDistance ≤ 2147483647)
    (hr : max (dataRead s d.index.toNat).initialRate s.cfg.minRate ≤ 4294967295) (hp : s.accelPeriod ≤ 65535) :
    loadSegment d s = .go (started b d s) := by
  have h1 : ¬ s.cfg.n ≤ d.index.toNat := by omega
  unfold loadSegment
  simp only [h1, hc, hl, if_true, if_false]
  rw [loadBlock_eq (s := latch d s) hcb hb hd hr hp, andThen_go]
  cases hf : d.flag.forcesDecel with
  | false => simp [started, hf, seedBlock, latch, dataRead]
  | true =>
    simp only [if_true]
    rw [forceDecel_eq, andThen_go]
    · simp [started, hf, seedBlock, latch, dataRead]
    · exact hp
    · show s.accelPeriod / 2 ≤ s.accelPeriod
      omega

/-! ## The step event of a valid block -/

/-- What a block's check says (60 R707). -/
theorem badBlock_eq_false {b : PlannerBlock} : badBlock b = false ↔
    (1 ≤ b.stepEventCount ∧ b.stepEventCount ≤ 2147483647) ∧
    (∀ a, atAxis b.steps a ≤ b.stepEventCount) ∧ b.directionBits &&& ~~~dirMask = 0 := by
  have : (∀ a, atAxis b.steps a ≤ b.stepEventCount) ↔
      b.steps.x ≤ b.stepEventCount ∧ b.steps.y ≤ b.stepEventCount ∧ b.steps.z ≤ b.stepEventCount :=
    ⟨fun h => ⟨h .x, h .y, h .z⟩, fun h a => by cases a <;> simp [atAxis, h.1, h.2.1, h.2.2]⟩
  rw [this]
  simp only [badBlock, Bool.or_eq_false_iff, decide_eq_false_iff_not, ne_eq, not_not, Nat.not_lt]
  constructor
  · rintro ⟨⟨⟨⟨⟨h0, h1⟩, h2⟩, h3⟩, h4⟩, h5⟩
    exact ⟨⟨by omega, h1⟩, ⟨h2, h3, h4⟩, h5⟩
  · rintro ⟨⟨h0, h1⟩, ⟨h2, h3, h4⟩, h5⟩
    exact ⟨⟨⟨⟨⟨by omega, h1⟩, h2⟩, h3⟩, h4⟩, h5⟩

/-- A step event of a valid block, where no write is out of range, gives `evented` (43 R514 to R518). -/
theorem stepEventWith_eq_evented {b : PlannerBlock} {d : SegmentData} {s : State} (hb : badBlock b = false)
    (hd : inInt32 (s.counterD + d.nextStepDistance) = true)
    (hc : ∀ a, 0 ≤ atAxis s.counter a ∧ atAxis s.counter a < b.stepEventCount)
    (hp : ∀ a, -2147483647 ≤ atAxis s.position a ∧ atAxis s.position a ≤ 2147483646)
    (h1 : 1 ≤ s.segmentSteps) (h2 : s.segmentSteps ≤ 255) :
    stepEventWith b d s = .go (evented b d s) := by
  obtain ⟨⟨_, hE⟩, hs, _⟩ := badBlock_eq_false.1 hb
  have hE' : (b.stepEventCount : Int) ≤ 2147483647 := by omega
  unfold stepEventWith
  rw [writeCounterD_of hd, andThen_go]
  rw [stepAxis_eq (a := .x) hE' (hs .x) ?_ ?_ ?_, andThen_go]
  rotate_left
  · exact (hc .x).1
  · exact (hc .x).2
  · exact hp .x
  dsimp only [setAxis, atAxis]
  rw [stepAxis_eq (a := .y) hE' (hs .y) ?_ ?_ ?_, andThen_go]
  rotate_left
  · exact (hc .y).1
  · exact (hc .y).2
  · exact hp .y
  dsimp only [setAxis, atAxis]
  rw [stepAxis_eq (a := .z) hE' (hs .z) ?_ ?_ ?_, andThen_go]
  rotate_left
  · exact (hc .z).1
  · exact (hc .z).2
  · exact hp .z
  dsimp only [setAxis, atAxis]
  rw [countStep_eq ?_ ?_, andThen_go]
  rotate_left
  · exact h1
  · exact h2
  dsimp only
  unfold evented
  by_cases hl : s.segmentSteps = 1
  · cases he : s.curFlag.eob <;> simp [hl, he, finishSegment, stageWord, discardCurrentBlock, ringNext, atAxis,
      stepWord, axisSteps]
  · simp [hl, stageWord, atAxis, stepWord, axisSteps]

end Sys2Proof.Machine
end

