-- ==== Sys2Proof/Laws/Body.lean ====
section
/-! SUPPORT. What the parts of a tick body can do, said once: a property of states that the named writes of a part keep
holds wherever the part goes on, and a second property that raising a fault gives holds wherever it ends the step. -/

namespace Sys2Proof.Machine

variable {P Q : State → Prop}

/-- The writes of the ramp update (43 R509 to R512). -/
structure KeptByRamp (P Q : State → Prop) : Prop where
  rate : ∀ s (v : Nat), P s → v ≤ 4294967295 → P { s with rate := v }
  rampCount : ∀ s (v : Nat), P s → v ≤ 65535 → P { s with rampCount := v }
  rampState : ∀ s v, P s → P { s with rampState := v }
  fault : ∀ s r, P s → Q (raiseFault r s)

/-- The writes of the inverse-time tick and the step event (43 R513 to R518). -/
structure KeptByEvent (P Q : State → Prop) : Prop where
  counter : ∀ s a v, P s → inInt32 v = true → P { s with counter := setAxis s.counter a v }
  position : ∀ s a v, P s → inInt32 v = true → P { s with position := setAxis s.position a v }
  counterD : ∀ s v, P s → inInt32 v = true → P { s with counterD := v }
  segmentSteps : ∀ s (v : Nat), P s → v ≤ 255 → P { s with segmentSteps := v }
  finishSegment : ∀ s, P s → P (finishSegment s)
  stageWord : ∀ s ob, P s → P (stageWord ob s)
  freeCount : ∀ s, P s → P { s with freeCount := s.freeCount + 1 }
  fault : ∀ s r, P s → Q (raiseFault r s)

/-- The writes of a segment load (43 R506 to R508). -/
structure KeptByLoad (P Q : State → Prop) : Prop extends KeptByRamp P Q where
  counterD : ∀ s v, P s → inInt32 v = true → P { s with counterD := v }
  latch : ∀ s (d : Descriptor), P s → d.index.toNat < s.cfg.n → d.count ≠ 0 → P (latch d s)
  seedBlock : ∀ s b, P s → currentBlock s = some b → badBlock b = false → P (seedBlock b s)
  loaded : ∀ s, P s → P { s with loadState := .loadNone }

theorem KeptByRamp.writeRate (k : KeptByRamp P Q) {s : State} (h : P s) (v : Nat) : Ends P Q (writeRate v s) :=
  ends_put (fun hv => k.rate s v h (by have := inUint32_iff.1 hv; omega)) fun _ => k.fault s _ h

theorem KeptByRamp.writeRampCount (k : KeptByRamp P Q) {s : State} (h : P s) (v : Int) :
    Ends P Q (writeRampCount v s) :=
  ends_put (fun hv => k.rampCount s v.toNat h (by have := inUint16_iff.1 hv; omega)) fun _ => k.fault s _ h

theorem KeptByRamp.accelTick (k : KeptByRamp P Q) {s : State} (h : P s) (d : SegmentData) :
    Ends P Q (accelTick d s) := by
  refine ends_andThen (P' := P) ?_ fun s1 h1 => k.writeRate h1 _
  refine ends_ite (fun _ => ?_) fun _ => ends_ite (fun _ => k.writeRate h _) fun _ => k.writeRate h _
  exact ends_andThen (k.writeRate h _) fun s1 h1 => ends_ite
    (fun _ => ends_andThen (k.writeRate h1 _) fun s2 h2 => k.rampState s2 _ h2) fun _ => h1

theorem KeptByRamp.rampUpdate (k : KeptByRamp P Q) {s : State} (h : P s) (d : SegmentData) :
    Ends P Q (rampUpdate d s) :=
  ends_ite (fun _ => h) fun _ => ends_andThen (k.writeRampCount h _) fun _ h1 => ends_ite
    (fun _ => ends_andThen (k.writeRampCount h1 _) fun _ h2 => k.accelTick h2 d) fun _ => h1

theorem KeptByEvent.writeCounterD (k : KeptByEvent P Q) {s : State} (h : P s) (v : Int) :
    Ends P Q (writeCounterD v s) := ends_put (k.counterD s v h) fun _ => k.fault s _ h

theorem KeptByEvent.stepAxis (k : KeptByEvent P Q) {s : State} (h : P s) (b : PlannerBlock) (a : Axis) :
    Ends P Q (stepAxis b a s) := by
  refine ends_andThen (P' := P) (ends_put (k.counter s a _ h) fun _ => k.fault s _ h) fun s1 h1 => ?_
  refine ends_ite (fun _ => ?_) fun _ => h1
  exact ends_andThen (P' := P) (ends_put (k.counter s1 a _ h1) fun _ => k.fault s1 _ h1) fun s2 h2 =>
    ends_put (k.position s2 a _ h2) fun _ => k.fault s2 _ h2

theorem KeptByEvent.countStep (k : KeptByEvent P Q) {s : State} (h : P s) : Ends P Q (countStep s) :=
  ends_andThen (P' := P) (ends_put (fun hv => k.segmentSteps s _ h (by have := inUint8_iff.1 hv; omega))
    fun _ => k.fault s _ h) fun s1 h1 => ends_ite (fun _ => k.finishSegment s1 h1) fun _ => h1

theorem KeptByEvent.stepEventWith (k : KeptByEvent P Q) {s : State} (h : P s) (b : PlannerBlock) (d : SegmentData) :
    Ends P Q (stepEventWith b d s) :=
  ends_andThen (k.writeCounterD h _) fun _ h1 => ends_andThen (k.stepAxis h1 b .x) fun _ h2 =>
    ends_andThen (k.stepAxis h2 b .y) fun _ h3 => ends_andThen (k.stepAxis h3 b .z) fun _ h4 =>
    ends_andThen (k.countStep h4) fun s5 h5 => k.stageWord s5 _ h5

theorem KeptByEvent.stepEvent (k : KeptByEvent P Q) {s : State} (h : P s) (d : SegmentData) :
    Ends P Q (stepEvent d s) := by
  refine k.stepEventWith ?_ _ d
  unfold countFreeBlock
  split
  · exact h
  · exact k.freeCount s h

theorem KeptByEvent.inverseTime (k : KeptByEvent P Q) {s : State} (h : P s) (d : SegmentData) :
    Ends P Q (inverseTime d s) :=
  ends_andThen (k.writeCounterD h _) fun _ h1 => ends_ite (fun _ => k.stepEvent h1 d) fun _ => h1

/-- A tick body on a loaded segment. -/
theorem ends_engineTick (kr : KeptByRamp P Q) (ke : KeptByEvent P Q)
    (busy : ∀ s, P s → P { s with busy := false }) {s : State} (h : P s) : Ends P Q (engineTick s) :=
  ends_andThen (P' := P) (ends_needSlot fun _ => h) fun _ h0 => ends_andThen (kr.rampUpdate h0 _) fun _ h1 =>
    ends_andThen (ke.inverseTime h1 _) fun s2 h2 => busy s2 h2

theorem KeptByLoad.loadBlock (k : KeptByLoad P Q) {s : State} (h : P s) : Ends P Q (loadBlock s) := by
  unfold Machine.loadBlock
  split
  · exact k.fault s _ h
  · rename_i b hb
    refine ends_ite (fun _ => k.fault s _ h) fun hbad => ?_
    have h0 := k.seedBlock s b h hb (by simpa using hbad)
    exact ends_andThen (P' := P) (ends_put (k.counterD _ _ h0) fun _ => k.fault _ _ h0) fun _ h1 =>
      ends_andThen (k.writeRate h1 _) fun _ h2 => k.writeRampCount (k.rampState _ _ h2) _

theorem KeptByLoad.forceDecel (k : KeptByLoad P Q) {s : State} (h : P s) : Ends P Q (forceDecel s) := by
  refine ends_andThen (P' := P) ?_ fun s1 h1 => k.rampState s1 _ h1
  split
  · exact k.writeRampCount h _
  · exact k.writeRampCount h _
  · exact h

theorem KeptByLoad.loadSegment (k : KeptByLoad P Q) {s : State} (h : P s) (d : Descriptor) :
    Ends P Q (loadSegment d s) := by
  refine ends_ite (fun _ => k.fault s _ h) fun hn => ends_ite (fun _ => k.fault s _ h) fun hc => ?_
  have hl := k.latch s d h (by omega) hc
  exact ends_andThen (P' := P) (ends_ite (fun _ => k.loadBlock hl) fun _ => hl) fun s1 h1 =>
    ends_andThen (P' := P) (ends_ite (fun _ => k.forceDecel h1) fun _ => h1) fun s2 h2 => k.loaded s2 h2

/-- A tick body that loads a segment. -/
theorem ends_segmentBody (kl : KeptByLoad P Q) (ke : KeptByEvent P Q)
    (busy : ∀ s, P s → P { s with busy := false }) {s : State} (h : P s) (d : Descriptor) :
    Ends P Q (segmentBody d s) :=
  ends_andThen (kl.loadSegment h d) fun _ h1 => ends_engineTick kl.toKeptByRamp ke busy h1

/-- Every tick body: the idle paths end the step as well (43 R504, R505). -/
theorem ends_tickBody (kl : KeptByLoad P Q) (ke : KeptByEvent P Q)
    (busy : ∀ s, P s → P { s with busy := false }) (hold : ∀ s, P s → Q (idled s))
    (empty : ∀ s, P s → Q { idled s with cycleStop := true }) {s : State} (h : P s) : Ends P Q (tickBody s) := by
  refine ends_ite (fun _ => ends_engineTick kl.toKeptByRamp ke busy h) fun _ => ends_ite (fun _ => hold s h) fun _ =>
    ends_ite (fun _ => empty s h) fun _ => ends_andThen (P' := P) (ends_needSlot fun _ => h) fun s1 h1 => ?_
  split
  · exact kl.fault s1 _ h1
  · exact ends_segmentBody kl ke busy h1 _

/-! ## Where a body does not go on -/

/-- A part of a body on a loaded segment that ends the step has raised a fault. -/
theorem engineTick_done_fault (s : State) : Ends (fun _ => True) (fun t => t.fault ≠ none) (engineTick s) := by
  refine ends_engineTick ⟨?_, ?_, ?_, ?_⟩ ⟨?_, ?_, ?_, ?_, ?_, ?_, ?_, ?_⟩ ?_ trivial <;> simp [raiseFault]

/-! ## What the bodies leave -/

/-- The fields no tick body writes (43 R500 to R518): the producer's, the rings, the run-state, the configuration, the
lines, the one-shot, the overrun count, the environment's and PREP_STEP's. -/
structure BodyFrame (s t : State) : Prop where
  deltaD : t.deltaD = s.deltaD
  head : t.head = s.head
  nextHead : t.nextHead = s.nextHead
  prepBlock : t.prepBlock = s.prepBlock
  prepIndex : t.prepIndex = s.prepIndex
  dataPrepIndex : t.dataPrepIndex = s.dataPrepIndex
  mem : t.mem = s.mem
  runState : t.runState = s.runState
  cfg : t.cfg = s.cfg
  accelPeriod : t.accelPeriod = s.accelPeriod
  pins : t.pins = s.pins
  pulseArmed : t.pulseArmed = s.pulseArmed
  overrunCount : t.overrunCount = s.overrunCount
  supplied : t.supplied = s.supplied
  inputs : t.inputs = s.inputs
  preparing : t.preparing = s.preparing
  prepReturn : t.prepReturn = s.prepReturn

theorem BodyFrame.refl (s : State) : BodyFrame s s := by constructor <;> rfl

theorem BodyFrame.trans {s t u : State} (h : BodyFrame s t) (h' : BodyFrame t u) : BodyFrame s u := by
  constructor
  · exact h'.deltaD.trans h.deltaD
  · exact h'.head.trans h.head
  · exact h'.nextHead.trans h.nextHead
  · exact h'.prepBlock.trans h.prepBlock
  · exact h'.prepIndex.trans h.prepIndex
  · exact h'.dataPrepIndex.trans h.dataPrepIndex
  · exact h'.mem.trans h.mem
  · exact h'.runState.trans h.runState
  · exact h'.cfg.trans h.cfg
  · exact h'.accelPeriod.trans h.accelPeriod
  · exact h'.pins.trans h.pins
  · exact h'.pulseArmed.trans h.pulseArmed
  · exact h'.overrunCount.trans h.overrunCount
  · exact h'.supplied.trans h.supplied
  · exact h'.inputs.trans h.inputs
  · exact h'.preparing.trans h.preparing
  · exact h'.prepReturn.trans h.prepReturn

theorem bodyFrame_finishSegment (s : State) : BodyFrame s (finishSegment s) := by
  unfold finishSegment
  cases s.curFlag.eob <;> constructor <;> rfl

theorem bodyFrame_load (s : State) : KeptByLoad (BodyFrame s) (BodyFrame s) := by
  constructor
  · constructor <;> intros <;> exact BodyFrame.trans ‹_› (by constructor <;> rfl)
  all_goals intros; exact BodyFrame.trans ‹_› (by constructor <;> rfl)

theorem bodyFrame_event (s : State) : KeptByEvent (BodyFrame s) (BodyFrame s) := by
  refine ⟨?_, ?_, ?_, ?_, fun t h => h.trans (bodyFrame_finishSegment t), ?_, ?_, ?_⟩ <;>
    intros <;> exact BodyFrame.trans ‹_› (by constructor <;> rfl)

/-- No tick body writes a field outside the engine's. -/
theorem bodyFrame_tickBody (s : State) : Ends (BodyFrame s) (BodyFrame s) (tickBody s) := by
  refine ends_tickBody (bodyFrame_load s) (bodyFrame_event s) ?_ ?_ ?_ (BodyFrame.refl s) <;>
    intros <;> exact BodyFrame.trans ‹_› (by constructor <;> rfl)

theorem bodyFrame_segmentBody (d : Descriptor) (s : State) :
    Ends (BodyFrame s) (BodyFrame s) (segmentBody d s) := by
  refine ends_segmentBody (bodyFrame_load s) (bodyFrame_event s) ?_ (BodyFrame.refl s) d
  intros
  exact BodyFrame.trans ‹_› (by constructor <;> rfl)

end Sys2Proof.Machine
end

