-- ==== Sys2Proof/Laws/Decode.lean ====
section
/-! SUPPORT. The descriptor word: which words are descriptors, and that decoding and assembling the fields undo each
other. -/

namespace Sys2Proof

@[simp] theorem flagOfBits_eob (e d : Bool) : (flagOfBits e d).eob = e := by cases e <;> cases d <;> rfl
@[simp] theorem flagOfBits_forcesDecel (e d : Bool) : (flagOfBits e d).forcesDecel = d := by
  cases e <;> cases d <;> rfl
@[simp] theorem flagOfBits_of_flag (f : SegFlag) : flagOfBits f.eob f.forcesDecel = f := by cases f <;> rfl

/-- Bits 15:14 are 0 exactly when the word is below `2^14`. -/
theorem reservedBits_eq_zero (w : SegWord) : w.extractLsb' 14 2 = 0 ↔ w.toNat < 16384 := by
  have hw : w.toNat < 65536 := w.isLt
  rw [← BitVec.toNat_inj]
  simp only [BitVec.extractLsb'_toNat, BitVec.ofNat_eq_ofNat, BitVec.toNat_ofNat, Nat.shiftRight_eq_div_pow]
  omega

/-- What the decoder answers for a word of the ring. -/
theorem decodeDescriptor_eq_some {w : SegWord} {d : Descriptor} :
    decodeDescriptor w = some d ↔ w.toNat < 16384 ∧ d = ⟨w.extractLsb' 0 8, w.extractLsb' 8 4,
      flagOfBits (w.getLsbD 12) (w.getLsbD 13)⟩ := by
  unfold decodeDescriptor
  rw [← reservedBits_eq_zero]
  split <;> simp_all [eq_comm]

theorem decodeDescriptor_eq_none {w : SegWord} : decodeDescriptor w = none ↔ 16384 ≤ w.toNat := by
  have := reservedBits_eq_zero w
  unfold decodeDescriptor
  split
  · simp_all
  · rename_i h; simp; rw [this] at h; omega

/-- The descriptor word as a number (30 R303). -/
theorem encodeDescriptor_toNat (d : Descriptor) : (encodeDescriptor d).toNat =
    d.flag.forcesDecel.toNat * 8192 + d.flag.eob.toNat * 4096 + d.index.toNat * 256 + d.count.toNat := by
  obtain ⟨c, i, f⟩ := d
  have hc : c.toNat < 2 ^ 8 := c.isLt
  have high : ∀ (x y : Bool) (i : BitVec 4), ((BitVec.ofBool x).setWidth 16 <<< 13 |||
      (BitVec.ofBool y).setWidth 16 <<< 12 ||| i.setWidth 16 <<< 8).toNat =
        (x.toNat * 32 + y.toNat * 16 + i.toNat) <<< 8 := by decide
  simp only [encodeDescriptor]
  rw [BitVec.toNat_or, high, BitVec.toNat_setWidth, Nat.mod_eq_of_lt (by omega : c.toNat < 2 ^ 16),
    ← Nat.shiftLeft_add_eq_or_of_lt hc, Nat.shiftLeft_eq]
  omega

theorem encodeDescriptor_toNat_lt (d : Descriptor) : (encodeDescriptor d).toNat < 16384 := by
  have h := encodeDescriptor_toNat d
  have := d.count.isLt
  have := d.index.isLt
  have := d.flag.forcesDecel.toNat_lt
  have := d.flag.eob.toNat_lt
  omega

/-- A bit of a word, from its value. -/
theorem getLsbD_eq_decide (w : SegWord) (k : Nat) : w.getLsbD k = decide (w.toNat / 2 ^ k % 2 = 1) := by
  simp [BitVec.getLsbD, Nat.testBit_eq_decide_div_mod_eq]

theorem decodeDescriptor_encodeDescriptor (d : Descriptor) : decodeDescriptor (encodeDescriptor d) = some d := by
  rw [decodeDescriptor_eq_some]
  refine ⟨encodeDescriptor_toNat_lt d, ?_⟩
  have h := encodeDescriptor_toNat d
  obtain ⟨c, i, f⟩ := d
  have := c.isLt
  have := i.isLt
  simp only [Descriptor.mk.injEq]
  refine ⟨?_, ?_, ?_⟩
  · apply BitVec.eq_of_toNat_eq
    simp only [BitVec.extractLsb'_toNat, h]
    omega
  · apply BitVec.eq_of_toNat_eq
    simp only [BitVec.extractLsb'_toNat, h, Nat.shiftRight_eq_div_pow]
    omega
  · rw [getLsbD_eq_decide, getLsbD_eq_decide, h]
    have bit : ∀ x y : Bool, decide ((x.toNat * 8192 + y.toNat * 4096 + i.toNat * 256 + c.toNat) / 2 ^ 12 % 2 = 1) = y ∧
        decide ((x.toNat * 8192 + y.toNat * 4096 + i.toNat * 256 + c.toNat) / 2 ^ 13 % 2 = 1) = x := by
      intro x y
      cases x <;> cases y <;> simp <;> omega
    rw [(bit _ _).1, (bit _ _).2, flagOfBits_of_flag]

theorem encodeDescriptor_of_decode {w : SegWord} {d : Descriptor} (h : decodeDescriptor w = some d) :
    encodeDescriptor d = w := by
  obtain ⟨hw, rfl⟩ := decodeDescriptor_eq_some.1 h
  apply BitVec.eq_of_toNat_eq
  rw [encodeDescriptor_toNat]
  simp only [flagOfBits_eob, flagOfBits_forcesDecel, getLsbD_eq_decide, BitVec.extractLsb'_toNat,
    Nat.shiftRight_eq_div_pow]
  have b : ∀ p : Prop, [Decidable p] → (decide p).toNat = if p then 1 else 0 := by
    intro p _; by_cases hp : p <;> simp [hp]
  rw [b, b]
  split <;> split <;> omega

/-- The bytes of a word, most significant byte first, are the word (20 R202). -/
theorem segBytes_append (w : SegWord) : w.extractLsb' 8 8 ++ w.extractLsb' 0 8 = w := by
  apply BitVec.eq_of_toNat_eq
  have := w.isLt
  have h8 : w.toNat % 256 < 2 ^ 8 := by omega
  simp only [BitVec.toNat_append, BitVec.extractLsb'_toNat, Nat.shiftRight_eq_div_pow]
  rw [← Nat.shiftLeft_add_eq_or_of_lt (by simpa using h8), Nat.shiftLeft_eq]
  omega

theorem decode_segBytes (w : SegWord) : decode .ring (segBytes w) = decodeSegment w := by
  simp only [segBytes, decode, segBytes_append]

end Sys2Proof
end

