-- ==== Sys2Proof/Laws/Memory.lean ====
section
/-! SUPPORT. The rings: a read after a write, and the canonical form. -/

namespace Sys2Proof.Machine

variable {α : Type}

theorem cellGet_filter_ne (dflt : α) (l : List (Nat × α)) (i j : Nat) :
    cellGet dflt (l.filter (fun c => c.1 != i)) j = if j = i then dflt else cellGet dflt l j := by
  induction l with
  | nil => simp [cellGet]
  | cons c l ih =>
    by_cases h : c.1 = i
    · by_cases hj : j = i
      · simp_all
      · have : ¬ i = j := fun e => hj e.symm
        simp_all [cellGet]
    · by_cases hj : j = i
      · subst hj; simp_all [cellGet]
      · simp_all [cellGet]

theorem cellGet_cellInsert (dflt v : α) (l : List (Nat × α)) (i j : Nat) (h : ∀ c ∈ l, c.1 ≠ i) :
    cellGet dflt (cellInsert i v l) j = if j = i then v else cellGet dflt l j := by
  induction l with
  | nil => simp [cellInsert, cellGet, eq_comm]
  | cons c l ih =>
    have hc : c.1 ≠ i := h c (by simp)
    have ih := ih (fun d hd => h d (by simp [hd]))
    unfold cellInsert
    split
    · by_cases hj : j = i
      · simp [cellGet, hj]
      · have : ¬ i = j := fun e => hj e.symm
        simp [cellGet, hj, this]
    · by_cases hj : j = i
      · subst hj; simp [cellGet, hc, ih]
      · simp [cellGet, hj, ih]

variable [DecidableEq α]

/-- A slot reads as what was last written to it, and a write leaves every other slot alone. -/
theorem cellGet_cellSet (dflt v : α) (l : List (Nat × α)) (i j : Nat) :
    cellGet dflt (cellSet dflt l i v) j = if j = i then v else cellGet dflt l j := by
  unfold cellSet
  split
  · rename_i h; rw [cellGet_filter_ne, h]
  · rw [cellGet_cellInsert _ _ _ _ _ (by simp), cellGet_filter_ne]
    split <;> rfl

theorem mem_cellInsert {i : Nat} {v : α} {l : List (Nat × α)} {c : Nat × α} :
    c ∈ cellInsert i v l ↔ c = (i, v) ∨ c ∈ l := by
  induction l with
  | nil => simp [cellInsert]
  | cons d l ih =>
    unfold cellInsert
    split
    · simp
    · simp [ih]; tauto

theorem pairwise_cellInsert {i : Nat} {v : α} {l : List (Nat × α)} (h : l.Pairwise (fun c d => c.1 < d.1))
    (hi : ∀ c ∈ l, c.1 ≠ i) : (cellInsert i v l).Pairwise (fun c d => c.1 < d.1) := by
  induction l with
  | nil => simp [cellInsert]
  | cons d l ih =>
    rw [List.pairwise_cons] at h
    unfold cellInsert
    split
    · rename_i hd
      refine List.pairwise_cons.2 ⟨?_, List.pairwise_cons.2 h⟩
      intro c hc
      rcases List.mem_cons.1 hc with rfl | hc
      · exact hd
      · exact Nat.lt_trans hd (h.1 c hc)
    · rename_i hd
      refine List.pairwise_cons.2 ⟨?_, ih h.2 (fun c hc => hi c (by simp [hc]))⟩
      intro c hc
      rcases mem_cellInsert.1 hc with rfl | hc
      · have := hi d (by simp); simp; omega
      · exact h.1 c hc

/-- A write keeps the canonical form. -/
theorem cellsCanonical_cellSet {dflt v : α} {l : List (Nat × α)} {i : Nat} (h : cellsCanonical dflt l) :
    cellsCanonical dflt (cellSet dflt l i v) := by
  have hf : (l.filter (fun c => c.1 != i)).Pairwise (fun c d => c.1 < d.1) := h.1.filter _
  unfold cellSet
  split
  · exact ⟨hf, fun c hc => h.2 c (List.mem_of_mem_filter hc)⟩
  · rename_i hv
    refine ⟨pairwise_cellInsert hf (by simp), fun c hc => ?_⟩
    rcases mem_cellInsert.1 hc with rfl | hc
    · exact hv
    · exact h.2 c (List.mem_of_mem_filter hc)

omit [DecidableEq α] in
/-- A listed slot of a list in canonical form reads as its value. -/
theorem cellGet_eq_of_mem {dflt : α} {l : List (Nat × α)} (h : l.Pairwise (fun c d => c.1 < d.1)) {c : Nat × α}
    (hc : c ∈ l) : cellGet dflt l c.1 = c.2 := by
  induction l with
  | nil => simp at hc
  | cons d l ih =>
    rw [List.pairwise_cons] at h
    rcases List.mem_cons.1 hc with rfl | hc
    · simp [cellGet]
    · have := h.1 c hc
      have hne : d.1 ≠ c.1 := by omega
      simp [cellGet, hne, ih h.2 hc]

omit [DecidableEq α] in
/-- What a slot reads as is a listed value or the value of an unlisted slot. -/
theorem cellGet_mem_or_default {dflt : α} (l : List (Nat × α)) (i : Nat) :
    cellGet dflt l i = dflt ∨ (i, cellGet dflt l i) ∈ l := by
  induction l with
  | nil => simp [cellGet]
  | cons c l ih =>
    by_cases h : c.1 = i
    · subst h; simp [cellGet]
    · simp only [cellGet, h, if_false, List.mem_cons]
      rcases ih with ih | ih
      · exact .inl ih
      · exact .inr (.inr ih)

/-- Every entry after a write was listed before or is the one written. -/
theorem mem_cellSet {dflt v : α} {l : List (Nat × α)} {i : Nat} {c : Nat × α} (h : c ∈ cellSet dflt l i v) :
    c = (i, v) ∨ c ∈ l := by
  unfold cellSet at h
  split at h
  · exact .inr (List.mem_of_mem_filter h)
  · rcases mem_cellInsert.1 h with h | h
    · exact .inl h
    · exact .inr (List.mem_of_mem_filter h)

/-! ## The two rings of a state -/

/-- A write to the segment ring, read back through either ring. -/
theorem segRead_segWrite (i j : Nat) (w : SegWord) (s : State) :
    segRead (segWrite i w s) j = if j = i then w else segRead s j := cellGet_cellSet ..

@[simp] theorem dataRead_segWrite (i j : Nat) (w : SegWord) (s : State) :
    dataRead (segWrite i w s) j = dataRead s j := rfl

/-- A write to the segment data ring, read back through either ring. -/
theorem dataRead_dataWrite (i j : Nat) (d : SegmentData) (s : State) :
    dataRead (dataWrite i d s) j = if j = i then d else dataRead s j := cellGet_cellSet ..

@[simp] theorem segRead_dataWrite (i j : Nat) (d : SegmentData) (s : State) :
    segRead (dataWrite i d s) j = segRead s j := rfl

theorem wf_segWrite {i : Nat} {w : SegWord} {s : State} (h : s.mem.wf) : (segWrite i w s).mem.wf :=
  ⟨cellsCanonical_cellSet h.1, h.2⟩

theorem wf_dataWrite {i : Nat} {d : SegmentData} {s : State} (h : s.mem.wf) : (dataWrite i d s).mem.wf :=
  ⟨h.1, cellsCanonical_cellSet h.2⟩

end Sys2Proof.Machine
end

