-- ==== Sys2Proof/Laws/Prepare.lean ====
section
/-! SUPPORT. The preparer: what a PREP_STEP can do, said once, and what each part gives where its checks pass. -/

namespace Sys2Proof.Machine

variable {P Q : State → Prop}

/-- The writes of a PREP_STEP (42 R451 to R457). `started` are the records of step 2. -/
structure KeptByPrep (P Q : State → Prop) : Prop where
  nextSlot : ∀ s r, P s → P { s with prepBlock := some r, dataPrepIndex := ringNext s s.dataPrepIndex }
  started : ∀ s b, P s → badBlock b = false → firstBadRate b s.cfg = none → b.breakpoint ≤ 4294967295 →
    P (dataWrite s.dataPrepIndex
      { startedData b s.cfg (dataRead s s.dataPrepIndex) with decelerateAfter := b.breakpoint } s)
  startedOnly : ∀ s b, P s → badBlock b = false → firstBadRate b s.cfg = none →
    Q (raiseFault (.range (.decelerateAfter s.dataPrepIndex))
      (dataWrite s.dataPrepIndex (startedData b s.cfg (dataRead s s.dataPrepIndex)) s))
  consumed : ∀ s n, P s → P (dataWrite s.dataPrepIndex (consume n (dataRead s s.dataPrepIndex)) s)
  closeBlock : ∀ s d, P s → P (closeBlock d s)
  publish : ∀ s n slot f, P s → s.head < s.cfg.n → P (publish n slot f s)
  prepReturn : ∀ s v, P s → P { s with prepReturn := v }
  fault : ∀ s r, P s → Q (raiseFault r s)

theorem KeptByPrep.emitSegment (k : KeptByPrep P Q) {s : State} (h : P s) : Ends P Q (emitSegment s) := by
  refine ends_andThen (P' := P) (ends_needSlot fun _ => h) fun s1 h1 => ?_
  refine ends_andThen (P' := fun t => P t ∧ t.head < t.cfg.n)
    (ends_needSlot fun hn => ⟨k.closeBlock _ _ (k.consumed s1 _ h1), hn⟩) fun s3 h3 => ?_
  exact ends_put (fun _ => k.prepReturn _ _ (k.publish s3 _ _ _ h3.1 h3.2)) fun _ => k.fault s3 _ h3.1

theorem KeptByPrep.startBlock (k : KeptByPrep P Q) {s : State} {r : BlockRef} (h : P s) (b : PlannerBlock)
    (hb : badBlock b = false) : Ends P Q (startBlock b { s with prepBlock := some r }) := by
  have h1 := k.nextSlot s r h
  unfold Machine.startBlock
  split
  · exact k.fault _ _ h1
  · rename_i hr
    refine ends_andThen (P' := fun t => t = { s with prepBlock := some r, dataPrepIndex := ringNext s s.dataPrepIndex })
      (ends_needSlot fun _ => rfl) fun t ht => ?_
    subst ht
    refine ends_put (fun hv => ?_) fun _ => ?_
    · exact k.started _ b h1 hb hr (by simp [inUint32] at hv; omega)
    · exact k.startedOnly _ b h1 hb hr

/-- Every PREP_STEP. -/
theorem KeptByPrep.prepStep (k : KeptByPrep P Q) {s : State} (h : P s) : Ends P Q (prepStep s) := by
  refine ends_ite (fun _ => k.prepReturn s _ h) fun _ => ?_
  split
  · exact k.emitSegment h
  · split
    · exact k.prepReturn s _ h
    · rename_i b _
      refine ends_ite (fun _ => k.fault s _ h) fun hb => ?_
      exact ends_andThen (k.startBlock h b (by simpa using hb)) fun _ h1 => k.emitSegment h1

end Sys2Proof.Machine
end

