-- ==== Sys2Proof/Laws/Step.lean ====
section
/-! SUPPORT. Which word a step takes and which bytes it stands for, one lemma per case. -/

namespace Sys2Proof.Machine

/-- A word on the inputs that waits for nothing is taken and run. -/
theorem step_of_word {s : State} {c : Byte} {rest : List Input} (h : s.inputs = .word c :: rest)
    (hw : waitsFor c s = none) : step s = runFetched c { s with inputs := rest } := by
  simp only [step, nextWord, h, hw]

/-- A word on the inputs that waits for another agent's step stays there, and that step runs. -/
theorem step_of_wait {s : State} {c c' : Byte} {rest : List Input} (h : s.inputs = .word c :: rest)
    (hw : waitsFor c s = some c') : step s = runFetched c' s := by
  simp only [step, nextWord, h, hw]

/-- With no input, the step is the one the block takes on its own. -/
theorem step_of_own {s : State} {c : Byte} (h : s.inputs = []) (hc : ownStep s = some c) :
    step s = runFetched c s := by
  simp only [step, nextWord, h, hc, Option.map_some]

theorem step_of_planner {s : State} {store : List PlannerEntry} {rest : List Input}
    (h : s.inputs = .planner store :: rest) : step s = .next { s with planner := store, inputs := rest } := by
  simp only [step, nextWord, environmentStep, h]

theorem step_of_supply {s : State} {p : Params} {rest : List Input}
    (h : s.inputs = .supply p :: rest) : step s = .next { s with supplied := p, inputs := rest } := by
  simp only [step, nextWord, environmentStep, h]

theorem step_of_nothing {s : State} (h : s.inputs = []) (hc : ownStep s = none) : step s = .next s := by
  simp only [step, nextWord, environmentStep, h, hc, Option.map_none]

/-- TICK_BODY waits for nothing. -/
theorem waitsFor_tickBody (s : State) : waitsFor 0x81#8 s = none := by
  have h1 : isCommand 0x81#8 = false := by decide
  have h2 : (0x81#8 == 0x80#8) = false := by decide
  simp only [waitsFor, h1, h2, Bool.false_and, Bool.false_eq_true, if_false, ite_self]

/-- Every word but TICK_BODY stands for its own byte. -/
theorem runFetched_of_ne {c : Byte} {s : State} (h : c ≠ 0x81#8) :
    runFetched c s = match decodeCode c with | .ok i => exec i s | .error _ => .next s := by
  have : (c == 0x81#8) = false := by simpa using h
  cases hd : decodeCode c <;>
    simp only [runFetched, fetchBytes, this, Bool.false_and, Bool.false_eq_true, if_false, decode, hd]

/-- A TICK_BODY that loads a segment stands for that segment's word; every other TICK_BODY for its own byte. -/
theorem runFetched_tickBody (s : State) : runFetched 0x81#8 s =
    if tickBodyEnabled s && loadDue s && decide (s.tail < s.cfg.n) then
      match decodeDescriptor (segRead s s.tail) with
      | some d => exec d.instr s
      | none => exec .tickBody s
    else exec .tickBody s := by
  have h : ((0x81#8 : Byte) == 0x81#8) = true := by decide
  have e : decode .byte [0x81#8] = .ok .tickBody := by decide
  simp only [runFetched, fetchBytes, h, Bool.true_and]
  cases hc : tickBodyEnabled s && loadDue s && decide (s.tail < s.cfg.n) with
  | false => simp only [Bool.false_and, Bool.false_eq_true, if_false, e]
  | true =>
    cases hd : decodeDescriptor (segRead s s.tail) with
    | none => simp only [Option.isSome_none, Bool.and_false, Bool.false_eq_true, if_false, if_true, e]
    | some d =>
      simp only [Option.isSome_some, Bool.and_true, if_true, decode_segBytes, decodeSegment, hd]

/-- A segment as an instruction is the tick body that loads it (log 12). -/
theorem exec_instr (d : Descriptor) (s : State) : exec d.instr s = runSegment d s := by
  obtain ⟨c, x, f⟩ := d
  cases f <;> rfl

/-- TICK_BODY, where the word at `tail` is the next segment, is that segment. -/
theorem execTickBody_of_loadDue {d : Descriptor} {s : State} (hb : tickBodyEnabled s = true) (hl : loadDue s = true)
    (hn : s.tail < s.cfg.n) (hd : decodeDescriptor (segRead s s.tail) = some d) :
    execTickBody s = runSegment d s := by
  have hl' := hl
  simp only [loadDue, Bool.and_eq_true, decide_eq_true_eq] at hl'
  obtain ⟨⟨h1, h2⟩, h3⟩ := hl'
  simp [execTickBody, runSegment, hb, hl, tickBody, h1, h2, h3, needSlot, hn, andThen, hd]

/-- A step that fetched TICK_BODY runs TICK_BODY, whichever bytes it stands for. -/
theorem runFetched_tickBody_eq (s : State) : runFetched 0x81#8 s = execTickBody s := by
  rw [runFetched_tickBody]
  split
  · rename_i h
    simp only [Bool.and_eq_true, decide_eq_true_eq] at h
    split
    · rename_i d hd
      rw [exec_instr, execTickBody_of_loadDue h.1.1 h.1.2 h.2 hd]
    · rfl
  · rfl

end Sys2Proof.Machine
end

