-- ==== Sys2Proof/Laws/Exec.lean ====
section
/-! SUPPORT. What an instruction and a step can do, said once: every next state of exec is one of the states the
hypotheses name, and every next state of step is one of exec's or the environment's. An invariant over all instructions is
proved by these. -/

namespace Sys2Proof.Machine

variable {P : State → Prop}

/-- The next states of the host commands and INIT, and of the instruction that is not enabled (log 9). -/
structure HoldsAfterCommands (P : State → Prop) (s : State) : Prop where
  stay : P s
  initFault : ∀ p, P (raiseFault (.configInvalid p) s)
  init : firstInvalid s.supplied = none → P (powerOn s.supplied s)
  resetFault : s.tickEnabled = true → P (raiseFault .resetWhileRunning s)
  reset : s.busy = false → s.tickEnabled = false → P (clearEngine s)
  wakeUp : s.busy = false → P (woken s)
  goIdle : s.busy = false → P (idled s)
  cycleStart : s.busy = false → s.runState = .queued → P (woken { s with runState := .running })
  feedHold : s.runState = .running → P { s with runState := .hold }
  cycleReinitialize : s.busy = false → s.runState = .hold → s.tickEnabled = false → P { s with runState := .idle }
  queue : s.runState = .idle → P { s with runState := .queued }
  clearCycleStop : s.busy = false → P { s with
    cycleStop := false
    runState := if s.runState = .running ∧ s.tickEnabled = false then .idle else s.runState }

/-- The next states of the three device events, of the segments and of the preparer. -/
structure HoldsAfterAgents (P : State → Prop) (s : State) : Prop where
  overrun : P { s with overrunCount := s.overrunCount + 1 }
  overlap : P (raiseFault (.pulseOverlap s.pins) s)
  begin : s.tickEnabled = true → P { s with busy := true }
  emit : s.tickEnabled = true → P { s with
    pins := s.outBits &&& outMask, pulseArmed := true, staged := false, busy := true }
  tickBody : s.busy = true → Ends P P (tickBody s)
  segment : s.busy = true → ∀ d, Ends P P (segmentBody d s)
  pulseReset : s.pulseArmed = true → P { s with
    pins := (s.pins &&& ~~~stepMask) ||| (s.cfg.invertMask &&& stepMask), pulseArmed := false }
  prepStep : Ends (fun t => ∀ p, P { t with preparing := p }) P (prepStep s)

theorem enabled_background {s : State} (h : backgroundEnabled s = true) : s.fault = none ∧ s.busy = false := by
  simpa [backgroundEnabled] using h

theorem HoldsAfterAgents.runSegment {s t : State} (a : HoldsAfterAgents P s) (stay : P s) (d : Descriptor)
    (h : runSegment d s = .next t) : P t := by
  unfold Machine.runSegment at h
  split at h
  · rename_i hc
    simp only [tickBodyEnabled, Bool.and_eq_true] at hc
    exact ends_of_finish h (a.segment hc.1.2 d)
  · cases h; exact stay

theorem HoldsAfterAgents.execTickBegin {s t : State} (a : HoldsAfterAgents P s) (stay : P s)
    (h : execTickBegin s = .next t) : P t := by
  unfold Machine.execTickBegin at h
  split at h
  · rename_i hc
    simp only [tickBeginEnabled, Bool.and_eq_true] at hc
    split at h
    · cases h; exact a.overrun
    · unfold emitStaged at h
      split at h
      · split at h
        · cases h; exact a.overlap
        · cases h; exact a.emit hc.1.2
      · cases h; exact a.begin hc.1.2
  · cases h; exact stay

/-- Every next state of an instruction. -/
theorem holds_of_exec {i : Instr} {s t : State} (h : exec i s = .next t) (c : HoldsAfterCommands P s)
    (a : HoldsAfterAgents P s) : P t := by
  cases i with
  | noop x y => exact a.runSegment c.stay ⟨x, y, .noop⟩ h
  | endOfBlock x y => exact a.runSegment c.stay ⟨x, y, .endOfBlock⟩ h
  | decel x y => exact a.runSegment c.stay ⟨x, y, .decel⟩ h
  | decelEob x y => exact a.runSegment c.stay ⟨x, y, .decelEob⟩ h
  | init =>
    simp only [exec, execInit] at h
    split at h
    · split at h
      · cases h; exact c.initFault _
      · rename_i hv; cases h; exact c.init hv
    · cases h; exact c.stay
  | reset =>
    simp only [exec, execReset] at h
    split at h
    · rename_i hb
      split at h
      · rename_i ht; cases h; exact c.resetFault ht
      · rename_i ht; cases h; exact c.reset (enabled_background hb).2 (by simpa using ht)
    · cases h; exact c.stay
  | wakeUp =>
    simp only [exec, execWakeUp] at h
    split at h
    · rename_i hb; cases h; exact c.wakeUp (enabled_background hb).2
    · cases h; exact c.stay
  | goIdle =>
    simp only [exec, execGoIdle] at h
    split at h
    · rename_i hb; cases h; exact c.goIdle (enabled_background hb).2
    · cases h; exact c.stay
  | cycleStart =>
    simp only [exec, execCycleStart, Bool.and_eq_true, decide_eq_true_eq] at h
    split at h
    · rename_i hb; cases h; exact c.cycleStart (enabled_background hb.1).2 hb.2
    · cases h; exact c.stay
  | feedHold =>
    simp only [exec, execFeedHold, Bool.and_eq_true, decide_eq_true_eq] at h
    split at h
    · rename_i hb; cases h; exact c.feedHold hb.2
    · cases h; exact c.stay
  | cycleReinitialize =>
    simp only [exec, execCycleReinitialize, Bool.and_eq_true, decide_eq_true_eq, Bool.not_eq_true'] at h
    split at h
    · rename_i hb; cases h; exact c.cycleReinitialize (enabled_background hb.1.1).2 hb.1.2 hb.2
    · cases h; exact c.stay
  | queue =>
    simp only [exec, execQueue, Bool.and_eq_true, decide_eq_true_eq] at h
    split at h
    · rename_i hb; cases h; exact c.queue hb.2
    · cases h; exact c.stay
  | clearCycleStop =>
    simp only [exec, execClearCycleStop] at h
    split at h
    · rename_i hb; cases h; exact c.clearCycleStop (enabled_background hb).2
    · cases h; exact c.stay
  | prepStep =>
    simp only [exec, execPrepStep] at h
    split at h
    · exact ends_of_finish h (ends_andThen a.prepStep fun u hu => hu _)
    · cases h; exact c.stay
  | prepareSegments =>
    simp only [exec, execPrepareSegments] at h
    split at h
    · exact ends_of_finish h (ends_andThen a.prepStep fun u hu => hu _)
    · cases h; exact c.stay
  | tickBegin => exact a.execTickBegin c.stay h
  | tickBody =>
    simp only [exec, execTickBody] at h
    split at h
    · rename_i hb
      simp only [tickBodyEnabled, Bool.and_eq_true] at hb
      exact ends_of_finish h (a.tickBody hb.2)
    · cases h; exact c.stay
  | pulseReset =>
    simp only [exec, execPulseReset] at h
    split at h
    · rename_i hb
      simp only [pulseResetEnabled, Bool.and_eq_true] at hb
      cases h; exact a.pulseReset hb.2
    · cases h; exact c.stay

theorem exec_of_runFetched {c : Byte} {s t : State} (h : runFetched c s = .next t) :
    (∃ i, exec i s = .next t) ∨ t = s := by
  unfold runFetched at h
  split at h
  · exact .inl ⟨_, h⟩
  · cases h; exact .inr rfl

/-- Every next state of a step: a step of the environment, a refused word taken off the inputs, or an instruction's, with at
most one input taken. -/
theorem holds_of_step {s t : State} (h : step s = .next t) (env : P (environmentStep s))
    (drop : ∀ inputs, P { s with inputs := inputs })
    (ex : ∀ i inputs, exec i { s with inputs := inputs } = .next t → P t) : P t := by
  unfold step at h
  split at h
  · rename_i c s' hn
    have key : ∀ inputs, s' = { s with inputs := inputs } → P t := fun inputs e => by
      subst e
      rcases exec_of_runFetched h with ⟨i, hi⟩ | rfl
      · exact ex i inputs hi
      · exact drop inputs
    unfold nextWord at hn
    split at hn
    · obtain ⟨_, _, hn⟩ := Option.map_eq_some_iff.1 hn
      cases hn
      exact key s.inputs rfl
    · split at hn
      · cases hn; exact key s.inputs rfl
      · cases hn; exact key _ rfl
    · cases hn
    · cases hn
  · cases h; exact env

end Sys2Proof.Machine
end

