-- ==== Sys2Proof/Laws/PerInstr.lean ====
section
/-! SUPPORT. A statement about every instruction, one lemma per constructor: an instruction's encoding has the fixed length
of its port's words (30 R300: 16 bits on the segment ring, 8 bits on the byte port). -/

namespace Sys2Proof.Laws.EncodedLength

/-- The bytes of the instruction are one word of its port. -/
def Statement (i : Instr) : Prop :=
  (encode i).length = match i.port with
    | .ring => 2
    | .byte => 1

theorem noop (stepCount : BitVec 8) (dataIndex : BitVec 4) : Statement (.noop stepCount dataIndex) := rfl
theorem endOfBlock (stepCount : BitVec 8) (dataIndex : BitVec 4) : Statement (.endOfBlock stepCount dataIndex) := rfl
theorem decel (stepCount : BitVec 8) (dataIndex : BitVec 4) : Statement (.decel stepCount dataIndex) := rfl
theorem decelEob (stepCount : BitVec 8) (dataIndex : BitVec 4) : Statement (.decelEob stepCount dataIndex) := rfl
theorem init : Statement .init := rfl
theorem reset : Statement .reset := rfl
theorem wakeUp : Statement .wakeUp := rfl
theorem goIdle : Statement .goIdle := rfl
theorem cycleStart : Statement .cycleStart := rfl
theorem feedHold : Statement .feedHold := rfl
theorem cycleReinitialize : Statement .cycleReinitialize := rfl
theorem prepareSegments : Statement .prepareSegments := rfl
theorem queue : Statement .queue := rfl
theorem clearCycleStop : Statement .clearCycleStop := rfl
theorem prepStep : Statement .prepStep := rfl
theorem tickBegin : Statement .tickBegin := rfl
theorem tickBody : Statement .tickBody := rfl
theorem pulseReset : Statement .pulseReset := rfl

end Sys2Proof.Laws.EncodedLength
end

