-- ==== Sys2Proof/Laws/Rate.lean ====
section
/-! SUPPORT. The integer square roots, and the integer conditions of the configuration check as conditions on
rationals. -/

namespace Sys2Proof.Machine

theorem rootBits_spec (b r n : Nat) (h : r * r ≤ n) (hlt : n < (r + 2 ^ b) * (r + 2 ^ b)) :
    rootBits b r n * rootBits b r n ≤ n ∧ n < (rootBits b r n + 1) * (rootBits b r n + 1) := by
  induction b generalizing r with
  | zero => exact ⟨h, hlt⟩
  | succ b ih =>
    have e : r + 2 ^ (b + 1) = r + 2 ^ b + 2 ^ b := by rw [pow_succ]; omega
    unfold rootBits
    split
    · exact ih _ ‹_› (by rw [← e]; exact hlt)
    · exact ih _ h (by omega)

/-- `floorRoot` is the floor of the square root. -/
theorem floorRoot_spec (n : Nat) : floorRoot n * floorRoot n ≤ n ∧ n < (floorRoot n + 1) * (floorRoot n + 1) := by
  unfold floorRoot
  refine rootBits_spec _ 0 n (Nat.zero_le _) ?_
  have h : n < 2 ^ (n.log2 + 1) := Nat.lt_log2_self
  have h2 : 2 ^ (n.log2 + 1) ≤ 2 ^ (n.log2 / 2 + 1 + (n.log2 / 2 + 1)) := Nat.pow_le_pow_right (by omega) (by omega)
  rw [pow_add 2 (n.log2 / 2 + 1)] at h2
  simpa only [Nat.zero_add] using lt_of_lt_of_le h h2

theorem le_floorRoot_iff {n m : Nat} : m ≤ floorRoot n ↔ m * m ≤ n := by
  obtain ⟨h1, h2⟩ := floorRoot_spec n
  constructor
  · intro h; exact le_trans (Nat.mul_le_mul h h) h1
  · intro h
    by_contra hc
    have : floorRoot n + 1 ≤ m := by omega
    exact absurd (le_trans (Nat.mul_le_mul this this) h) (by omega)

/-- `ceilRoot` is the ceiling of the square root. -/
theorem ceilRoot_le_iff {n m : Nat} : ceilRoot n ≤ m ↔ n ≤ m * m := by
  obtain ⟨h1, h2⟩ := floorRoot_spec n
  unfold ceilRoot
  split
  · rename_i he
    constructor
    · intro h; rw [← he]; exact Nat.mul_le_mul h h
    · intro h
      by_contra hc
      have : m * m < floorRoot n * floorRoot n := Nat.mul_self_lt_mul_self (by omega)
      omega
  · rename_i he
    constructor
    · intro h; exact le_trans h2.le (Nat.mul_le_mul h h)
    · intro h
      by_contra hc
      have : m * m ≤ floorRoot n * floorRoot n := Nat.mul_le_mul (by omega) (by omega)
      omega

/-- The floor of a quotient with a positive divisor, from numerators and denominators. -/
theorem floorQuotient_eq {a b : Rat} (hb : 0 < b) : floorQuotient a b = ⌊a / b⌋ := by
  obtain ⟨k, hk⟩ := Int.eq_ofNat_of_zero_le (Rat.num_pos.2 hb).le
  have h : a / b = ((a.num * b.den : Int) : Rat) / ((a.den * k : Nat) : Rat) := by
    conv_lhs => rw [← Rat.num_div_den a, ← Rat.num_div_den b]
    rw [hk]
    push_cast
    rw [div_div_div_eq]
  rw [h, Rat.floor_intCast_div_natCast, floorQuotient, hk]
  push_cast
  rfl

/-- The configuration check's condition on the pulse width (00 R7), without a division. -/
theorem pulseWidth_lt_iff {w f : Rat} (hf : 0 < f) :
    w.num * f.num < w.den * f.den ↔ w < 1 / f := by
  rw [lt_div_iff₀ hf]
  have hw : (0 : Rat) < w.den := by exact_mod_cast w.den_pos
  have hd : (0 : Rat) < f.den := by exact_mod_cast f.den_pos
  conv_rhs => rw [← Rat.num_div_den w, ← Rat.num_div_den f]
  rw [div_mul_div_comm, div_lt_one (mul_pos hw hd)]
  exact_mod_cast Iff.rfl

end Sys2Proof.Machine
end

