-- ==== Sys2Proof/Laws/State.lean ====
section
/-! SUPPORT. What each named update does to each field of State: one lemma per field per update. The updates of one
register (a checked write) are record updates and need none. -/

namespace Sys2Proof.Machine

variable (s : State)

/-! raiseFault -/

@[simp] theorem raiseFault_counter (r : FaultRecord) : (raiseFault r s).counter = s.counter := rfl
@[simp] theorem raiseFault_segmentSteps (r : FaultRecord) : (raiseFault r s).segmentSteps = s.segmentSteps := rfl
@[simp] theorem raiseFault_counterD (r : FaultRecord) : (raiseFault r s).counterD = s.counterD := rfl
@[simp] theorem raiseFault_rate (r : FaultRecord) : (raiseFault r s).rate = s.rate := rfl
@[simp] theorem raiseFault_deltaD (r : FaultRecord) : (raiseFault r s).deltaD = s.deltaD := rfl
@[simp] theorem raiseFault_outBits (r : FaultRecord) : (raiseFault r s).outBits = s.outBits := rfl
@[simp] theorem raiseFault_staged (r : FaultRecord) : (raiseFault r s).staged = s.staged := rfl
@[simp] theorem raiseFault_rampState (r : FaultRecord) : (raiseFault r s).rampState = s.rampState := rfl
@[simp] theorem raiseFault_rampCount (r : FaultRecord) : (raiseFault r s).rampCount = s.rampCount := rfl
@[simp] theorem raiseFault_loadState (r : FaultRecord) : (raiseFault r s).loadState = s.loadState := rfl
@[simp] theorem raiseFault_busy (r : FaultRecord) : (raiseFault r s).busy = s.busy := rfl
@[simp] theorem raiseFault_curBlock (r : FaultRecord) : (raiseFault r s).curBlock = s.curBlock := rfl
@[simp] theorem raiseFault_curFlag (r : FaultRecord) : (raiseFault r s).curFlag = s.curFlag := rfl
@[simp] theorem raiseFault_curData (r : FaultRecord) : (raiseFault r s).curData = s.curData := rfl
@[simp] theorem raiseFault_tail (r : FaultRecord) : (raiseFault r s).tail = s.tail := rfl
@[simp] theorem raiseFault_head (r : FaultRecord) : (raiseFault r s).head = s.head := rfl
@[simp] theorem raiseFault_nextHead (r : FaultRecord) : (raiseFault r s).nextHead = s.nextHead := rfl
@[simp] theorem raiseFault_prepBlock (r : FaultRecord) : (raiseFault r s).prepBlock = s.prepBlock := rfl
@[simp] theorem raiseFault_prepIndex (r : FaultRecord) : (raiseFault r s).prepIndex = s.prepIndex := rfl
@[simp] theorem raiseFault_dataPrepIndex (r : FaultRecord) : (raiseFault r s).dataPrepIndex = s.dataPrepIndex := rfl
@[simp] theorem raiseFault_mem (r : FaultRecord) : (raiseFault r s).mem = s.mem := rfl
@[simp] theorem raiseFault_position (r : FaultRecord) : (raiseFault r s).position = s.position := rfl
@[simp] theorem raiseFault_runState (r : FaultRecord) : (raiseFault r s).runState = s.runState := rfl
@[simp] theorem raiseFault_cfg (r : FaultRecord) : (raiseFault r s).cfg = s.cfg := rfl
@[simp] theorem raiseFault_accelPeriod (r : FaultRecord) : (raiseFault r s).accelPeriod = s.accelPeriod := rfl
@[simp] theorem raiseFault_pins (r : FaultRecord) : (raiseFault r s).pins = s.pins := rfl
@[simp] theorem raiseFault_disableLine (r : FaultRecord) : (raiseFault r s).disableLine = s.disableLine := rfl
@[simp] theorem raiseFault_tickEnabled (r : FaultRecord) : (raiseFault r s).tickEnabled = s.tickEnabled := rfl
@[simp] theorem raiseFault_pulseArmed (r : FaultRecord) : (raiseFault r s).pulseArmed = s.pulseArmed := rfl
@[simp] theorem raiseFault_cycleStop (r : FaultRecord) : (raiseFault r s).cycleStop = s.cycleStop := rfl
@[simp] theorem raiseFault_overrunCount (r : FaultRecord) : (raiseFault r s).overrunCount = s.overrunCount := rfl
@[simp] theorem raiseFault_fault (r : FaultRecord) : (raiseFault r s).fault = some r := rfl
@[simp] theorem raiseFault_planner (r : FaultRecord) : (raiseFault r s).planner = s.planner := rfl
@[simp] theorem raiseFault_supplied (r : FaultRecord) : (raiseFault r s).supplied = s.supplied := rfl
@[simp] theorem raiseFault_inputs (r : FaultRecord) : (raiseFault r s).inputs = s.inputs := rfl
@[simp] theorem raiseFault_preparing (r : FaultRecord) : (raiseFault r s).preparing = s.preparing := rfl
@[simp] theorem raiseFault_prepReturn (r : FaultRecord) : (raiseFault r s).prepReturn = s.prepReturn := rfl
@[simp] theorem raiseFault_freeCount (r : FaultRecord) : (raiseFault r s).freeCount = s.freeCount := rfl

/-! clearEngine -/

@[simp] theorem clearEngine_counter : (clearEngine s).counter = ⟨0, 0, 0⟩ := rfl
@[simp] theorem clearEngine_segmentSteps : (clearEngine s).segmentSteps = 0 := rfl
@[simp] theorem clearEngine_counterD : (clearEngine s).counterD = 0 := rfl
@[simp] theorem clearEngine_rate : (clearEngine s).rate = 0 := rfl
@[simp] theorem clearEngine_deltaD : (clearEngine s).deltaD = 0 := rfl
@[simp] theorem clearEngine_outBits : (clearEngine s).outBits = 0 := rfl
@[simp] theorem clearEngine_staged : (clearEngine s).staged = false := rfl
@[simp] theorem clearEngine_rampState : (clearEngine s).rampState = .cruise := rfl
@[simp] theorem clearEngine_rampCount : (clearEngine s).rampCount = 0 := rfl
@[simp] theorem clearEngine_loadState : (clearEngine s).loadState = .loadBlock := rfl
@[simp] theorem clearEngine_busy : (clearEngine s).busy = false := rfl
@[simp] theorem clearEngine_curBlock : (clearEngine s).curBlock = none := rfl
@[simp] theorem clearEngine_curFlag : (clearEngine s).curFlag = .noop := rfl
@[simp] theorem clearEngine_curData : (clearEngine s).curData = 0 := rfl
@[simp] theorem clearEngine_tail : (clearEngine s).tail = 0 := rfl
@[simp] theorem clearEngine_head : (clearEngine s).head = 0 := rfl
@[simp] theorem clearEngine_nextHead : (clearEngine s).nextHead = 1 := rfl
@[simp] theorem clearEngine_prepBlock : (clearEngine s).prepBlock = none := rfl
@[simp] theorem clearEngine_prepIndex : (clearEngine s).prepIndex = 0 := rfl
@[simp] theorem clearEngine_dataPrepIndex : (clearEngine s).dataPrepIndex = 0 := rfl
@[simp] theorem clearEngine_mem : (clearEngine s).mem = s.mem := rfl
@[simp] theorem clearEngine_position : (clearEngine s).position = s.position := rfl
@[simp] theorem clearEngine_runState : (clearEngine s).runState = s.runState := rfl
@[simp] theorem clearEngine_cfg : (clearEngine s).cfg = s.cfg := rfl
@[simp] theorem clearEngine_accelPeriod : (clearEngine s).accelPeriod = s.accelPeriod := rfl
@[simp] theorem clearEngine_pins : (clearEngine s).pins = s.pins := rfl
@[simp] theorem clearEngine_disableLine : (clearEngine s).disableLine = s.disableLine := rfl
@[simp] theorem clearEngine_tickEnabled : (clearEngine s).tickEnabled = s.tickEnabled := rfl
@[simp] theorem clearEngine_pulseArmed : (clearEngine s).pulseArmed = s.pulseArmed := rfl
@[simp] theorem clearEngine_cycleStop : (clearEngine s).cycleStop = s.cycleStop := rfl
@[simp] theorem clearEngine_overrunCount : (clearEngine s).overrunCount = s.overrunCount := rfl
@[simp] theorem clearEngine_fault : (clearEngine s).fault = s.fault := rfl
@[simp] theorem clearEngine_planner : (clearEngine s).planner = s.planner := rfl
@[simp] theorem clearEngine_supplied : (clearEngine s).supplied = s.supplied := rfl
@[simp] theorem clearEngine_inputs : (clearEngine s).inputs = s.inputs := rfl
@[simp] theorem clearEngine_preparing : (clearEngine s).preparing = s.preparing := rfl
@[simp] theorem clearEngine_prepReturn : (clearEngine s).prepReturn = s.prepReturn := rfl
@[simp] theorem clearEngine_freeCount : (clearEngine s).freeCount = s.freeCount := rfl

/-! idled -/

@[simp] theorem idled_counter : (idled s).counter = s.counter := rfl
@[simp] theorem idled_segmentSteps : (idled s).segmentSteps = s.segmentSteps := rfl
@[simp] theorem idled_counterD : (idled s).counterD = s.counterD := rfl
@[simp] theorem idled_rate : (idled s).rate = s.rate := rfl
@[simp] theorem idled_deltaD : (idled s).deltaD = s.deltaD := rfl
@[simp] theorem idled_outBits : (idled s).outBits = s.outBits := rfl
@[simp] theorem idled_staged : (idled s).staged = s.staged := rfl
@[simp] theorem idled_rampState : (idled s).rampState = s.rampState := rfl
@[simp] theorem idled_rampCount : (idled s).rampCount = s.rampCount := rfl
@[simp] theorem idled_loadState : (idled s).loadState = s.loadState := rfl
@[simp] theorem idled_busy : (idled s).busy = false := rfl
@[simp] theorem idled_curBlock : (idled s).curBlock = s.curBlock := rfl
@[simp] theorem idled_curFlag : (idled s).curFlag = s.curFlag := rfl
@[simp] theorem idled_curData : (idled s).curData = s.curData := rfl
@[simp] theorem idled_tail : (idled s).tail = s.tail := rfl
@[simp] theorem idled_head : (idled s).head = s.head := rfl
@[simp] theorem idled_nextHead : (idled s).nextHead = s.nextHead := rfl
@[simp] theorem idled_prepBlock : (idled s).prepBlock = s.prepBlock := rfl
@[simp] theorem idled_prepIndex : (idled s).prepIndex = s.prepIndex := rfl
@[simp] theorem idled_dataPrepIndex : (idled s).dataPrepIndex = s.dataPrepIndex := rfl
@[simp] theorem idled_mem : (idled s).mem = s.mem := rfl
@[simp] theorem idled_position : (idled s).position = s.position := rfl
@[simp] theorem idled_runState : (idled s).runState = s.runState := rfl
@[simp] theorem idled_cfg : (idled s).cfg = s.cfg := rfl
@[simp] theorem idled_accelPeriod : (idled s).accelPeriod = s.accelPeriod := rfl
@[simp] theorem idled_pins : (idled s).pins = s.pins := rfl
@[simp] theorem idled_disableLine : (idled s).disableLine = 1 - s.cfg.invertEnable := rfl
@[simp] theorem idled_tickEnabled : (idled s).tickEnabled = false := rfl
@[simp] theorem idled_pulseArmed : (idled s).pulseArmed = s.pulseArmed := rfl
@[simp] theorem idled_cycleStop : (idled s).cycleStop = s.cycleStop := rfl
@[simp] theorem idled_overrunCount : (idled s).overrunCount = s.overrunCount := rfl
@[simp] theorem idled_fault : (idled s).fault = s.fault := rfl
@[simp] theorem idled_planner : (idled s).planner = s.planner := rfl
@[simp] theorem idled_supplied : (idled s).supplied = s.supplied := rfl
@[simp] theorem idled_inputs : (idled s).inputs = s.inputs := rfl
@[simp] theorem idled_preparing : (idled s).preparing = s.preparing := rfl
@[simp] theorem idled_prepReturn : (idled s).prepReturn = s.prepReturn := rfl
@[simp] theorem idled_freeCount : (idled s).freeCount = s.freeCount := rfl

/-! tickStarted -/

@[simp] theorem tickStarted_counter : (tickStarted s).counter = s.counter := rfl
@[simp] theorem tickStarted_segmentSteps : (tickStarted s).segmentSteps = s.segmentSteps := rfl
@[simp] theorem tickStarted_counterD : (tickStarted s).counterD = s.counterD := rfl
@[simp] theorem tickStarted_rate : (tickStarted s).rate = s.rate := rfl
@[simp] theorem tickStarted_deltaD : (tickStarted s).deltaD = s.deltaD := rfl
@[simp] theorem tickStarted_outBits : (tickStarted s).outBits = s.cfg.invertMask &&& outMask := rfl
@[simp] theorem tickStarted_staged : (tickStarted s).staged = false := rfl
@[simp] theorem tickStarted_rampState : (tickStarted s).rampState = s.rampState := rfl
@[simp] theorem tickStarted_rampCount : (tickStarted s).rampCount = s.rampCount := rfl
@[simp] theorem tickStarted_loadState : (tickStarted s).loadState = s.loadState := rfl
@[simp] theorem tickStarted_busy : (tickStarted s).busy = s.busy := rfl
@[simp] theorem tickStarted_curBlock : (tickStarted s).curBlock = s.curBlock := rfl
@[simp] theorem tickStarted_curFlag : (tickStarted s).curFlag = s.curFlag := rfl
@[simp] theorem tickStarted_curData : (tickStarted s).curData = s.curData := rfl
@[simp] theorem tickStarted_tail : (tickStarted s).tail = s.tail := rfl
@[simp] theorem tickStarted_head : (tickStarted s).head = s.head := rfl
@[simp] theorem tickStarted_nextHead : (tickStarted s).nextHead = s.nextHead := rfl
@[simp] theorem tickStarted_prepBlock : (tickStarted s).prepBlock = s.prepBlock := rfl
@[simp] theorem tickStarted_prepIndex : (tickStarted s).prepIndex = s.prepIndex := rfl
@[simp] theorem tickStarted_dataPrepIndex : (tickStarted s).dataPrepIndex = s.dataPrepIndex := rfl
@[simp] theorem tickStarted_mem : (tickStarted s).mem = s.mem := rfl
@[simp] theorem tickStarted_position : (tickStarted s).position = s.position := rfl
@[simp] theorem tickStarted_runState : (tickStarted s).runState = s.runState := rfl
@[simp] theorem tickStarted_cfg : (tickStarted s).cfg = s.cfg := rfl
@[simp] theorem tickStarted_accelPeriod : (tickStarted s).accelPeriod = s.accelPeriod := rfl
@[simp] theorem tickStarted_pins : (tickStarted s).pins = s.pins := rfl
@[simp] theorem tickStarted_disableLine : (tickStarted s).disableLine = s.disableLine := rfl
@[simp] theorem tickStarted_tickEnabled : (tickStarted s).tickEnabled = true := rfl
@[simp] theorem tickStarted_pulseArmed : (tickStarted s).pulseArmed = s.pulseArmed := rfl
@[simp] theorem tickStarted_cycleStop : (tickStarted s).cycleStop = s.cycleStop := rfl
@[simp] theorem tickStarted_overrunCount : (tickStarted s).overrunCount = s.overrunCount := rfl
@[simp] theorem tickStarted_fault : (tickStarted s).fault = s.fault := rfl
@[simp] theorem tickStarted_planner : (tickStarted s).planner = s.planner := rfl
@[simp] theorem tickStarted_supplied : (tickStarted s).supplied = s.supplied := rfl
@[simp] theorem tickStarted_inputs : (tickStarted s).inputs = s.inputs := rfl
@[simp] theorem tickStarted_preparing : (tickStarted s).preparing = s.preparing := rfl
@[simp] theorem tickStarted_prepReturn : (tickStarted s).prepReturn = s.prepReturn := rfl
@[simp] theorem tickStarted_freeCount : (tickStarted s).freeCount = s.freeCount := rfl

/-! segWrite -/

@[simp] theorem segWrite_counter (i : Nat) (w : SegWord) : (segWrite i w s).counter = s.counter := rfl
@[simp] theorem segWrite_segmentSteps (i : Nat) (w : SegWord) : (segWrite i w s).segmentSteps = s.segmentSteps := rfl
@[simp] theorem segWrite_counterD (i : Nat) (w : SegWord) : (segWrite i w s).counterD = s.counterD := rfl
@[simp] theorem segWrite_rate (i : Nat) (w : SegWord) : (segWrite i w s).rate = s.rate := rfl
@[simp] theorem segWrite_deltaD (i : Nat) (w : SegWord) : (segWrite i w s).deltaD = s.deltaD := rfl
@[simp] theorem segWrite_outBits (i : Nat) (w : SegWord) : (segWrite i w s).outBits = s.outBits := rfl
@[simp] theorem segWrite_staged (i : Nat) (w : SegWord) : (segWrite i w s).staged = s.staged := rfl
@[simp] theorem segWrite_rampState (i : Nat) (w : SegWord) : (segWrite i w s).rampState = s.rampState := rfl
@[simp] theorem segWrite_rampCount (i : Nat) (w : SegWord) : (segWrite i w s).rampCount = s.rampCount := rfl
@[simp] theorem segWrite_loadState (i : Nat) (w : SegWord) : (segWrite i w s).loadState = s.loadState := rfl
@[simp] theorem segWrite_busy (i : Nat) (w : SegWord) : (segWrite i w s).busy = s.busy := rfl
@[simp] theorem segWrite_curBlock (i : Nat) (w : SegWord) : (segWrite i w s).curBlock = s.curBlock := rfl
@[simp] theorem segWrite_curFlag (i : Nat) (w : SegWord) : (segWrite i w s).curFlag = s.curFlag := rfl
@[simp] theorem segWrite_curData (i : Nat) (w : SegWord) : (segWrite i w s).curData = s.curData := rfl
@[simp] theorem segWrite_tail (i : Nat) (w : SegWord) : (segWrite i w s).tail = s.tail := rfl
@[simp] theorem segWrite_head (i : Nat) (w : SegWord) : (segWrite i w s).head = s.head := rfl
@[simp] theorem segWrite_nextHead (i : Nat) (w : SegWord) : (segWrite i w s).nextHead = s.nextHead := rfl
@[simp] theorem segWrite_prepBlock (i : Nat) (w : SegWord) : (segWrite i w s).prepBlock = s.prepBlock := rfl
@[simp] theorem segWrite_prepIndex (i : Nat) (w : SegWord) : (segWrite i w s).prepIndex = s.prepIndex := rfl
@[simp] theorem segWrite_dataPrepIndex (i : Nat) (w : SegWord) : (segWrite i w s).dataPrepIndex = s.dataPrepIndex := rfl
@[simp] theorem segWrite_mem (i : Nat) (w : SegWord) : (segWrite i w s).mem = ⟨cellSet 0 s.mem.seg i w, s.mem.data⟩ := rfl
@[simp] theorem segWrite_position (i : Nat) (w : SegWord) : (segWrite i w s).position = s.position := rfl
@[simp] theorem segWrite_runState (i : Nat) (w : SegWord) : (segWrite i w s).runState = s.runState := rfl
@[simp] theorem segWrite_cfg (i : Nat) (w : SegWord) : (segWrite i w s).cfg = s.cfg := rfl
@[simp] theorem segWrite_accelPeriod (i : Nat) (w : SegWord) : (segWrite i w s).accelPeriod = s.accelPeriod := rfl
@[simp] theorem segWrite_pins (i : Nat) (w : SegWord) : (segWrite i w s).pins = s.pins := rfl
@[simp] theorem segWrite_disableLine (i : Nat) (w : SegWord) : (segWrite i w s).disableLine = s.disableLine := rfl
@[simp] theorem segWrite_tickEnabled (i : Nat) (w : SegWord) : (segWrite i w s).tickEnabled = s.tickEnabled := rfl
@[simp] theorem segWrite_pulseArmed (i : Nat) (w : SegWord) : (segWrite i w s).pulseArmed = s.pulseArmed := rfl
@[simp] theorem segWrite_cycleStop (i : Nat) (w : SegWord) : (segWrite i w s).cycleStop = s.cycleStop := rfl
@[simp] theorem segWrite_overrunCount (i : Nat) (w : SegWord) : (segWrite i w s).overrunCount = s.overrunCount := rfl
@[simp] theorem segWrite_fault (i : Nat) (w : SegWord) : (segWrite i w s).fault = s.fault := rfl
@[simp] theorem segWrite_planner (i : Nat) (w : SegWord) : (segWrite i w s).planner = s.planner := rfl
@[simp] theorem segWrite_supplied (i : Nat) (w : SegWord) : (segWrite i w s).supplied = s.supplied := rfl
@[simp] theorem segWrite_inputs (i : Nat) (w : SegWord) : (segWrite i w s).inputs = s.inputs := rfl
@[simp] theorem segWrite_preparing (i : Nat) (w : SegWord) : (segWrite i w s).preparing = s.preparing := rfl
@[simp] theorem segWrite_prepReturn (i : Nat) (w : SegWord) : (segWrite i w s).prepReturn = s.prepReturn := rfl
@[simp] theorem segWrite_freeCount (i : Nat) (w : SegWord) : (segWrite i w s).freeCount = s.freeCount := rfl

/-! dataWrite -/

@[simp] theorem dataWrite_counter (i : Nat) (d : SegmentData) : (dataWrite i d s).counter = s.counter := rfl
@[simp] theorem dataWrite_segmentSteps (i : Nat) (d : SegmentData) : (dataWrite i d s).segmentSteps = s.segmentSteps := rfl
@[simp] theorem dataWrite_counterD (i : Nat) (d : SegmentData) : (dataWrite i d s).counterD = s.counterD := rfl
@[simp] theorem dataWrite_rate (i : Nat) (d : SegmentData) : (dataWrite i d s).rate = s.rate := rfl
@[simp] theorem dataWrite_deltaD (i : Nat) (d : SegmentData) : (dataWrite i d s).deltaD = s.deltaD := rfl
@[simp] theorem dataWrite_outBits (i : Nat) (d : SegmentData) : (dataWrite i d s).outBits = s.outBits := rfl
@[simp] theorem dataWrite_staged (i : Nat) (d : SegmentData) : (dataWrite i d s).staged = s.staged := rfl
@[simp] theorem dataWrite_rampState (i : Nat) (d : SegmentData) : (dataWrite i d s).rampState = s.rampState := rfl
@[simp] theorem dataWrite_rampCount (i : Nat) (d : SegmentData) : (dataWrite i d s).rampCount = s.rampCount := rfl
@[simp] theorem dataWrite_loadState (i : Nat) (d : SegmentData) : (dataWrite i d s).loadState = s.loadState := rfl
@[simp] theorem dataWrite_busy (i : Nat) (d : SegmentData) : (dataWrite i d s).busy = s.busy := rfl
@[simp] theorem dataWrite_curBlock (i : Nat) (d : SegmentData) : (dataWrite i d s).curBlock = s.curBlock := rfl
@[simp] theorem dataWrite_curFlag (i : Nat) (d : SegmentData) : (dataWrite i d s).curFlag = s.curFlag := rfl
@[simp] theorem dataWrite_curData (i : Nat) (d : SegmentData) : (dataWrite i d s).curData = s.curData := rfl
@[simp] theorem dataWrite_tail (i : Nat) (d : SegmentData) : (dataWrite i d s).tail = s.tail := rfl
@[simp] theorem dataWrite_head (i : Nat) (d : SegmentData) : (dataWrite i d s).head = s.head := rfl
@[simp] theorem dataWrite_nextHead (i : Nat) (d : SegmentData) : (dataWrite i d s).nextHead = s.nextHead := rfl
@[simp] theorem dataWrite_prepBlock (i : Nat) (d : SegmentData) : (dataWrite i d s).prepBlock = s.prepBlock := rfl
@[simp] theorem dataWrite_prepIndex (i : Nat) (d : SegmentData) : (dataWrite i d s).prepIndex = s.prepIndex := rfl
@[simp] theorem dataWrite_dataPrepIndex (i : Nat) (d : SegmentData) : (dataWrite i d s).dataPrepIndex = s.dataPrepIndex := rfl
@[simp] theorem dataWrite_mem (i : Nat) (d : SegmentData) : (dataWrite i d s).mem = ⟨s.mem.seg, cellSet SegmentData.unwritten s.mem.data i d⟩ := rfl
@[simp] theorem dataWrite_position (i : Nat) (d : SegmentData) : (dataWrite i d s).position = s.position := rfl
@[simp] theorem dataWrite_runState (i : Nat) (d : SegmentData) : (dataWrite i d s).runState = s.runState := rfl
@[simp] theorem dataWrite_cfg (i : Nat) (d : SegmentData) : (dataWrite i d s).cfg = s.cfg := rfl
@[simp] theorem dataWrite_accelPeriod (i : Nat) (d : SegmentData) : (dataWrite i d s).accelPeriod = s.accelPeriod := rfl
@[simp] theorem dataWrite_pins (i : Nat) (d : SegmentData) : (dataWrite i d s).pins = s.pins := rfl
@[simp] theorem dataWrite_disableLine (i : Nat) (d : SegmentData) : (dataWrite i d s).disableLine = s.disableLine := rfl
@[simp] theorem dataWrite_tickEnabled (i : Nat) (d : SegmentData) : (dataWrite i d s).tickEnabled = s.tickEnabled := rfl
@[simp] theorem dataWrite_pulseArmed (i : Nat) (d : SegmentData) : (dataWrite i d s).pulseArmed = s.pulseArmed := rfl
@[simp] theorem dataWrite_cycleStop (i : Nat) (d : SegmentData) : (dataWrite i d s).cycleStop = s.cycleStop := rfl
@[simp] theorem dataWrite_overrunCount (i : Nat) (d : SegmentData) : (dataWrite i d s).overrunCount = s.overrunCount := rfl
@[simp] theorem dataWrite_fault (i : Nat) (d : SegmentData) : (dataWrite i d s).fault = s.fault := rfl
@[simp] theorem dataWrite_planner (i : Nat) (d : SegmentData) : (dataWrite i d s).planner = s.planner := rfl
@[simp] theorem dataWrite_supplied (i : Nat) (d : SegmentData) : (dataWrite i d s).supplied = s.supplied := rfl
@[simp] theorem dataWrite_inputs (i : Nat) (d : SegmentData) : (dataWrite i d s).inputs = s.inputs := rfl
@[simp] theorem dataWrite_preparing (i : Nat) (d : SegmentData) : (dataWrite i d s).preparing = s.preparing := rfl
@[simp] theorem dataWrite_prepReturn (i : Nat) (d : SegmentData) : (dataWrite i d s).prepReturn = s.prepReturn := rfl
@[simp] theorem dataWrite_freeCount (i : Nat) (d : SegmentData) : (dataWrite i d s).freeCount = s.freeCount := rfl

/-! discardCurrentBlock -/

@[simp] theorem discardCurrentBlock_counter : (discardCurrentBlock s).counter = s.counter := rfl
@[simp] theorem discardCurrentBlock_segmentSteps : (discardCurrentBlock s).segmentSteps = s.segmentSteps := rfl
@[simp] theorem discardCurrentBlock_counterD : (discardCurrentBlock s).counterD = s.counterD := rfl
@[simp] theorem discardCurrentBlock_rate : (discardCurrentBlock s).rate = s.rate := rfl
@[simp] theorem discardCurrentBlock_deltaD : (discardCurrentBlock s).deltaD = s.deltaD := rfl
@[simp] theorem discardCurrentBlock_outBits : (discardCurrentBlock s).outBits = s.outBits := rfl
@[simp] theorem discardCurrentBlock_staged : (discardCurrentBlock s).staged = s.staged := rfl
@[simp] theorem discardCurrentBlock_rampState : (discardCurrentBlock s).rampState = s.rampState := rfl
@[simp] theorem discardCurrentBlock_rampCount : (discardCurrentBlock s).rampCount = s.rampCount := rfl
@[simp] theorem discardCurrentBlock_loadState : (discardCurrentBlock s).loadState = s.loadState := rfl
@[simp] theorem discardCurrentBlock_busy : (discardCurrentBlock s).busy = s.busy := rfl
@[simp] theorem discardCurrentBlock_curBlock : (discardCurrentBlock s).curBlock = s.curBlock := rfl
@[simp] theorem discardCurrentBlock_curFlag : (discardCurrentBlock s).curFlag = s.curFlag := rfl
@[simp] theorem discardCurrentBlock_curData : (discardCurrentBlock s).curData = s.curData := rfl
@[simp] theorem discardCurrentBlock_tail : (discardCurrentBlock s).tail = s.tail := rfl
@[simp] theorem discardCurrentBlock_head : (discardCurrentBlock s).head = s.head := rfl
@[simp] theorem discardCurrentBlock_nextHead : (discardCurrentBlock s).nextHead = s.nextHead := rfl
@[simp] theorem discardCurrentBlock_prepBlock : (discardCurrentBlock s).prepBlock = s.prepBlock := rfl
@[simp] theorem discardCurrentBlock_prepIndex : (discardCurrentBlock s).prepIndex = s.prepIndex := rfl
@[simp] theorem discardCurrentBlock_dataPrepIndex : (discardCurrentBlock s).dataPrepIndex = s.dataPrepIndex := rfl
@[simp] theorem discardCurrentBlock_mem : (discardCurrentBlock s).mem = s.mem := rfl
@[simp] theorem discardCurrentBlock_position : (discardCurrentBlock s).position = s.position := rfl
@[simp] theorem discardCurrentBlock_runState : (discardCurrentBlock s).runState = s.runState := rfl
@[simp] theorem discardCurrentBlock_cfg : (discardCurrentBlock s).cfg = s.cfg := rfl
@[simp] theorem discardCurrentBlock_accelPeriod : (discardCurrentBlock s).accelPeriod = s.accelPeriod := rfl
@[simp] theorem discardCurrentBlock_pins : (discardCurrentBlock s).pins = s.pins := rfl
@[simp] theorem discardCurrentBlock_disableLine : (discardCurrentBlock s).disableLine = s.disableLine := rfl
@[simp] theorem discardCurrentBlock_tickEnabled : (discardCurrentBlock s).tickEnabled = s.tickEnabled := rfl
@[simp] theorem discardCurrentBlock_pulseArmed : (discardCurrentBlock s).pulseArmed = s.pulseArmed := rfl
@[simp] theorem discardCurrentBlock_cycleStop : (discardCurrentBlock s).cycleStop = s.cycleStop := rfl
@[simp] theorem discardCurrentBlock_overrunCount : (discardCurrentBlock s).overrunCount = s.overrunCount := rfl
@[simp] theorem discardCurrentBlock_fault : (discardCurrentBlock s).fault = s.fault := rfl
@[simp] theorem discardCurrentBlock_planner : (discardCurrentBlock s).planner = s.planner.tail := rfl
@[simp] theorem discardCurrentBlock_supplied : (discardCurrentBlock s).supplied = s.supplied := rfl
@[simp] theorem discardCurrentBlock_inputs : (discardCurrentBlock s).inputs = s.inputs := rfl
@[simp] theorem discardCurrentBlock_preparing : (discardCurrentBlock s).preparing = s.preparing := rfl
@[simp] theorem discardCurrentBlock_prepReturn : (discardCurrentBlock s).prepReturn = s.prepReturn := rfl
@[simp] theorem discardCurrentBlock_freeCount : (discardCurrentBlock s).freeCount = s.freeCount := rfl

/-! latch -/

@[simp] theorem latch_counter (d : Descriptor) : (latch d s).counter = s.counter := rfl
@[simp] theorem latch_segmentSteps (d : Descriptor) : (latch d s).segmentSteps = d.count.toNat := rfl
@[simp] theorem latch_counterD (d : Descriptor) : (latch d s).counterD = s.counterD := rfl
@[simp] theorem latch_rate (d : Descriptor) : (latch d s).rate = s.rate := rfl
@[simp] theorem latch_deltaD (d : Descriptor) : (latch d s).deltaD = s.deltaD := rfl
@[simp] theorem latch_outBits (d : Descriptor) : (latch d s).outBits = s.outBits := rfl
@[simp] theorem latch_staged (d : Descriptor) : (latch d s).staged = s.staged := rfl
@[simp] theorem latch_rampState (d : Descriptor) : (latch d s).rampState = s.rampState := rfl
@[simp] theorem latch_rampCount (d : Descriptor) : (latch d s).rampCount = s.rampCount := rfl
@[simp] theorem latch_loadState (d : Descriptor) : (latch d s).loadState = s.loadState := rfl
@[simp] theorem latch_busy (d : Descriptor) : (latch d s).busy = s.busy := rfl
@[simp] theorem latch_curBlock (d : Descriptor) : (latch d s).curBlock = s.curBlock := rfl
@[simp] theorem latch_curFlag (d : Descriptor) : (latch d s).curFlag = d.flag := rfl
@[simp] theorem latch_curData (d : Descriptor) : (latch d s).curData = d.index.toNat := rfl
@[simp] theorem latch_tail (d : Descriptor) : (latch d s).tail = s.tail := rfl
@[simp] theorem latch_head (d : Descriptor) : (latch d s).head = s.head := rfl
@[simp] theorem latch_nextHead (d : Descriptor) : (latch d s).nextHead = s.nextHead := rfl
@[simp] theorem latch_prepBlock (d : Descriptor) : (latch d s).prepBlock = s.prepBlock := rfl
@[simp] theorem latch_prepIndex (d : Descriptor) : (latch d s).prepIndex = s.prepIndex := rfl
@[simp] theorem latch_dataPrepIndex (d : Descriptor) : (latch d s).dataPrepIndex = s.dataPrepIndex := rfl
@[simp] theorem latch_mem (d : Descriptor) : (latch d s).mem = s.mem := rfl
@[simp] theorem latch_position (d : Descriptor) : (latch d s).position = s.position := rfl
@[simp] theorem latch_runState (d : Descriptor) : (latch d s).runState = s.runState := rfl
@[simp] theorem latch_cfg (d : Descriptor) : (latch d s).cfg = s.cfg := rfl
@[simp] theorem latch_accelPeriod (d : Descriptor) : (latch d s).accelPeriod = s.accelPeriod := rfl
@[simp] theorem latch_pins (d : Descriptor) : (latch d s).pins = s.pins := rfl
@[simp] theorem latch_disableLine (d : Descriptor) : (latch d s).disableLine = s.disableLine := rfl
@[simp] theorem latch_tickEnabled (d : Descriptor) : (latch d s).tickEnabled = s.tickEnabled := rfl
@[simp] theorem latch_pulseArmed (d : Descriptor) : (latch d s).pulseArmed = s.pulseArmed := rfl
@[simp] theorem latch_cycleStop (d : Descriptor) : (latch d s).cycleStop = s.cycleStop := rfl
@[simp] theorem latch_overrunCount (d : Descriptor) : (latch d s).overrunCount = s.overrunCount := rfl
@[simp] theorem latch_fault (d : Descriptor) : (latch d s).fault = s.fault := rfl
@[simp] theorem latch_planner (d : Descriptor) : (latch d s).planner = s.planner := rfl
@[simp] theorem latch_supplied (d : Descriptor) : (latch d s).supplied = s.supplied := rfl
@[simp] theorem latch_inputs (d : Descriptor) : (latch d s).inputs = s.inputs := rfl
@[simp] theorem latch_preparing (d : Descriptor) : (latch d s).preparing = s.preparing := rfl
@[simp] theorem latch_prepReturn (d : Descriptor) : (latch d s).prepReturn = s.prepReturn := rfl
@[simp] theorem latch_freeCount (d : Descriptor) : (latch d s).freeCount = s.freeCount := rfl

/-! seedBlock -/

@[simp] theorem seedBlock_counter (b : PlannerBlock) : (seedBlock b s).counter = ⟨((b.stepEventCount / 2 : Nat) : Int), ((b.stepEventCount / 2 : Nat) : Int), ((b.stepEventCount / 2 : Nat) : Int)⟩ := rfl
@[simp] theorem seedBlock_segmentSteps (b : PlannerBlock) : (seedBlock b s).segmentSteps = s.segmentSteps := rfl
@[simp] theorem seedBlock_counterD (b : PlannerBlock) : (seedBlock b s).counterD = s.counterD := rfl
@[simp] theorem seedBlock_rate (b : PlannerBlock) : (seedBlock b s).rate = s.rate := rfl
@[simp] theorem seedBlock_deltaD (b : PlannerBlock) : (seedBlock b s).deltaD = s.deltaD := rfl
@[simp] theorem seedBlock_outBits (b : PlannerBlock) : (seedBlock b s).outBits = lineLevels b.directionBits s.cfg.invertMask := rfl
@[simp] theorem seedBlock_staged (b : PlannerBlock) : (seedBlock b s).staged = true := rfl
@[simp] theorem seedBlock_rampState (b : PlannerBlock) : (seedBlock b s).rampState = s.rampState := rfl
@[simp] theorem seedBlock_rampCount (b : PlannerBlock) : (seedBlock b s).rampCount = s.rampCount := rfl
@[simp] theorem seedBlock_loadState (b : PlannerBlock) : (seedBlock b s).loadState = s.loadState := rfl
@[simp] theorem seedBlock_busy (b : PlannerBlock) : (seedBlock b s).busy = s.busy := rfl
@[simp] theorem seedBlock_curBlock (b : PlannerBlock) : (seedBlock b s).curBlock = some b.ident := rfl
@[simp] theorem seedBlock_curFlag (b : PlannerBlock) : (seedBlock b s).curFlag = s.curFlag := rfl
@[simp] theorem seedBlock_curData (b : PlannerBlock) : (seedBlock b s).curData = s.curData := rfl
@[simp] theorem seedBlock_tail (b : PlannerBlock) : (seedBlock b s).tail = s.tail := rfl
@[simp] theorem seedBlock_head (b : PlannerBlock) : (seedBlock b s).head = s.head := rfl
@[simp] theorem seedBlock_nextHead (b : PlannerBlock) : (seedBlock b s).nextHead = s.nextHead := rfl
@[simp] theorem seedBlock_prepBlock (b : PlannerBlock) : (seedBlock b s).prepBlock = s.prepBlock := rfl
@[simp] theorem seedBlock_prepIndex (b : PlannerBlock) : (seedBlock b s).prepIndex = s.prepIndex := rfl
@[simp] theorem seedBlock_dataPrepIndex (b : PlannerBlock) : (seedBlock b s).dataPrepIndex = s.dataPrepIndex := rfl
@[simp] theorem seedBlock_mem (b : PlannerBlock) : (seedBlock b s).mem = s.mem := rfl
@[simp] theorem seedBlock_position (b : PlannerBlock) : (seedBlock b s).position = s.position := rfl
@[simp] theorem seedBlock_runState (b : PlannerBlock) : (seedBlock b s).runState = s.runState := rfl
@[simp] theorem seedBlock_cfg (b : PlannerBlock) : (seedBlock b s).cfg = s.cfg := rfl
@[simp] theorem seedBlock_accelPeriod (b : PlannerBlock) : (seedBlock b s).accelPeriod = s.accelPeriod := rfl
@[simp] theorem seedBlock_pins (b : PlannerBlock) : (seedBlock b s).pins = s.pins := rfl
@[simp] theorem seedBlock_disableLine (b : PlannerBlock) : (seedBlock b s).disableLine = s.disableLine := rfl
@[simp] theorem seedBlock_tickEnabled (b : PlannerBlock) : (seedBlock b s).tickEnabled = s.tickEnabled := rfl
@[simp] theorem seedBlock_pulseArmed (b : PlannerBlock) : (seedBlock b s).pulseArmed = s.pulseArmed := rfl
@[simp] theorem seedBlock_cycleStop (b : PlannerBlock) : (seedBlock b s).cycleStop = s.cycleStop := rfl
@[simp] theorem seedBlock_overrunCount (b : PlannerBlock) : (seedBlock b s).overrunCount = s.overrunCount := rfl
@[simp] theorem seedBlock_fault (b : PlannerBlock) : (seedBlock b s).fault = s.fault := rfl
@[simp] theorem seedBlock_planner (b : PlannerBlock) : (seedBlock b s).planner = s.planner := rfl
@[simp] theorem seedBlock_supplied (b : PlannerBlock) : (seedBlock b s).supplied = s.supplied := rfl
@[simp] theorem seedBlock_inputs (b : PlannerBlock) : (seedBlock b s).inputs = s.inputs := rfl
@[simp] theorem seedBlock_preparing (b : PlannerBlock) : (seedBlock b s).preparing = s.preparing := rfl
@[simp] theorem seedBlock_prepReturn (b : PlannerBlock) : (seedBlock b s).prepReturn = s.prepReturn := rfl
@[simp] theorem seedBlock_freeCount (b : PlannerBlock) : (seedBlock b s).freeCount = s.freeCount := rfl

/-! stageWord -/

@[simp] theorem stageWord_counter (ob : Byte) : (stageWord ob s).counter = s.counter := rfl
@[simp] theorem stageWord_segmentSteps (ob : Byte) : (stageWord ob s).segmentSteps = s.segmentSteps := rfl
@[simp] theorem stageWord_counterD (ob : Byte) : (stageWord ob s).counterD = s.counterD := rfl
@[simp] theorem stageWord_rate (ob : Byte) : (stageWord ob s).rate = s.rate := rfl
@[simp] theorem stageWord_deltaD (ob : Byte) : (stageWord ob s).deltaD = s.deltaD := rfl
@[simp] theorem stageWord_outBits (ob : Byte) : (stageWord ob s).outBits = lineLevels ob s.cfg.invertMask := rfl
@[simp] theorem stageWord_staged (ob : Byte) : (stageWord ob s).staged = true := rfl
@[simp] theorem stageWord_rampState (ob : Byte) : (stageWord ob s).rampState = s.rampState := rfl
@[simp] theorem stageWord_rampCount (ob : Byte) : (stageWord ob s).rampCount = s.rampCount := rfl
@[simp] theorem stageWord_loadState (ob : Byte) : (stageWord ob s).loadState = s.loadState := rfl
@[simp] theorem stageWord_busy (ob : Byte) : (stageWord ob s).busy = s.busy := rfl
@[simp] theorem stageWord_curBlock (ob : Byte) : (stageWord ob s).curBlock = s.curBlock := rfl
@[simp] theorem stageWord_curFlag (ob : Byte) : (stageWord ob s).curFlag = s.curFlag := rfl
@[simp] theorem stageWord_curData (ob : Byte) : (stageWord ob s).curData = s.curData := rfl
@[simp] theorem stageWord_tail (ob : Byte) : (stageWord ob s).tail = s.tail := rfl
@[simp] theorem stageWord_head (ob : Byte) : (stageWord ob s).head = s.head := rfl
@[simp] theorem stageWord_nextHead (ob : Byte) : (stageWord ob s).nextHead = s.nextHead := rfl
@[simp] theorem stageWord_prepBlock (ob : Byte) : (stageWord ob s).prepBlock = s.prepBlock := rfl
@[simp] theorem stageWord_prepIndex (ob : Byte) : (stageWord ob s).prepIndex = s.prepIndex := rfl
@[simp] theorem stageWord_dataPrepIndex (ob : Byte) : (stageWord ob s).dataPrepIndex = s.dataPrepIndex := rfl
@[simp] theorem stageWord_mem (ob : Byte) : (stageWord ob s).mem = s.mem := rfl
@[simp] theorem stageWord_position (ob : Byte) : (stageWord ob s).position = s.position := rfl
@[simp] theorem stageWord_runState (ob : Byte) : (stageWord ob s).runState = s.runState := rfl
@[simp] theorem stageWord_cfg (ob : Byte) : (stageWord ob s).cfg = s.cfg := rfl
@[simp] theorem stageWord_accelPeriod (ob : Byte) : (stageWord ob s).accelPeriod = s.accelPeriod := rfl
@[simp] theorem stageWord_pins (ob : Byte) : (stageWord ob s).pins = s.pins := rfl
@[simp] theorem stageWord_disableLine (ob : Byte) : (stageWord ob s).disableLine = s.disableLine := rfl
@[simp] theorem stageWord_tickEnabled (ob : Byte) : (stageWord ob s).tickEnabled = s.tickEnabled := rfl
@[simp] theorem stageWord_pulseArmed (ob : Byte) : (stageWord ob s).pulseArmed = s.pulseArmed := rfl
@[simp] theorem stageWord_cycleStop (ob : Byte) : (stageWord ob s).cycleStop = s.cycleStop := rfl
@[simp] theorem stageWord_overrunCount (ob : Byte) : (stageWord ob s).overrunCount = s.overrunCount := rfl
@[simp] theorem stageWord_fault (ob : Byte) : (stageWord ob s).fault = s.fault := rfl
@[simp] theorem stageWord_planner (ob : Byte) : (stageWord ob s).planner = s.planner := rfl
@[simp] theorem stageWord_supplied (ob : Byte) : (stageWord ob s).supplied = s.supplied := rfl
@[simp] theorem stageWord_inputs (ob : Byte) : (stageWord ob s).inputs = s.inputs := rfl
@[simp] theorem stageWord_preparing (ob : Byte) : (stageWord ob s).preparing = s.preparing := rfl
@[simp] theorem stageWord_prepReturn (ob : Byte) : (stageWord ob s).prepReturn = s.prepReturn := rfl
@[simp] theorem stageWord_freeCount (ob : Byte) : (stageWord ob s).freeCount = s.freeCount := rfl

/-! prepDone -/

@[simp] theorem prepDone_counter : (prepDone s).counter = s.counter := rfl
@[simp] theorem prepDone_segmentSteps : (prepDone s).segmentSteps = s.segmentSteps := rfl
@[simp] theorem prepDone_counterD : (prepDone s).counterD = s.counterD := rfl
@[simp] theorem prepDone_rate : (prepDone s).rate = s.rate := rfl
@[simp] theorem prepDone_deltaD : (prepDone s).deltaD = s.deltaD := rfl
@[simp] theorem prepDone_outBits : (prepDone s).outBits = s.outBits := rfl
@[simp] theorem prepDone_staged : (prepDone s).staged = s.staged := rfl
@[simp] theorem prepDone_rampState : (prepDone s).rampState = s.rampState := rfl
@[simp] theorem prepDone_rampCount : (prepDone s).rampCount = s.rampCount := rfl
@[simp] theorem prepDone_loadState : (prepDone s).loadState = s.loadState := rfl
@[simp] theorem prepDone_busy : (prepDone s).busy = s.busy := rfl
@[simp] theorem prepDone_curBlock : (prepDone s).curBlock = s.curBlock := rfl
@[simp] theorem prepDone_curFlag : (prepDone s).curFlag = s.curFlag := rfl
@[simp] theorem prepDone_curData : (prepDone s).curData = s.curData := rfl
@[simp] theorem prepDone_tail : (prepDone s).tail = s.tail := rfl
@[simp] theorem prepDone_head : (prepDone s).head = s.head := rfl
@[simp] theorem prepDone_nextHead : (prepDone s).nextHead = s.nextHead := rfl
@[simp] theorem prepDone_prepBlock : (prepDone s).prepBlock = s.prepBlock := rfl
@[simp] theorem prepDone_prepIndex : (prepDone s).prepIndex = s.prepIndex := rfl
@[simp] theorem prepDone_dataPrepIndex : (prepDone s).dataPrepIndex = s.dataPrepIndex := rfl
@[simp] theorem prepDone_mem : (prepDone s).mem = s.mem := rfl
@[simp] theorem prepDone_position : (prepDone s).position = s.position := rfl
@[simp] theorem prepDone_runState : (prepDone s).runState = s.runState := rfl
@[simp] theorem prepDone_cfg : (prepDone s).cfg = s.cfg := rfl
@[simp] theorem prepDone_accelPeriod : (prepDone s).accelPeriod = s.accelPeriod := rfl
@[simp] theorem prepDone_pins : (prepDone s).pins = s.pins := rfl
@[simp] theorem prepDone_disableLine : (prepDone s).disableLine = s.disableLine := rfl
@[simp] theorem prepDone_tickEnabled : (prepDone s).tickEnabled = s.tickEnabled := rfl
@[simp] theorem prepDone_pulseArmed : (prepDone s).pulseArmed = s.pulseArmed := rfl
@[simp] theorem prepDone_cycleStop : (prepDone s).cycleStop = s.cycleStop := rfl
@[simp] theorem prepDone_overrunCount : (prepDone s).overrunCount = s.overrunCount := rfl
@[simp] theorem prepDone_fault : (prepDone s).fault = s.fault := rfl
@[simp] theorem prepDone_planner : (prepDone s).planner = s.planner := rfl
@[simp] theorem prepDone_supplied : (prepDone s).supplied = s.supplied := rfl
@[simp] theorem prepDone_inputs : (prepDone s).inputs = s.inputs := rfl
@[simp] theorem prepDone_preparing : (prepDone s).preparing = s.preparing := rfl
@[simp] theorem prepDone_prepReturn : (prepDone s).prepReturn = some .done := rfl
@[simp] theorem prepDone_freeCount : (prepDone s).freeCount = s.freeCount := rfl

/-! powerOn -/

@[simp] theorem powerOn_counter (p : Params) : (powerOn p s).counter = ⟨0, 0, 0⟩ := rfl
@[simp] theorem powerOn_segmentSteps (p : Params) : (powerOn p s).segmentSteps = 0 := rfl
@[simp] theorem powerOn_counterD (p : Params) : (powerOn p s).counterD = 0 := rfl
@[simp] theorem powerOn_rate (p : Params) : (powerOn p s).rate = 0 := rfl
@[simp] theorem powerOn_deltaD (p : Params) : (powerOn p s).deltaD = 0 := rfl
@[simp] theorem powerOn_outBits (p : Params) : (powerOn p s).outBits = 0 := rfl
@[simp] theorem powerOn_staged (p : Params) : (powerOn p s).staged = false := rfl
@[simp] theorem powerOn_rampState (p : Params) : (powerOn p s).rampState = .cruise := rfl
@[simp] theorem powerOn_rampCount (p : Params) : (powerOn p s).rampCount = 0 := rfl
@[simp] theorem powerOn_loadState (p : Params) : (powerOn p s).loadState = .loadBlock := rfl
@[simp] theorem powerOn_busy (p : Params) : (powerOn p s).busy = false := rfl
@[simp] theorem powerOn_curBlock (p : Params) : (powerOn p s).curBlock = none := rfl
@[simp] theorem powerOn_curFlag (p : Params) : (powerOn p s).curFlag = .noop := rfl
@[simp] theorem powerOn_curData (p : Params) : (powerOn p s).curData = 0 := rfl
@[simp] theorem powerOn_tail (p : Params) : (powerOn p s).tail = 0 := rfl
@[simp] theorem powerOn_head (p : Params) : (powerOn p s).head = 0 := rfl
@[simp] theorem powerOn_nextHead (p : Params) : (powerOn p s).nextHead = 1 := rfl
@[simp] theorem powerOn_prepBlock (p : Params) : (powerOn p s).prepBlock = none := rfl
@[simp] theorem powerOn_prepIndex (p : Params) : (powerOn p s).prepIndex = 0 := rfl
@[simp] theorem powerOn_dataPrepIndex (p : Params) : (powerOn p s).dataPrepIndex = 0 := rfl
@[simp] theorem powerOn_mem (p : Params) : (powerOn p s).mem = s.mem := rfl
@[simp] theorem powerOn_position (p : Params) : (powerOn p s).position = ⟨0, 0, 0⟩ := rfl
@[simp] theorem powerOn_runState (p : Params) : (powerOn p s).runState = .idle := rfl
@[simp] theorem powerOn_cfg (p : Params) : (powerOn p s).cfg = heldParams p := rfl
@[simp] theorem powerOn_accelPeriod (p : Params) : (powerOn p s).accelPeriod = (accelPeriodOf p).toNat := rfl
@[simp] theorem powerOn_pins (p : Params) : (powerOn p s).pins = p.invertMask &&& outMask := rfl
@[simp] theorem powerOn_disableLine (p : Params) : (powerOn p s).disableLine = 1 - p.invertEnable := rfl
@[simp] theorem powerOn_tickEnabled (p : Params) : (powerOn p s).tickEnabled = false := rfl
@[simp] theorem powerOn_pulseArmed (p : Params) : (powerOn p s).pulseArmed = false := rfl
@[simp] theorem powerOn_cycleStop (p : Params) : (powerOn p s).cycleStop = false := rfl
@[simp] theorem powerOn_overrunCount (p : Params) : (powerOn p s).overrunCount = 0 := rfl
@[simp] theorem powerOn_fault (p : Params) : (powerOn p s).fault = none := rfl
@[simp] theorem powerOn_planner (p : Params) : (powerOn p s).planner = s.planner := rfl
@[simp] theorem powerOn_supplied (p : Params) : (powerOn p s).supplied = s.supplied := rfl
@[simp] theorem powerOn_inputs (p : Params) : (powerOn p s).inputs = s.inputs := rfl
@[simp] theorem powerOn_preparing (p : Params) : (powerOn p s).preparing = false := rfl
@[simp] theorem powerOn_prepReturn (p : Params) : (powerOn p s).prepReturn = none := rfl
@[simp] theorem powerOn_freeCount (p : Params) : (powerOn p s).freeCount = s.freeCount := rfl

/-! publish -/

@[simp] theorem publish_counter (n slot : Nat) (flag : SegFlag) : (publish n slot flag s).counter = s.counter := rfl
@[simp] theorem publish_segmentSteps (n slot : Nat) (flag : SegFlag) : (publish n slot flag s).segmentSteps = s.segmentSteps := rfl
@[simp] theorem publish_counterD (n slot : Nat) (flag : SegFlag) : (publish n slot flag s).counterD = s.counterD := rfl
@[simp] theorem publish_rate (n slot : Nat) (flag : SegFlag) : (publish n slot flag s).rate = s.rate := rfl
@[simp] theorem publish_deltaD (n slot : Nat) (flag : SegFlag) : (publish n slot flag s).deltaD = s.deltaD := rfl
@[simp] theorem publish_outBits (n slot : Nat) (flag : SegFlag) : (publish n slot flag s).outBits = s.outBits := rfl
@[simp] theorem publish_staged (n slot : Nat) (flag : SegFlag) : (publish n slot flag s).staged = s.staged := rfl
@[simp] theorem publish_rampState (n slot : Nat) (flag : SegFlag) : (publish n slot flag s).rampState = s.rampState := rfl
@[simp] theorem publish_rampCount (n slot : Nat) (flag : SegFlag) : (publish n slot flag s).rampCount = s.rampCount := rfl
@[simp] theorem publish_loadState (n slot : Nat) (flag : SegFlag) : (publish n slot flag s).loadState = s.loadState := rfl
@[simp] theorem publish_busy (n slot : Nat) (flag : SegFlag) : (publish n slot flag s).busy = s.busy := rfl
@[simp] theorem publish_curBlock (n slot : Nat) (flag : SegFlag) : (publish n slot flag s).curBlock = s.curBlock := rfl
@[simp] theorem publish_curFlag (n slot : Nat) (flag : SegFlag) : (publish n slot flag s).curFlag = s.curFlag := rfl
@[simp] theorem publish_curData (n slot : Nat) (flag : SegFlag) : (publish n slot flag s).curData = s.curData := rfl
@[simp] theorem publish_tail (n slot : Nat) (flag : SegFlag) : (publish n slot flag s).tail = s.tail := rfl
@[simp] theorem publish_head (n slot : Nat) (flag : SegFlag) : (publish n slot flag s).head = s.nextHead := rfl
@[simp] theorem publish_nextHead (n slot : Nat) (flag : SegFlag) : (publish n slot flag s).nextHead = ringNext s s.nextHead := rfl
@[simp] theorem publish_prepBlock (n slot : Nat) (flag : SegFlag) : (publish n slot flag s).prepBlock = s.prepBlock := rfl
@[simp] theorem publish_prepIndex (n slot : Nat) (flag : SegFlag) : (publish n slot flag s).prepIndex = s.prepIndex := rfl
@[simp] theorem publish_dataPrepIndex (n slot : Nat) (flag : SegFlag) : (publish n slot flag s).dataPrepIndex = s.dataPrepIndex := rfl
@[simp] theorem publish_mem (n slot : Nat) (flag : SegFlag) : (publish n slot flag s).mem = ⟨cellSet 0 s.mem.seg s.head (encodeDescriptor ⟨BitVec.ofNat 8 n, BitVec.ofNat 4 slot, flag⟩), s.mem.data⟩ := rfl
@[simp] theorem publish_position (n slot : Nat) (flag : SegFlag) : (publish n slot flag s).position = s.position := rfl
@[simp] theorem publish_runState (n slot : Nat) (flag : SegFlag) : (publish n slot flag s).runState = s.runState := rfl
@[simp] theorem publish_cfg (n slot : Nat) (flag : SegFlag) : (publish n slot flag s).cfg = s.cfg := rfl
@[simp] theorem publish_accelPeriod (n slot : Nat) (flag : SegFlag) : (publish n slot flag s).accelPeriod = s.accelPeriod := rfl
@[simp] theorem publish_pins (n slot : Nat) (flag : SegFlag) : (publish n slot flag s).pins = s.pins := rfl
@[simp] theorem publish_disableLine (n slot : Nat) (flag : SegFlag) : (publish n slot flag s).disableLine = s.disableLine := rfl
@[simp] theorem publish_tickEnabled (n slot : Nat) (flag : SegFlag) : (publish n slot flag s).tickEnabled = s.tickEnabled := rfl
@[simp] theorem publish_pulseArmed (n slot : Nat) (flag : SegFlag) : (publish n slot flag s).pulseArmed = s.pulseArmed := rfl
@[simp] theorem publish_cycleStop (n slot : Nat) (flag : SegFlag) : (publish n slot flag s).cycleStop = s.cycleStop := rfl
@[simp] theorem publish_overrunCount (n slot : Nat) (flag : SegFlag) : (publish n slot flag s).overrunCount = s.overrunCount := rfl
@[simp] theorem publish_fault (n slot : Nat) (flag : SegFlag) : (publish n slot flag s).fault = s.fault := rfl
@[simp] theorem publish_planner (n slot : Nat) (flag : SegFlag) : (publish n slot flag s).planner = s.planner := rfl
@[simp] theorem publish_supplied (n slot : Nat) (flag : SegFlag) : (publish n slot flag s).supplied = s.supplied := rfl
@[simp] theorem publish_inputs (n slot : Nat) (flag : SegFlag) : (publish n slot flag s).inputs = s.inputs := rfl
@[simp] theorem publish_preparing (n slot : Nat) (flag : SegFlag) : (publish n slot flag s).preparing = s.preparing := rfl
@[simp] theorem publish_prepReturn (n slot : Nat) (flag : SegFlag) : (publish n slot flag s).prepReturn = s.prepReturn := rfl
@[simp] theorem publish_freeCount (n slot : Nat) (flag : SegFlag) : (publish n slot flag s).freeCount = s.freeCount := rfl

/-! woken, the fields it leaves -/

@[simp] theorem woken_counter : (woken s).counter = s.counter := by
  unfold woken; split <;> rfl
@[simp] theorem woken_segmentSteps : (woken s).segmentSteps = s.segmentSteps := by
  unfold woken; split <;> rfl
@[simp] theorem woken_counterD : (woken s).counterD = s.counterD := by
  unfold woken; split <;> rfl
@[simp] theorem woken_rate : (woken s).rate = s.rate := by
  unfold woken; split <;> rfl
@[simp] theorem woken_deltaD : (woken s).deltaD = s.deltaD := by
  unfold woken; split <;> rfl
@[simp] theorem woken_rampState : (woken s).rampState = s.rampState := by
  unfold woken; split <;> rfl
@[simp] theorem woken_rampCount : (woken s).rampCount = s.rampCount := by
  unfold woken; split <;> rfl
@[simp] theorem woken_loadState : (woken s).loadState = s.loadState := by
  unfold woken; split <;> rfl
@[simp] theorem woken_busy : (woken s).busy = s.busy := by
  unfold woken; split <;> rfl
@[simp] theorem woken_curBlock : (woken s).curBlock = s.curBlock := by
  unfold woken; split <;> rfl
@[simp] theorem woken_curFlag : (woken s).curFlag = s.curFlag := by
  unfold woken; split <;> rfl
@[simp] theorem woken_curData : (woken s).curData = s.curData := by
  unfold woken; split <;> rfl
@[simp] theorem woken_tail : (woken s).tail = s.tail := by
  unfold woken; split <;> rfl
@[simp] theorem woken_head : (woken s).head = s.head := by
  unfold woken; split <;> rfl
@[simp] theorem woken_nextHead : (woken s).nextHead = s.nextHead := by
  unfold woken; split <;> rfl
@[simp] theorem woken_prepBlock : (woken s).prepBlock = s.prepBlock := by
  unfold woken; split <;> rfl
@[simp] theorem woken_prepIndex : (woken s).prepIndex = s.prepIndex := by
  unfold woken; split <;> rfl
@[simp] theorem woken_dataPrepIndex : (woken s).dataPrepIndex = s.dataPrepIndex := by
  unfold woken; split <;> rfl
@[simp] theorem woken_mem : (woken s).mem = s.mem := by
  unfold woken; split <;> rfl
@[simp] theorem woken_position : (woken s).position = s.position := by
  unfold woken; split <;> rfl
@[simp] theorem woken_runState : (woken s).runState = s.runState := by
  unfold woken; split <;> rfl
@[simp] theorem woken_cfg : (woken s).cfg = s.cfg := by
  unfold woken; split <;> rfl
@[simp] theorem woken_accelPeriod : (woken s).accelPeriod = s.accelPeriod := by
  unfold woken; split <;> rfl
@[simp] theorem woken_pins : (woken s).pins = s.pins := by
  unfold woken; split <;> rfl
@[simp] theorem woken_pulseArmed : (woken s).pulseArmed = s.pulseArmed := by
  unfold woken; split <;> rfl
@[simp] theorem woken_cycleStop : (woken s).cycleStop = s.cycleStop := by
  unfold woken; split <;> rfl
@[simp] theorem woken_overrunCount : (woken s).overrunCount = s.overrunCount := by
  unfold woken; split <;> rfl
@[simp] theorem woken_fault : (woken s).fault = s.fault := by
  unfold woken; split <;> rfl
@[simp] theorem woken_planner : (woken s).planner = s.planner := by
  unfold woken; split <;> rfl
@[simp] theorem woken_supplied : (woken s).supplied = s.supplied := by
  unfold woken; split <;> rfl
@[simp] theorem woken_inputs : (woken s).inputs = s.inputs := by
  unfold woken; split <;> rfl
@[simp] theorem woken_preparing : (woken s).preparing = s.preparing := by
  unfold woken; split <;> rfl
@[simp] theorem woken_prepReturn : (woken s).prepReturn = s.prepReturn := by
  unfold woken; split <;> rfl
@[simp] theorem woken_freeCount : (woken s).freeCount = s.freeCount := by
  unfold woken; split <;> rfl

/-! countFreeBlock, the fields it leaves -/

@[simp] theorem countFreeBlock_counter : (countFreeBlock s).counter = s.counter := by
  unfold countFreeBlock; split <;> rfl
@[simp] theorem countFreeBlock_segmentSteps : (countFreeBlock s).segmentSteps = s.segmentSteps := by
  unfold countFreeBlock; split <;> rfl
@[simp] theorem countFreeBlock_counterD : (countFreeBlock s).counterD = s.counterD := by
  unfold countFreeBlock; split <;> rfl
@[simp] theorem countFreeBlock_rate : (countFreeBlock s).rate = s.rate := by
  unfold countFreeBlock; split <;> rfl
@[simp] theorem countFreeBlock_deltaD : (countFreeBlock s).deltaD = s.deltaD := by
  unfold countFreeBlock; split <;> rfl
@[simp] theorem countFreeBlock_outBits : (countFreeBlock s).outBits = s.outBits := by
  unfold countFreeBlock; split <;> rfl
@[simp] theorem countFreeBlock_staged : (countFreeBlock s).staged = s.staged := by
  unfold countFreeBlock; split <;> rfl
@[simp] theorem countFreeBlock_rampState : (countFreeBlock s).rampState = s.rampState := by
  unfold countFreeBlock; split <;> rfl
@[simp] theorem countFreeBlock_rampCount : (countFreeBlock s).rampCount = s.rampCount := by
  unfold countFreeBlock; split <;> rfl
@[simp] theorem countFreeBlock_loadState : (countFreeBlock s).loadState = s.loadState := by
  unfold countFreeBlock; split <;> rfl
@[simp] theorem countFreeBlock_busy : (countFreeBlock s).busy = s.busy := by
  unfold countFreeBlock; split <;> rfl
@[simp] theorem countFreeBlock_curBlock : (countFreeBlock s).curBlock = s.curBlock := by
  unfold countFreeBlock; split <;> rfl
@[simp] theorem countFreeBlock_curFlag : (countFreeBlock s).curFlag = s.curFlag := by
  unfold countFreeBlock; split <;> rfl
@[simp] theorem countFreeBlock_curData : (countFreeBlock s).curData = s.curData := by
  unfold countFreeBlock; split <;> rfl
@[simp] theorem countFreeBlock_tail : (countFreeBlock s).tail = s.tail := by
  unfold countFreeBlock; split <;> rfl
@[simp] theorem countFreeBlock_head : (countFreeBlock s).head = s.head := by
  unfold countFreeBlock; split <;> rfl
@[simp] theorem countFreeBlock_nextHead : (countFreeBlock s).nextHead = s.nextHead := by
  unfold countFreeBlock; split <;> rfl
@[simp] theorem countFreeBlock_prepBlock : (countFreeBlock s).prepBlock = s.prepBlock := by
  unfold countFreeBlock; split <;> rfl
@[simp] theorem countFreeBlock_prepIndex : (countFreeBlock s).prepIndex = s.prepIndex := by
  unfold countFreeBlock; split <;> rfl
@[simp] theorem countFreeBlock_dataPrepIndex : (countFreeBlock s).dataPrepIndex = s.dataPrepIndex := by
  unfold countFreeBlock; split <;> rfl
@[simp] theorem countFreeBlock_mem : (countFreeBlock s).mem = s.mem := by
  unfold countFreeBlock; split <;> rfl
@[simp] theorem countFreeBlock_position : (countFreeBlock s).position = s.position := by
  unfold countFreeBlock; split <;> rfl
@[simp] theorem countFreeBlock_runState : (countFreeBlock s).runState = s.runState := by
  unfold countFreeBlock; split <;> rfl
@[simp] theorem countFreeBlock_cfg : (countFreeBlock s).cfg = s.cfg := by
  unfold countFreeBlock; split <;> rfl
@[simp] theorem countFreeBlock_accelPeriod : (countFreeBlock s).accelPeriod = s.accelPeriod := by
  unfold countFreeBlock; split <;> rfl
@[simp] theorem countFreeBlock_pins : (countFreeBlock s).pins = s.pins := by
  unfold countFreeBlock; split <;> rfl
@[simp] theorem countFreeBlock_disableLine : (countFreeBlock s).disableLine = s.disableLine := by
  unfold countFreeBlock; split <;> rfl
@[simp] theorem countFreeBlock_tickEnabled : (countFreeBlock s).tickEnabled = s.tickEnabled := by
  unfold countFreeBlock; split <;> rfl
@[simp] theorem countFreeBlock_pulseArmed : (countFreeBlock s).pulseArmed = s.pulseArmed := by
  unfold countFreeBlock; split <;> rfl
@[simp] theorem countFreeBlock_cycleStop : (countFreeBlock s).cycleStop = s.cycleStop := by
  unfold countFreeBlock; split <;> rfl
@[simp] theorem countFreeBlock_overrunCount : (countFreeBlock s).overrunCount = s.overrunCount := by
  unfold countFreeBlock; split <;> rfl
@[simp] theorem countFreeBlock_fault : (countFreeBlock s).fault = s.fault := by
  unfold countFreeBlock; split <;> rfl
@[simp] theorem countFreeBlock_planner : (countFreeBlock s).planner = s.planner := by
  unfold countFreeBlock; split <;> rfl
@[simp] theorem countFreeBlock_supplied : (countFreeBlock s).supplied = s.supplied := by
  unfold countFreeBlock; split <;> rfl
@[simp] theorem countFreeBlock_inputs : (countFreeBlock s).inputs = s.inputs := by
  unfold countFreeBlock; split <;> rfl
@[simp] theorem countFreeBlock_preparing : (countFreeBlock s).preparing = s.preparing := by
  unfold countFreeBlock; split <;> rfl
@[simp] theorem countFreeBlock_prepReturn : (countFreeBlock s).prepReturn = s.prepReturn := by
  unfold countFreeBlock; split <;> rfl

/-! closeBlock, the fields it leaves -/

@[simp] theorem closeBlock_counter (d : SegmentData) : (closeBlock d s).counter = s.counter := by
  unfold closeBlock; split <;> rfl
@[simp] theorem closeBlock_segmentSteps (d : SegmentData) : (closeBlock d s).segmentSteps = s.segmentSteps := by
  unfold closeBlock; split <;> rfl
@[simp] theorem closeBlock_counterD (d : SegmentData) : (closeBlock d s).counterD = s.counterD := by
  unfold closeBlock; split <;> rfl
@[simp] theorem closeBlock_rate (d : SegmentData) : (closeBlock d s).rate = s.rate := by
  unfold closeBlock; split <;> rfl
@[simp] theorem closeBlock_deltaD (d : SegmentData) : (closeBlock d s).deltaD = s.deltaD := by
  unfold closeBlock; split <;> rfl
@[simp] theorem closeBlock_outBits (d : SegmentData) : (closeBlock d s).outBits = s.outBits := by
  unfold closeBlock; split <;> rfl
@[simp] theorem closeBlock_staged (d : SegmentData) : (closeBlock d s).staged = s.staged := by
  unfold closeBlock; split <;> rfl
@[simp] theorem closeBlock_rampState (d : SegmentData) : (closeBlock d s).rampState = s.rampState := by
  unfold closeBlock; split <;> rfl
@[simp] theorem closeBlock_rampCount (d : SegmentData) : (closeBlock d s).rampCount = s.rampCount := by
  unfold closeBlock; split <;> rfl
@[simp] theorem closeBlock_loadState (d : SegmentData) : (closeBlock d s).loadState = s.loadState := by
  unfold closeBlock; split <;> rfl
@[simp] theorem closeBlock_busy (d : SegmentData) : (closeBlock d s).busy = s.busy := by
  unfold closeBlock; split <;> rfl
@[simp] theorem closeBlock_curBlock (d : SegmentData) : (closeBlock d s).curBlock = s.curBlock := by
  unfold closeBlock; split <;> rfl
@[simp] theorem closeBlock_curFlag (d : SegmentData) : (closeBlock d s).curFlag = s.curFlag := by
  unfold closeBlock; split <;> rfl
@[simp] theorem closeBlock_curData (d : SegmentData) : (closeBlock d s).curData = s.curData := by
  unfold closeBlock; split <;> rfl
@[simp] theorem closeBlock_tail (d : SegmentData) : (closeBlock d s).tail = s.tail := by
  unfold closeBlock; split <;> rfl
@[simp] theorem closeBlock_head (d : SegmentData) : (closeBlock d s).head = s.head := by
  unfold closeBlock; split <;> rfl
@[simp] theorem closeBlock_nextHead (d : SegmentData) : (closeBlock d s).nextHead = s.nextHead := by
  unfold closeBlock; split <;> rfl
@[simp] theorem closeBlock_dataPrepIndex (d : SegmentData) : (closeBlock d s).dataPrepIndex = s.dataPrepIndex := by
  unfold closeBlock; split <;> rfl
@[simp] theorem closeBlock_mem (d : SegmentData) : (closeBlock d s).mem = s.mem := by
  unfold closeBlock; split <;> rfl
@[simp] theorem closeBlock_position (d : SegmentData) : (closeBlock d s).position = s.position := by
  unfold closeBlock; split <;> rfl
@[simp] theorem closeBlock_runState (d : SegmentData) : (closeBlock d s).runState = s.runState := by
  unfold closeBlock; split <;> rfl
@[simp] theorem closeBlock_cfg (d : SegmentData) : (closeBlock d s).cfg = s.cfg := by
  unfold closeBlock; split <;> rfl
@[simp] theorem closeBlock_accelPeriod (d : SegmentData) : (closeBlock d s).accelPeriod = s.accelPeriod := by
  unfold closeBlock; split <;> rfl
@[simp] theorem closeBlock_pins (d : SegmentData) : (closeBlock d s).pins = s.pins := by
  unfold closeBlock; split <;> rfl
@[simp] theorem closeBlock_disableLine (d : SegmentData) : (closeBlock d s).disableLine = s.disableLine := by
  unfold closeBlock; split <;> rfl
@[simp] theorem closeBlock_tickEnabled (d : SegmentData) : (closeBlock d s).tickEnabled = s.tickEnabled := by
  unfold closeBlock; split <;> rfl
@[simp] theorem closeBlock_pulseArmed (d : SegmentData) : (closeBlock d s).pulseArmed = s.pulseArmed := by
  unfold closeBlock; split <;> rfl
@[simp] theorem closeBlock_cycleStop (d : SegmentData) : (closeBlock d s).cycleStop = s.cycleStop := by
  unfold closeBlock; split <;> rfl
@[simp] theorem closeBlock_overrunCount (d : SegmentData) : (closeBlock d s).overrunCount = s.overrunCount := by
  unfold closeBlock; split <;> rfl
@[simp] theorem closeBlock_fault (d : SegmentData) : (closeBlock d s).fault = s.fault := by
  unfold closeBlock; split <;> rfl
@[simp] theorem closeBlock_planner (d : SegmentData) : (closeBlock d s).planner = s.planner := by
  unfold closeBlock; split <;> rfl
@[simp] theorem closeBlock_supplied (d : SegmentData) : (closeBlock d s).supplied = s.supplied := by
  unfold closeBlock; split <;> rfl
@[simp] theorem closeBlock_inputs (d : SegmentData) : (closeBlock d s).inputs = s.inputs := by
  unfold closeBlock; split <;> rfl
@[simp] theorem closeBlock_preparing (d : SegmentData) : (closeBlock d s).preparing = s.preparing := by
  unfold closeBlock; split <;> rfl
@[simp] theorem closeBlock_prepReturn (d : SegmentData) : (closeBlock d s).prepReturn = s.prepReturn := by
  unfold closeBlock; split <;> rfl
@[simp] theorem closeBlock_freeCount (d : SegmentData) : (closeBlock d s).freeCount = s.freeCount := by
  unfold closeBlock; split <;> rfl

/-! finishSegment, the fields it leaves -/

@[simp] theorem finishSegment_counter : (finishSegment s).counter = s.counter := by
  unfold finishSegment; split <;> rfl
@[simp] theorem finishSegment_segmentSteps : (finishSegment s).segmentSteps = s.segmentSteps := by
  unfold finishSegment; split <;> rfl
@[simp] theorem finishSegment_counterD : (finishSegment s).counterD = s.counterD := by
  unfold finishSegment; split <;> rfl
@[simp] theorem finishSegment_rate : (finishSegment s).rate = s.rate := by
  unfold finishSegment; split <;> rfl
@[simp] theorem finishSegment_deltaD : (finishSegment s).deltaD = s.deltaD := by
  unfold finishSegment; split <;> rfl
@[simp] theorem finishSegment_outBits : (finishSegment s).outBits = s.outBits := by
  unfold finishSegment; split <;> rfl
@[simp] theorem finishSegment_staged : (finishSegment s).staged = s.staged := by
  unfold finishSegment; split <;> rfl
@[simp] theorem finishSegment_rampState : (finishSegment s).rampState = s.rampState := by
  unfold finishSegment; split <;> rfl
@[simp] theorem finishSegment_rampCount : (finishSegment s).rampCount = s.rampCount := by
  unfold finishSegment; split <;> rfl
@[simp] theorem finishSegment_busy : (finishSegment s).busy = s.busy := by
  unfold finishSegment; split <;> rfl
@[simp] theorem finishSegment_curFlag : (finishSegment s).curFlag = s.curFlag := by
  unfold finishSegment; split <;> rfl
@[simp] theorem finishSegment_curData : (finishSegment s).curData = s.curData := by
  unfold finishSegment; split <;> rfl
@[simp] theorem finishSegment_head : (finishSegment s).head = s.head := by
  unfold finishSegment; split <;> rfl
@[simp] theorem finishSegment_nextHead : (finishSegment s).nextHead = s.nextHead := by
  unfold finishSegment; split <;> rfl
@[simp] theorem finishSegment_prepBlock : (finishSegment s).prepBlock = s.prepBlock := by
  unfold finishSegment; split <;> rfl
@[simp] theorem finishSegment_prepIndex : (finishSegment s).prepIndex = s.prepIndex := by
  unfold finishSegment; split <;> rfl
@[simp] theorem finishSegment_dataPrepIndex : (finishSegment s).dataPrepIndex = s.dataPrepIndex := by
  unfold finishSegment; split <;> rfl
@[simp] theorem finishSegment_mem : (finishSegment s).mem = s.mem := by
  unfold finishSegment; split <;> rfl
@[simp] theorem finishSegment_position : (finishSegment s).position = s.position := by
  unfold finishSegment; split <;> rfl
@[simp] theorem finishSegment_runState : (finishSegment s).runState = s.runState := by
  unfold finishSegment; split <;> rfl
@[simp] theorem finishSegment_cfg : (finishSegment s).cfg = s.cfg := by
  unfold finishSegment; split <;> rfl
@[simp] theorem finishSegment_accelPeriod : (finishSegment s).accelPeriod = s.accelPeriod := by
  unfold finishSegment; split <;> rfl
@[simp] theorem finishSegment_pins : (finishSegment s).pins = s.pins := by
  unfold finishSegment; split <;> rfl
@[simp] theorem finishSegment_disableLine : (finishSegment s).disableLine = s.disableLine := by
  unfold finishSegment; split <;> rfl
@[simp] theorem finishSegment_tickEnabled : (finishSegment s).tickEnabled = s.tickEnabled := by
  unfold finishSegment; split <;> rfl
@[simp] theorem finishSegment_pulseArmed : (finishSegment s).pulseArmed = s.pulseArmed := by
  unfold finishSegment; split <;> rfl
@[simp] theorem finishSegment_cycleStop : (finishSegment s).cycleStop = s.cycleStop := by
  unfold finishSegment; split <;> rfl
@[simp] theorem finishSegment_overrunCount : (finishSegment s).overrunCount = s.overrunCount := by
  unfold finishSegment; split <;> rfl
@[simp] theorem finishSegment_fault : (finishSegment s).fault = s.fault := by
  unfold finishSegment; split <;> rfl
@[simp] theorem finishSegment_supplied : (finishSegment s).supplied = s.supplied := by
  unfold finishSegment; split <;> rfl
@[simp] theorem finishSegment_inputs : (finishSegment s).inputs = s.inputs := by
  unfold finishSegment; split <;> rfl
@[simp] theorem finishSegment_preparing : (finishSegment s).preparing = s.preparing := by
  unfold finishSegment; split <;> rfl
@[simp] theorem finishSegment_prepReturn : (finishSegment s).prepReturn = s.prepReturn := by
  unfold finishSegment; split <;> rfl
@[simp] theorem finishSegment_freeCount : (finishSegment s).freeCount = s.freeCount := by
  unfold finishSegment; split <;> rfl

end Sys2Proof.Machine
end

