-- ==== Sys2Proof/Tests/Slice0.lean ====
section
/-! SUPPORT. Tests: words written out from the encoding tables (30 R301, R311, R312), the vectors of 95_test_vectors.md
(named by their ids), and for each statement with hypotheses a state that meets them. -/

namespace Sys2Proof.Tests
open Sys2Proof.Machine

/-- The next state, if there is one, passes the check. -/
def nextIs (o : Host.Outcome State Fault Refusal) (p : State → Bool) : Bool :=
  match o with
  | .next s => p s
  | .fault _ => false
  | .refused _ => false

/-! ## States -/

/-- Program 1's block: steps (3, 1, 0), Y negative. -/
def block : PlannerBlock where
  ident := 7
  steps := ⟨3, 1, 0⟩
  stepEventCount := 3
  directionBits := 0x10
  entrySpeedSq := 3600
  nominalSpeedSq := 360000
  acceleration := 36000
  millimeters := 1
  breakpoint := 2

/-- A SegmentData record with the rates (initial, nominal, delta, nsd). -/
def record (i n d s : Nat) : SegmentData := ⟨3, i, n, d, s, 0, 0⟩

/-- The tick source runs, a body is pending, segment `w` stands in slot 0 and the record in slot 1. -/
def pending (w : SegWord) (d : SegmentData) : State :=
  { State.reset with
    mem := ⟨[(0, w)], [(1, d)]⟩, head := 1, nextHead := 2, planner := [⟨0, block⟩]
    runState := .running, tickEnabled := true, busy := true, disableLine := 0 }

/-- A body is pending on a loaded segment of the block, in ACCEL. -/
def loaded (d : SegmentData) : State :=
  { pending 0x2102 d with
    loadState := .loadNone, curBlock := some 7, curData := 1, segmentSteps := 2, counter := ⟨1, 1, 1⟩
    counterD := 10, rate := 3, rampState := .accel, rampCount := 2 }

/-- The block's first segment has run; the ring holds the next one. -/
def between (w : SegWord) : State :=
  { loaded (record 3 6 2 10) with loadState := .loadSegment, segmentSteps := 0, mem := ⟨[(0, w)], [(1, record 3 6 2 10)]⟩ }

/-- The pulse of the word on the lines may outlast the tick, and a word is staged. -/
def overlapping (pins : Byte) : State :=
  { loaded (record 3 6 2 10) with
    cfg := { Params.atReset with pulseFits := false }
    busy := false, pulseArmed := true, pins := pins, staged := true, outBits := 0x02 }

/-- The configuration of 95 section 2.2: `K = 50/3`, `K2 = 1/180`. -/
def rateConfig : Params := { Params.atReset with accelTicksPerSecond := 50 }

/-- A planner with one block and an empty ring, under that configuration. -/
def preparable (b : PlannerBlock) : State :=
  { State.reset with cfg := rateConfig, accelPeriod := 20, supplied := rateConfig, planner := [⟨0, b⟩] }

/-- As T-PREP-13: 1000 step events, breakpoint 800. -/
def longBlock : PlannerBlock := { block with steps := ⟨1000, 500, 0⟩, stepEventCount := 1000, millimeters := 10, breakpoint := 800 }

/-! ## WellFormed smoke -/

/-- T-ENC-8: `data_index = 11` in a ring of 10 slots. -/
theorem test_wellFormed_refuses_data_index : (Instr.noop 1 11).wellFormed 10 = false := by decide
/-- T-ENC-9: `step_count = 0`. -/
theorem test_wellFormed_refuses_zero_count : (Instr.decelEob 0 1).wellFormed 10 = false := by decide
/-- T-ENC-5: a count above `SEG_CAP` is well-formed for the engine. -/
theorem test_wellFormed_accepts : (Instr.decelEob 255 15).wellFormed 16 = true := by decide

/-! ## Decoding -/

/-- T-ENC-1 to T-ENC-5: bits 13:12 are the flag, 11:8 the data index, 7:0 the count. -/
theorem test_decode_segments :
    decodeTableWord 16 0b0000000111111010 = some (.noop 250 1) ∧
    decodeTableWord 16 0b0001000111001000 = some (.endOfBlock 200 1) ∧
    decodeTableWord 16 0b0010000100110010 = some (.decel 50 1) ∧
    decodeTableWord 16 0b0011111111111111 = some (.decelEob 255 15) := by decide
/-- T-ENC-6, T-ENC-7: bits 15:14 not 0. -/
theorem test_decode_refuses_reserved_bits :
    decodeTableWord 16 0x4001 = none ∧ decodeTableWord 16 0x4B00 = none ∧ decodeTableWord 16 0x8001 = none := by decide
/-- The command codes of 30 R311. -/
theorem test_decode_commands :
    decodeTableWord 8 0x01 = some .init ∧ decodeTableWord 8 0x02 = some .reset ∧
    decodeTableWord 8 0x03 = some .wakeUp ∧ decodeTableWord 8 0x04 = some .goIdle ∧
    decodeTableWord 8 0x05 = some .cycleStart ∧ decodeTableWord 8 0x06 = some .feedHold ∧
    decodeTableWord 8 0x07 = some .cycleReinitialize ∧ decodeTableWord 8 0x08 = some .prepareSegments ∧
    decodeTableWord 8 0x09 = some .queue ∧ decodeTableWord 8 0x0A = some .clearCycleStop ∧
    decodeTableWord 8 0x0B = some .prepStep := by decide
/-- The event codes of 30 R312. -/
theorem test_decode_events :
    decodeTableWord 8 0x80 = some .tickBegin ∧ decodeTableWord 8 0x81 = some .tickBody ∧
    decodeTableWord 8 0x82 = some .pulseReset := by decide
/-- T-ENC-15, T-ENC-16: reserved codes are rejected by name. -/
theorem test_decode_refuses_reserved_codes :
    decode .byte [0x00] = .error (.reservedCommand 0x00) ∧ decode .byte [0x0C] = .error (.reservedCommand 0x0C) ∧
    decode .byte [0x83] = .error (.reservedEvent 0x83) := by decide
/-- T-ENC-10. -/
theorem test_encode_segment : encode (.endOfBlock 1 9) = [0x01, 0x19] := by decide
/-- T-ENC-11 to T-ENC-13: the X and Y steps, Y negative, under three invert masks. -/
theorem test_line_levels :
    lineLevels 0x13 0x00 = 0x13 ∧ lineLevels 0x13 0x07 = 0x14 ∧ lineLevels 0x13 0xC7 = 0x14 := by decide

/-! ## Tick engine -/

/-- T-TICK-1. -/
theorem test_tickBegin_overrun : nextIs (exec .tickBegin (loaded (record 3 6 2 10)))
    (fun t => t.overrunCount == 1 && t.busy && t.pins == 0) = true := by decide
/-- T-TICK-2, T-FAULT-7, T-FAULT-8. -/
theorem test_tickBegin_emits :
    nextIs (exec .tickBegin { loaded (record 3 6 2 10) with busy := false, staged := true, outBits := 0x09 })
      (fun t => t.pins == 0x09 && t.pulseArmed && !t.staged && t.busy) = true ∧
    nextIs (exec .tickBegin (overlapping 0x01))
      (fun t => t.fault == some (.pulseOverlap 0x01) && t.pins == 0x01 && t.staged && !t.busy) = true ∧
    nextIs (exec .tickBegin (overlapping 0x08)) (fun t => t.fault == none && t.pins == 0x02 && t.pulseArmed) = true := by
  decide
/-- T-TICK-4, T-TICK-5. -/
theorem test_pulseReset :
    nextIs (exec .pulseReset { State.reset with pins := 0x09, pulseArmed := true })
      (fun t => t.pins == 0x08 && !t.pulseArmed) = true ∧
    nextIs (exec .pulseReset
        { State.reset with pins := 0x3F, pulseArmed := true, cfg := { Params.atReset with invertMask := 0x05 } })
      (fun t => t.pins == 0x3D) = true := by decide
/-- T-TICK-16, T-TICK-17: an acceleration tick; equality reaches nominal. -/
theorem test_tickBody_accelerates :
    nextIs (exec .tickBody { loaded (record 3 6 2 10) with rampCount := 1 })
      (fun t => t.rampCount == 4 && t.rate == 5 && t.rampState == .accel) = true ∧
    nextIs (exec .tickBody { loaded (record 3 6 2 10) with rampCount := 1, rate := 5 })
      (fun t => t.rate == 6 && t.rampState == .cruise) = true := by decide
/-- T-TICK-25 to T-TICK-27: a step event of X, and one of X and Y with Y negative. -/
theorem test_tickBody_steps :
    nextIs (exec .tickBody { loaded (record 3 6 2 10) with counterD := 1 })
      (fun t => t.counterD == 8 && t.counter == ⟨1, 0, 1⟩ && t.outBits == 0x11 && t.position == ⟨1, 0, 0⟩ &&
        t.segmentSteps == 1 && t.staged && !t.busy) = true ∧
    nextIs (exec .tickBody { loaded (record 3 6 2 10) with counterD := 1, counter := ⟨1, 0, 1⟩ })
      (fun t => t.counter == ⟨1, 2, 1⟩ && t.outBits == 0x13 && t.position == ⟨1, -1, 0⟩) = true := by decide

/-- T-TICK-9 in DECEL: the block load, the forced deceleration, then the countdown and the tick. -/
theorem test_decel_starts_a_block : nextIs (exec (.decel 2 1) (pending 0x2102 (record 3 6 2 10)))
    (fun t => t.segmentSteps == 2 && t.curFlag == .decel && t.curData == 1 && t.counter == ⟨1, 1, 1⟩ &&
      t.outBits == 0x10 && t.staged && t.rate == 3 && t.rampState == .decel && t.rampCount == 1 && t.counterD == 7 &&
      t.loadState == .loadNone && t.position == ⟨0, 0, 0⟩) = true := by decide
/-- T-TICK-12: the countdown 0 left by the forced deceleration fires at once. -/
theorem test_decel_forces_the_ramp :
    nextIs (exec (.decel 2 1) { between 0x2102 with rampCount := 4, rate := 6, counterD := 5 })
      (fun t => t.rampState == .decel && t.rampCount == 4 && t.rate == 4 && t.counterD == 1) = true := by decide
/-- A NOOP load leaves the ramp as it is (43 R520); its last step event keeps the block (43 R517). -/
theorem test_noop : nextIs (exec (.noop 1 1) { between 0x0101 with counterD := 1, rampState := .cruise })
    (fun t => t.rampState == .cruise && t.segmentSteps == 0 && t.loadState == .loadSegment && t.tail == 1 &&
      t.curBlock == some 7) = true := by decide
/-- T-TICK-29 at the last slot: an END_OF_BLOCK segment's last step event releases the block. -/
theorem test_endOfBlock : nextIs (exec (.endOfBlock 1 1) { between 0x1101 with counterD := 1, tail := 9 })
    (fun t => t.rampState == .accel && t.segmentSteps == 0 && t.loadState == .loadBlock && t.tail == 0 &&
      t.curBlock == none && t.planner.isEmpty) = true := by decide
/-- 43 R523: forced deceleration at load, release at the end. -/
theorem test_decelEob : nextIs (exec (.decelEob 1 1) { between 0x3101 with counterD := 1 })
    (fun t => t.rampState == .decel && t.loadState == .loadBlock && t.planner.isEmpty) = true := by decide
/-- T-FAULT-1 to T-FAULT-3. -/
theorem test_malformed_segments :
    nextIs (exec .tickBody (pending 0x4001 (record 3 6 2 10)))
      (fun t => t.fault == some (.reservedBits 0) && faultCode t == 4 && t.busy) = true ∧
    nextIs (exec .tickBody (pending 0x0B01 (record 3 6 2 10))) (fun t => t.fault == some (.badDataIndex 0)) = true ∧
    nextIs (exec .tickBody (pending 0x0100 (record 3 6 2 10))) (fun t => t.fault == some (.zeroStepSegment 0)) = true := by
  decide

/-! ## Lifecycle -/

/-- T-LIFE-1: RESET leaves the positions. -/
theorem test_reset : nextIs (exec .reset
      { State.reset with tail := 4, head := 7, nextHead := 8, rate := 900, loadState := .loadNone, position := ⟨5, 0, -2⟩ })
    (fun t => t.tail == 0 && t.head == 0 && t.nextHead == 1 && t.rate == 0 && t.loadState == .loadBlock &&
      t.position == ⟨5, 0, -2⟩) = true := by decide
/-- 44 R600: with the tick source running. -/
theorem test_reset_while_running : nextIs (exec .reset { loaded (record 3 6 2 10) with busy := false })
    (fun t => t.fault == some .resetWhileRunning && t.rate == 3) = true := by decide
/-- T-LIFE-3, T-LIFE-4. -/
theorem test_wakeUp :
    nextIs (exec .wakeUp { State.reset with runState := .running, staged := true, outBits := 0x11 })
      (fun t => t.disableLine == 0 && !t.staged && t.outBits == 0 && t.tickEnabled) = true ∧
    nextIs (exec .wakeUp { State.reset with runState := .running, staged := true, outBits := 0x11, tickEnabled := true })
      (fun t => t.staged && t.outBits == 0x11) = true := by decide
/-- T-LIFE-6, T-LIFE-7. -/
theorem test_goIdle :
    nextIs (exec .goIdle { State.reset with tickEnabled := true, disableLine := 0 })
      (fun t => !t.tickEnabled && t.disableLine == 1) = true ∧
    nextIs (exec .goIdle { State.reset with cfg := { Params.atReset with invertEnable := 1 } })
      (fun t => t.disableLine == 0) = true := by decide
/-- T-LIFE-8, T-LIFE-9. -/
theorem test_cycleStart :
    nextIs (exec .cycleStart { State.reset with runState := .queued })
      (fun t => t.runState == .running && t.tickEnabled && t.disableLine == 0) = true ∧
    nextIs (exec .cycleStart { State.reset with runState := .hold })
      (fun t => t.runState == .hold && !t.tickEnabled && t.disableLine == 1) = true := by decide
/-- T-LIFE-10, T-LIFE-11. -/
theorem test_feedHold :
    nextIs (exec .feedHold { State.reset with runState := .running, segmentSteps := 120 })
      (fun t => t.runState == .hold && t.segmentSteps == 120) = true ∧
    nextIs (exec .feedHold State.reset) (fun t => t.runState == .idle) = true := by decide
/-- T-LIFE-12, T-LIFE-13. -/
theorem test_cycleReinitialize :
    nextIs (exec .cycleReinitialize { State.reset with runState := .hold }) (fun t => t.runState == .idle) = true ∧
    nextIs (exec .cycleReinitialize { State.reset with runState := .hold, tickEnabled := true })
      (fun t => t.runState == .hold) = true := by decide
/-- T-LIFE-14, T-LIFE-15. -/
theorem test_queue :
    nextIs (exec .queue State.reset) (fun t => t.runState == .queued && !t.tickEnabled) = true ∧
    nextIs (exec .queue { State.reset with runState := .running }) (fun t => t.runState == .running) = true := by decide
/-- T-LIFE-16, T-LIFE-17. -/
theorem test_clearCycleStop :
    nextIs (exec .clearCycleStop { State.reset with cycleStop := true, runState := .running })
      (fun t => !t.cycleStop && t.runState == .idle) = true ∧
    nextIs (exec .clearCycleStop { State.reset with runState := .running, tickEnabled := true })
      (fun t => t.runState == .running) = true := by decide
/-- 70 R801: INIT clears a fault; T-INIT-1; 60 R710: the first parameter of 00 R7 that breaks its constraint. -/
theorem test_init :
    nextIs (exec .init { loaded (record 3 6 2 10) with fault := some (.reservedBits 0) })
      (fun t => t.fault == none && t.loadState == .loadBlock && t.nextHead == 1 && !t.tickEnabled && t.disableLine == 1 &&
        t.accelPeriod == 4) = true ∧
    nextIs (exec .init { State.reset with supplied := { Params.atReset with invertMask := 0x07, invertEnable := 1 } })
      (fun t => t.pins == 0x07 && t.disableLine == 0 && t.runState == .idle) = true ∧
    nextIs (exec .init { State.reset with supplied := { Params.atReset with segCap := 0, minRate := 2147483648 } })
      (fun t => t.fault == some (.configInvalid .segCap) && faultCode t == 9) = true := by decide

/-! ## Preparer and rate converter -/

/-- T-PREP-13. -/
theorem test_prepStep : nextIs (exec .prepStep (preparable longBlock))
    (fun t => segRead t 0 == 0x01FA && t.head == 1 && t.nextHead == 2 && t.dataPrepIndex == 1 &&
      (dataRead t 1).stepEventsRemaining == 750 && (dataRead t 1).decelerateAfter == 550 &&
      t.prepBlock == some 7 && t.prepReturn == some .work) = true := by decide +kernel
/-- T-PREP-17, T-PREP-18. -/
theorem test_prepStep_faults :
    nextIs (exec .prepStep (preparable { block with steps := ⟨5, 0, 0⟩ }))
      (fun t => t.fault == some (.badBlock 7) && t.prepBlock == none) = true ∧
    nextIs (exec .prepStep (preparable { block with steps := ⟨1, 0, 0⟩, stepEventCount := 1, millimeters := 3000 }))
      (fun t => t.fault == some (.range (.rateOutput .nextStepDistance)) && t.prepBlock == some 7 &&
        t.dataPrepIndex == 1 && t.head == 0 && t.mem == ⟨[], []⟩) = true := by decide +kernel
/-- T-PREP-19, and PREPARE_SEGMENTS in progress after its first PREP_STEP (42 R450). -/
theorem test_prepareSegments :
    nextIs (exec .prepareSegments State.reset) (fun t => t.prepReturn == some .done && !t.preparing && t.head == 0) = true ∧
    nextIs (exec .prepareSegments (preparable longBlock)) (fun t => t.preparing && t.head == 1) = true := by
  decide +kernel
/-- T-PREP-1 and T-PREP-6 as partitions. -/
theorem test_slices :
    slices 250 9 { record 0 0 0 0 with stepEventsRemaining := 1000, decelerateAfter := 800 } =
      [(250, .noop), (250, .noop), (250, .noop), (50, .decel), (200, .decelEob)] ∧
    slices 250 9 { record 0 0 0 0 with stepEventsRemaining := 300, decelerateAfter := 1 } =
      [(1, .decel), (250, .decel), (49, .decelEob)] := by decide
/-- T-RATE-2, T-RATE-5, T-RATE-6, T-RATE-8. -/
theorem test_rates :
    rateOutput .initialRate { block with stepEventCount := 100 } rateConfig = 1000 ∧
    rateOutput .nominalRate { block with stepEventCount := 100 } rateConfig = 10000 ∧
    rateOutput .rateDelta { block with stepEventCount := 100 } rateConfig = 200 ∧
    rateOutput .nextStepDistance { block with stepEventCount := 100 } rateConfig = 10000 := by decide +kernel
/-- T-RATE-3, T-RATE-9: rounded up. -/
theorem test_rates_round_up :
    rateOutput .initialRate { block with entrySpeedSq := 2 } rateConfig = 24 ∧
    rateOutput .nextStepDistance block rateConfig = 333334 := by decide +kernel

/-! ## Steps -/

/-- The word placed for the next step is fetched and run: a command, and a segment that the reset state lets run. -/
theorem test_step_runs_a_placed_word :
    nextIs (step (State.reset.withFetchWord 8 0x09)) (fun t => t.runState == .queued && t.inputs.isEmpty) = true ∧
    nextIs (step ((between 0x0101).withFetchWord 16 0x2132))
      (fun t => t.segmentSteps == 50 && t.curFlag == .decel) = true := by decide
/-- With no input, a pending body, then the pulse reset, then the next tick (30 R315). -/
theorem test_step_own_order :
    ownStep { loaded (record 3 6 2 10) with pulseArmed := true } = some 0x81#8 ∧
    ownStep { loaded (record 3 6 2 10) with busy := false, pulseArmed := true } = some 0x82#8 ∧
    ownStep { loaded (record 3 6 2 10) with busy := false } = some 0x80#8 := by decide
/-- 30 R315: without `PULSE_FITS` the next tick comes before an armed pulse reset, which is taken once no tick is due. -/
theorem test_step_own_order_overlapping :
    ownStep (overlapping 0x01) = some 0x80#8 ∧ ownStep { overlapping 0x01 with tickEnabled := false } = some 0x82#8 := by
  decide
/-- T-ENC-15, T-ENC-16: a reserved code is refused with no state change. -/
theorem test_step_refuses_reserved_codes : ∀ c ∈ [(0x00 : Byte), 0x0C, 0x83],
    nextIs (step { loaded (record 3 6 2 10) with busy := false, inputs := [.word c] })
      (fun t => t == { loaded (record 3 6 2 10) with busy := false }) = true := by decide

/-! ## For each statement with hypotheses, a state and operands that meet them (boundary values where a clause has a range) -/

theorem witness_AcceptedBytesAreEncodings :
    decode .ring [0xFF, 0x3F] = .ok (.decelEob 255 15) ∧ decode .byte [0x82] = .ok .pulseReset := by decide

theorem witness_DescriptorWordFields : (0x3FFF : SegWord).toNat < 16384 ∧ (0 : SegWord).toNat < 16384 := by decide

/-- The first and the last reserved code of each range (30 R311, R312). -/
theorem witness_ReservedCodesAreRefused : ∀ c ∈ [(0x00 : Byte), 0x0C, 0x7F, 0x83, 0xFF],
    waitsFor c { State.reset with inputs := [.word c] } = none ∧
    ((c = 0 ∨ (0x0C ≤ c.toNat ∧ c.toNat ≤ 0x7F)) ∨ 0x83 ≤ c.toNat) := by decide

theorem witness_StepRunsTheFetchedInstruction :
    nextWord { State.reset with inputs := [.word 0x09] } = some (0x09, State.reset) ∧
    decode (fetchBytes 0x09 State.reset).1 (fetchBytes 0x09 State.reset).2 = .ok .queue ∧
    waitsFor 0x09 { State.reset with inputs := [.word 0x09] } = none ∧ decode .byte [0x09] = .ok .queue := by decide

/-- With no input, and with TICK_BODY first on the inputs. -/
theorem witness_StepRunsTheSegmentAtTail :
    (∀ s ∈ [pending 0x2102 (record 3 6 2 10), { pending 0x2102 (record 3 6 2 10) with inputs := [.word 0x81#8] }],
      s.fault = none ∧ s.busy = true ∧ s.loadState ≠ .loadNone ∧ s.runState ≠ .hold ∧ s.tail ≠ s.head ∧
      s.tail < s.cfg.n ∧ decode .ring (segBytes (segRead s s.tail)) = .ok (.decel 2 1)) ∧
    (pending 0x2102 (record 3 6 2 10)).inputs = [] := by decide

/-- The largest command code and a command, waiting for a body that has a next state. -/
theorem witness_CommandWaitsForTheTickBody : ∀ c ∈ [(0x7F : Byte), 0x06], c.toNat < 0x80 ∧
    { loaded (record 3 6 2 10) with inputs := [.word c] }.busy = true ∧
    nextIs (exec .tickBody { loaded (record 3 6 2 10) with inputs := [.word c] }) (fun _ => true) = true := by decide

theorem witness_EnvironmentStepsTouchOnlyTheirOwn :
    { State.reset with inputs := [.planner [⟨0, block⟩]] }.inputs = .planner [⟨0, block⟩] :: [] ∧
    { State.reset with inputs := [.supply rateConfig] }.inputs = .supply rateConfig :: [] ∧
    State.reset.inputs = [] ∧ State.reset.busy = false ∧ State.reset.pulseArmed = false ∧
    State.reset.preparing = false ∧ State.reset.tickEnabled = false := ⟨rfl, rfl, rfl, rfl, rfl, rfl, rfl⟩

theorem witness_PlacedWordRunsFirst :
    decode .byte [0x81] = .ok .tickBody ∧ decode .ring (segBytes 0x3FFF) = .ok (.decelEob 255 15) := by decide

/-- A legal and an illegal configuration, with no body pending and under a fault with one pending. -/
theorem witness_InitPowersOn :
    (State.reset.busy = false ∧ firstInvalid State.reset.supplied = none) ∧
    ({ loaded (record 3 6 2 10) with fault := some (.reservedBits 0) }.fault ≠ none ∧
      firstInvalid { Params.atReset with segCap := 256 } = some .segCap) := by decide

/-- With the tick source stopped and running. -/
theorem witness_ResetClearsTheEngine : ∀ s ∈ [{ State.reset with rate := 900 }, { loaded (record 3 6 2 10) with busy := false }],
    s.fault = none ∧ s.busy = false := by decide

/-- Starting the tick source, and only enabling the outputs. -/
theorem witness_WakeUpEnablesAndStarts : ∀ s ∈ [{ State.reset with runState := .running }, State.reset],
    s.fault = none ∧ s.busy = false := by decide

/-- With the tick source running. -/
theorem witness_GoIdleStopsTheTick : ∀ s ∈ [{ loaded (record 3 6 2 10) with busy := false }],
    s.fault = none ∧ s.busy = false := by decide

/-- Queued, with the tick source stopped and running, and not queued. -/
theorem witness_CycleStartRunsAQueuedCycle : ∀ s ∈ [{ State.reset with runState := .queued }, { State.reset with runState := .queued, tickEnabled := true }, State.reset],
    s.fault = none ∧ s.busy = false := by decide

/-- Running, and not. -/
theorem witness_FeedHoldHoldsARunningCycle : ∀ s ∈ [{ loaded (record 3 6 2 10) with busy := false }, State.reset],
    s.fault = none ∧ s.busy = false := by decide

/-- A hold that has completed, one that has not, and none. -/
theorem witness_CycleReinitializeEndsAHold : ∀ s ∈ [{ State.reset with runState := .hold }, { State.reset with runState := .hold, tickEnabled := true }, State.reset],
    s.fault = none ∧ s.busy = false := by decide

/-- Idle, and not. -/
theorem witness_QueueEntersQueued : ∀ s ∈ [State.reset, { State.reset with runState := .hold }],
    s.fault = none ∧ s.busy = false := by decide

/-- A finished cycle, and one that runs. -/
theorem witness_ClearCycleStopAcknowledges : ∀ s ∈ [{ State.reset with cycleStop := true, runState := .running }, { loaded (record 3 6 2 10) with busy := false }],
    s.fault = none ∧ s.busy = false := by decide

theorem witness_ResetIsIdempotent : State.reset.fault = none ∧ State.reset.busy = false ∧
    State.reset.tickEnabled = false ∧ nextIs (exec .reset { State.reset with rate := 900 }) (fun _ => true) = true := by
  decide

theorem witness_TickBeginCountsAnOverrun :
    (loaded (record 3 6 2 10)).fault = none ∧ (loaded (record 3 6 2 10)).tickEnabled = true ∧
    (loaded (record 3 6 2 10)).pulseArmed = false ∧ (loaded (record 3 6 2 10)).busy = true := by decide

/-- A staged word on idle lines, and one that meets an active step line with `PULSE_FITS = false`. -/
theorem witness_TickBeginEmits :
    (∀ s ∈ [{ loaded (record 3 6 2 10) with busy := false, staged := true }, overlapping 0x01, overlapping 0x08],
      s.fault = none ∧ s.tickEnabled = true ∧ (s.cfg.pulseFits = true → s.pulseArmed = false) ∧ s.busy = false) ∧
    ((overlapping 0x01).pins ^^^ (overlapping 0x01).cfg.invertMask) &&& 0x07 ≠ 0 := by decide

theorem witness_PulseResetClearsTheStepLines : { State.reset with pulseArmed := true, pins := 0x3F }.fault = none ∧
    { State.reset with pulseArmed := true, pins := 0x3F }.pulseArmed = true := by decide

/-- A body with a step event, with the one-shot armed. -/
theorem witness_PulseResetCommutesWithTheBody :
    nextIs (exec .tickBody { loaded (record 3 6 2 10) with counterD := 1, pulseArmed := true, pins := 0x11 })
      (fun t => t.fault == none) = true ∧
    nextIs (exec .pulseReset { loaded (record 3 6 2 10) with counterD := 1, pulseArmed := true, pins := 0x11 })
      (fun _ => true) = true := by decide

/-- T-TICK-6. -/
theorem witness_HoldGatesTheLoad :
    { between 0x0101 with runState := .hold, tail := 2, head := 5 }.fault = none ∧
    { between 0x0101 with runState := .hold, tail := 2, head := 5 }.busy = true ∧
    { between 0x0101 with runState := .hold, tail := 2, head := 5 }.loadState ≠ .loadNone := by decide

/-- T-TICK-7. -/
theorem witness_EmptyRingStopsTheCycle :
    { pending 0x2102 (record 3 6 2 10) with tail := 3, head := 3 }.busy = true ∧
    { pending 0x2102 (record 3 6 2 10) with tail := 3, head := 3 }.loadState ≠ .loadNone ∧
    { pending 0x2102 (record 3 6 2 10) with tail := 3, head := 3 }.runState ≠ .hold := by decide

theorem witness_LoadedSegmentIgnoresTheRunState : (loaded (record 3 6 2 10)).loadState = .loadNone ∧
    nextIs (exec .tickBody (loaded (record 3 6 2 10))) (fun t => !t.busy) = true := by decide

/-- A body without a step event, one with the last step event of an END_OF_BLOCK segment, and one at the bounds of the
premises: the positions next to the ends of int32, `next_step_distance` and `rate` at their largest. -/
theorem witness_LoadedTickCompletes : ∀ s ∈ [loaded (record 3 6 2 10),
      { loaded (record 3 6 2 10) with counterD := 0, segmentSteps := 1, curFlag := .endOfBlock },
      { loaded (record 0 2147483647 2147483648 2147483647) with
        rate := 2147483647, counterD := 2147483647, position := ⟨2147483646, -2147483647, 0⟩, segmentSteps := 255 }],
    s.fault = none ∧ s.busy = true ∧ s.loadState = .loadNone ∧ SafeToTick block s := by decide +kernel

theorem witness_LoadedTickKeepsThePremises :
    SafeToTick block { loaded (record 3 6 2 10) with counterD := 0 } ∧
    nextIs (exec .tickBody { loaded (record 3 6 2 10) with counterD := 0 }) (fun _ => true) = true := by decide +kernel

/-- Each kind, from each ramp state, at the largest slot of the ring. -/
theorem witness_SegmentContinuesItsBlock : ∀ f ∈ [SegFlag.noop, .endOfBlock, .decel, .decelEob],
    ∀ r ∈ [RampState.cruise, .accel, .decel],
    let s := { between 0x0101 with
      rampState := r, rampCount := 4, mem := ⟨[(0, 0x0101)], [(9, record 3 6 2 10)]⟩ }
    s.fault = none ∧ s.busy = true ∧ s.loadState = .loadSegment ∧ s.runState ≠ .hold ∧ s.tail ≠ s.head ∧
    (9 : BitVec 4).toNat < s.cfg.n ∧ s.rampCount ≤ s.accelPeriod ∧ SafeToTick block (continued ⟨255, 9, f⟩ s) := by
  decide +kernel

theorem witness_SegmentStartsABlock : ∀ f ∈ [SegFlag.noop, .endOfBlock, .decel, .decelEob],
    let s := pending 0x2102 (record 3 6 2 10)
    s.fault = none ∧ s.busy = true ∧ s.loadState = .loadBlock ∧ s.runState ≠ .hold ∧ s.tail ≠ s.head ∧
    (1 : BitVec 4).toNat < s.cfg.n ∧ currentBlock s = some block ∧ SafeToTick block (started block ⟨1, 1, f⟩ s) := by
  decide +kernel

/-- The smallest word with a reserved bit; slot `N` with count 0 (the slot is checked first); slot `N - 1` with count 0. -/
theorem witness_MalformedSegmentsFault :
    let s := pending 0x4000 (record 3 6 2 10)
    s.fault = none ∧ s.busy = true ∧ s.loadState ≠ .loadNone ∧ s.runState ≠ .hold ∧ s.tail ≠ s.head ∧
    (s.tail < s.cfg.n ∧ 16384 ≤ (segRead s s.tail).toNat) ∧ s.cfg.n ≤ (⟨0, 10, .noop⟩ : Descriptor).index.toNat ∧
    ((⟨0, 9, .noop⟩ : Descriptor).index.toNat < s.cfg.n ∧ (⟨0, 9, .noop⟩ : Descriptor).count = 0) := by decide

/-- T-FAULT-4, T-FAULT-5. -/
theorem witness_BlockLoadFaults :
    let s := pending 0x1105 (record 3 6 2 10)
    s.fault = none ∧ s.busy = true ∧ s.loadState = .loadBlock ∧ s.runState ≠ .hold ∧ s.tail ≠ s.head ∧
    (⟨5, 1, .endOfBlock⟩ : Descriptor).index.toNat < s.cfg.n ∧ (⟨5, 1, .endOfBlock⟩ : Descriptor).count ≠ 0 ∧
    currentBlock { s with planner := [] } = none ∧
    badBlock { block with steps := ⟨5, 0, 0⟩ } = true ∧
    currentBlock { s with planner := [⟨0, { block with steps := ⟨5, 0, 0⟩ }⟩] } =
      some { block with steps := ⟨5, 0, 0⟩ } := by decide

/-- T-FAULT-10. -/
theorem witness_RateOverflowFaults :
    let s := { loaded (record 0 4294967295 10 10) with rampCount := 1, rate := 4294967290 }
    s.fault = none ∧ s.busy = true ∧ s.loadState = .loadNone ∧ s.rampState = .accel ∧ s.rampCount ≤ 1 ∧
    s.accelPeriod ≤ 65535 ∧ s.curData < s.cfg.n ∧ 4294967295 < s.rate + (dataRead s s.curData).rateDelta := by decide

/-- Each ramp state, at an acceleration tick. -/
theorem witness_RampIsMonotone : ∀ r ∈ [RampState.cruise, .accel, .decel],
    let s := { loaded (record 3 6 2 10) with rampState := r, rampCount := 1 }
    s.fault = none ∧ s.busy = true ∧ s.loadState = .loadNone ∧
    nextIs (exec .tickBody s) (fun t => t.fault == none) = true ∧ s.rate ≤ (dataRead s s.curData).nominalRate ∧
    s.cfg.minRate ≤ (dataRead s s.curData).nominalRate ∧ s.cfg.minRate ≤ s.rate := by decide

theorem witness_AtMostOneStepPerTick :
    nextIs (exec .tickBody { loaded (record 3 6 2 10) with counterD := 1 }) (fun t => t.position == ⟨1, 0, 0⟩) = true := by
  decide

/-- An axis that steps at every event, one that never steps, and the smallest event count. -/
theorem witness_BresenhamIsExact :
    (1 ≤ block.stepEventCount ∧ ∀ a ∈ [Axis.x, .y, .z], atAxis block.steps a ≤ block.stepEventCount) ∧
    1 ≤ { block with stepEventCount := 1, steps := ⟨1, 0, 0⟩ }.stepEventCount := by decide

/-- A full ring, and an empty planner. -/
theorem witness_PrepStepReturnsDone :
    let s := { State.reset with head := 9, nextHead := 0 }
    (s.fault = none ∧ s.busy = false ∧ s.nextHead = s.tail) ∧
    (State.reset.prepBlock = none ∧ blockByIndex State.reset State.reset.prepIndex = none) := by decide

/-- The last slots of both rings, a cap of 255, with and without a breakpoint ahead. -/
theorem witness_PrepStepCutsASegment : ∀ d ∈ [record 3 6 2 10, { record 3 6 2 10 with decelerateAfter := 2 }],
    let s := { preparable block with
      prepBlock := some 7, dataPrepIndex := 9, head := 9, nextHead := 0, tail := 1
      mem := ⟨[], [(9, d)]⟩, cfg := { rateConfig with segCap := 255 } }
    s.fault = none ∧ s.busy = false ∧ s.nextHead ≠ s.tail ∧ s.prepBlock = some 7 ∧ s.dataPrepIndex < s.cfg.n ∧
    s.head < s.cfg.n ∧ s.cfg.n ≤ 16 ∧ s.cfg.segCap ≤ 255 := by decide

/-- T-PREP-13, with the largest breakpoint. -/
theorem witness_PrepStepStartsABlock :
    let b := { longBlock with breakpoint := 4294967295 }
    let s := preparable b
    s.fault = none ∧ s.busy = false ∧ s.nextHead ≠ s.tail ∧ s.prepBlock = none ∧ blockByIndex s s.prepIndex = some b ∧
    badBlock b = false ∧ firstBadRate b s.cfg = none ∧ b.breakpoint ≤ 4294967295 ∧ 1 ≤ s.cfg.n := by decide +kernel

/-- T-PREP-17, T-PREP-18, and the smallest breakpoint that is no uint32. -/
theorem witness_PrepStepFaults : ∀ b ∈ [{ block with steps := ⟨5, 0, 0⟩ },
      { block with steps := ⟨1, 0, 0⟩, stepEventCount := 1, millimeters := 3000 },
      { longBlock with breakpoint := 4294967296 }],
    (let s := preparable b
     s.fault = none ∧ s.busy = false ∧ s.nextHead ≠ s.tail ∧ s.prepBlock = none ∧ blockByIndex s s.prepIndex = some b) ∧
    (badBlock b = true ∨ (badBlock b = false ∧ firstBadRate b rateConfig = some .nextStepDistance) ∨
      (badBlock b = false ∧ firstBadRate b rateConfig = none ∧ 4294967295 < b.breakpoint)) := by decide +kernel

theorem witness_SegmentsPartitionTheBlock : 1 ≤ 250 ∧ 1 ≤ (record 3 6 2 10).stepEventsRemaining ∧
    (record 3 6 2 10).stepEventsRemaining ≤ 3 ∧ slices 2 3 (record 3 6 2 10) = [(2, .decel), (1, .decelEob)] := by decide

/-- A PREP_STEP that publishes at the last slot of the ring, with one slot occupied. -/
theorem witness_PreparerKeepsUnreadSegments :
    let s := { preparable block with
      prepBlock := some 7, dataPrepIndex := 1, head := 9, nextHead := 0, tail := 8, mem := ⟨[(8, 0x2101)], [(1, record 3 6 2 10)]⟩ }
    2 ≤ s.cfg.n ∧ s.head < s.cfg.n ∧ s.tail < s.cfg.n ∧ s.nextHead = (s.head + 1) % s.cfg.n ∧
    nextIs (exec .prepStep s) (fun t => t.head == 0) = true ∧
    nextIs (exec .prepareSegments s) (fun t => t.head == 0) = true ∧ (8 + s.cfg.n - s.tail) % s.cfg.n < occupancy s := by decide

theorem witness_RatesAreExactCeilings : rateConfig.rateNumerics = .exact ∧ 0 ≤ block.entrySpeedSq ∧
    0 ≤ block.nominalSpeedSq := by decide +kernel

/-- Two blocks that differ in the fields the converter does not read. -/
theorem witness_RateConverterReadsFiveFields :
    let b := { block with ident := 8, steps := ⟨0, 0, 3⟩, directionBits := 0, breakpoint := 0 }
    b ≠ block ∧ b.entrySpeedSq = block.entrySpeedSq ∧ b.nominalSpeedSq = block.nominalSpeedSq ∧
    b.acceleration = block.acceleration ∧ b.millimeters = block.millimeters ∧
    b.stepEventCount = block.stepEventCount := by decide

theorem witness_InexactNumericsWithinOneUnit :
    { rateConfig with rateNumerics := .inexact }.rateNumerics = .inexact := rfl

/-- Any instruction but INIT under a fault; a step that takes a word, and one with nothing to take. -/
theorem witness_FaultsAreSticky :
    let s := { loaded (record 3 6 2 10) with fault := some (.reservedBits 0), inputs := [.word 0x09] }
    s.fault ≠ none ∧ Instr.queue ≠ .init ∧ s.inputs ≠ [.word 0x01#8] ∧
    nextIs (step s) (fun t => t.inputs.isEmpty) = true ∧ nextIs (step { s with inputs := [] }) (fun _ => true) = true := by
  decide

/-- One state for each clause: a pending body, a body that is not pending, a tick source that is stopped, an armed
one-shot. -/
theorem witness_NotEnabledLeavesTheState :
    ((loaded (record 3 6 2 10)).fault = none ∧ (loaded (record 3 6 2 10)).busy = true) ∧
    State.reset.tickEnabled = false ∧ State.reset.busy = false ∧ State.reset.pulseArmed = false ∧
    ({ loaded (record 3 6 2 10) with pulseArmed := true }.cfg.pulseFits = true ∧
      { loaded (record 3 6 2 10) with pulseArmed := true }.pulseArmed = true) := by decide

theorem witness_PositionMovesOnlyInTicks :
    nextIs (exec .tickBody { loaded (record 3 6 2 10) with counterD := 1 }) (fun t => t.position ≠ ⟨0, 0, 0⟩) = true ∧
    nextIs (exec .init { State.reset with position := ⟨5, 0, -2⟩ }) (fun t => t.position ≠ ⟨5, 0, -2⟩) = true := by decide

/-- The tick source starting, the configuration changing, `cycle_stop` set and cleared. -/
theorem witness_SingleWritersOfTheDeviceState :
    nextIs (exec .cycleStart { State.reset with runState := .queued }) (fun t => t.tickEnabled) = true ∧
    nextIs (exec .init { State.reset with supplied := rateConfig }) (fun t => t.accelPeriod == 20) = true ∧
    nextIs (exec .tickBody { pending 0x2102 (record 3 6 2 10) with head := 0 }) (fun t => t.cycleStop) = true ∧
    nextIs (exec .clearCycleStop { State.reset with cycleStop := true }) (fun t => !t.cycleStop) = true := by
  decide +kernel

theorem witness_AgentsWriteOnlyTheirOwn :
    nextIs (exec .tickBody (loaded (record 3 6 2 10))) (fun _ => true) = true ∧
    nextIs (exec (Descriptor.instr ⟨2, 1, .decel⟩) (pending 0x2102 (record 3 6 2 10))) (fun _ => true) = true ∧
    nextIs (exec .prepStep State.reset) (fun _ => true) = true := by decide

/-- A running machine with a step event due: in range, and stepping. -/
theorem witness_StepKeepsRanges : InRange { loaded (record 3 6 2 10) with counterD := 1 } ∧
    nextIs (step { loaded (record 3 6 2 10) with counterD := 1 }) (fun t => t.position == ⟨1, 0, 0⟩) = true := by
  decide +kernel

/-- A step that writes both rings. -/
theorem witness_StepKeepsMemoryCanonical :
    let s := { preparable block with
      prepBlock := some 7, dataPrepIndex := 1, mem := ⟨[(3, 0x2101)], [(1, record 3 6 2 10)]⟩, inputs := [.word 0x0B] }
    s.mem.wf ∧ nextIs (step s) (fun t => t.mem.seg.length == 2) = true := by decide

/-- The last step event of a block's last segment. -/
theorem witness_StepKeepsControlConsistent :
    let s := { loaded (record 3 6 2 10) with counterD := 1, segmentSteps := 1, curFlag := .decelEob }
    ControlConsistent s ∧ nextIs (step s) (fun t => t.loadState == .loadBlock) = true := by decide

end Sys2Proof.Tests
end

section
/-! The fields of a descriptor word as numbers (30 R303). -/

namespace Sys2Proof

/-- The low byte of a descriptor word is `step_count`, unscaled. -/
theorem stepCountField_toNat (w : SegWord) : (w.extractLsb' 0 8).toNat = w.toNat % 256 := by
  rw [BitVec.extractLsb'_toNat, Nat.shiftRight_zero]

/-- The next four bits are `data_index`, unscaled. -/
theorem dataIndexField_toNat (w : SegWord) : (w.extractLsb' 8 4).toNat = w.toNat / 256 % 16 := by
  rw [BitVec.extractLsb'_toNat, Nat.shiftRight_eq_div_pow]

/-- Settles O4: the word's fields are those `decodeDescriptor_eq_some` names, read as numbers; the assembled word's value
is `encodeDescriptor_toNat`. -/
theorem descriptorWordFields : Obligations.DescriptorWordFields := by
  refine ⟨fun w hw => ?_, encodeDescriptor_toNat⟩
  exact ⟨_, decodeDescriptor_eq_some.2 ⟨hw, rfl⟩, stepCountField_toNat w, dataIndexField_toNat w,
    flagOfBits_eob _ _, flagOfBits_forcesDecel _ _⟩

end Sys2Proof
end

section
/-! The tick engine where it runs no segment: a tick that finds the engine busy, and the two idle paths of the body
(43 R501, R504, R505). -/

namespace Sys2Proof.Machine

/-! ## The enabling conditions (60 R727) as propositions -/

theorem tickBeginEnabled_iff {s : State} :
    tickBeginEnabled s = true ↔
      s.fault = none ∧ s.tickEnabled = true ∧ (s.cfg.pulseFits = true → s.pulseArmed = false) := by
  cases hp : s.cfg.pulseFits <;> simp [tickBeginEnabled, hp, and_assoc]

theorem tickBodyEnabled_iff {s : State} : tickBodyEnabled s = true ↔ s.fault = none ∧ s.busy = true := by
  simp [tickBodyEnabled]

/-! ## Enabled steps of the engine -/

/-- The guard of TICK_BEGIN comes before everything R502 writes (43 R501). -/
theorem exec_tickBegin_of_busy {s : State} (he : tickBeginEnabled s = true) (hb : s.busy = true) :
    exec .tickBegin s = .next { s with overrunCount := s.overrunCount + 1 } := by
  change execTickBegin s = _
  rw [execTickBegin, if_pos he, if_pos hb]

theorem exec_tickBody_of_enabled {s : State} (he : tickBodyEnabled s = true) :
    exec .tickBody s = finish (tickBody s) := by
  change execTickBody s = _
  rw [execTickBody, if_pos he]

/-! ## The idle paths of a body with a load due -/

/-- HOLD is looked at before the ring (43 R504). -/
theorem tickBody_of_hold {s : State} (hload : s.loadState ≠ .loadNone) (hhold : s.runState = .hold) :
    tickBody s = .done (idled s) := by
  rw [tickBody, if_neg hload, if_pos hhold]

/-- An empty ring is a GO_IDLE that signals the end of the cycle (43 R505). -/
theorem tickBody_of_empty {s : State} (hload : s.loadState ≠ .loadNone) (hhold : s.runState ≠ .hold)
    (hempty : s.tail = s.head) : tickBody s = .done { idled s with cycleStop := true } := by
  rw [tickBody, if_neg hload, if_neg hhold, if_pos hempty]

/-- Settles O22: the byte by the code table, the step by the guard of R501. -/
theorem tickBeginCountsAnOverrun : Obligations.TickBeginCountsAnOverrun :=
  ⟨rfl, fun _ hfault htick hpulse hbusy =>
    exec_tickBegin_of_busy (tickBeginEnabled_iff.2 ⟨hfault, htick, hpulse⟩) hbusy⟩

/-- Settles O26: the body ends in GO_IDLE's writes, which name neither ring, `tail` nor an accumulator. -/
theorem holdGatesTheLoad : Obligations.HoldGatesTheLoad := by
  intro s hfault hbusy hload hhold
  rw [exec_tickBody_of_enabled (tickBodyEnabled_iff.2 ⟨hfault, hbusy⟩), tickBody_of_hold hload hhold, finish_done, idled]

/-- Settles O27: as O26 without the hold, with `cycle_stop` set after GO_IDLE's writes. -/
theorem emptyRingStopsTheCycle : Obligations.EmptyRingStopsTheCycle := by
  intro s hfault hbusy hload hhold hempty
  rw [exec_tickBody_of_enabled (tickBodyEnabled_iff.2 ⟨hfault, hbusy⟩), tickBody_of_empty hload hhold hempty,
    finish_done, idled]

end Sys2Proof.Machine
end

section
/-! The lifecycle and run-state commands of the host where they are enabled (44 R600 to R607). -/

namespace Sys2Proof.Machine

/-- The enabling condition of the host commands other than INIT, as a proposition (60 R727). -/
theorem backgroundEnabled_iff {s : State} : backgroundEnabled s = true ↔ s.fault = none ∧ s.busy = false :=
  ⟨enabled_background, fun ⟨hfault, hbusy⟩ => by simp [backgroundEnabled, hfault, hbusy]⟩

/-! ## RESET -/

/-- RESET under a running tick source only raises its fault. -/
theorem exec_reset_of_tick {s : State} (he : backgroundEnabled s = true) (ht : s.tickEnabled = true) :
    exec .reset s = .next (raiseFault .resetWhileRunning s) := by
  change execReset s = _
  rw [execReset, if_pos he, if_pos ht]

theorem exec_reset_of_stopped {s : State} (he : backgroundEnabled s = true) (ht : ¬ s.tickEnabled = true) :
    exec .reset s = .next (clearEngine s) := by
  change execReset s = _
  rw [execReset, if_pos he, if_neg ht]

/-- Settles O13: one case per state of the tick source, with the writes of `raiseFault` and of `clearEngine`. -/
theorem resetClearsTheEngine : Obligations.ResetClearsTheEngine := by
  refine ⟨rfl, fun s hfault hbusy => ?_⟩
  have he : backgroundEnabled s = true := backgroundEnabled_iff.2 ⟨hfault, hbusy⟩
  by_cases ht : s.tickEnabled = true
  · rw [exec_reset_of_tick he ht, if_pos ht, raiseFault]
  · rw [exec_reset_of_stopped he ht, if_neg ht, clearEngine]

/-! ## WAKE_UP, and CYCLE_START, which does its writes -/

/-- In RUNNING with the tick source stopped, WAKE_UP also starts the tick source (44 R601). -/
theorem woken_of_startDue {s : State} (h : s.runState = .running ∧ s.tickEnabled = false) :
    woken s = tickStarted { s with disableLine := s.cfg.invertEnable } :=
  if_pos h

/-- Anywhere else it only enables the outputs (44 R601). -/
theorem woken_of_not_startDue {s : State} (h : ¬ (s.runState = .running ∧ s.tickEnabled = false)) :
    woken s = { s with disableLine := s.cfg.invertEnable } :=
  if_neg h

theorem exec_wakeUp_of_enabled {s : State} (he : backgroundEnabled s = true) :
    exec .wakeUp s = .next (woken s) := by
  change execWakeUp s = _
  rw [execWakeUp, if_pos he]

theorem exec_cycleStart_of_queued {s : State} (he : backgroundEnabled s = true) (hq : s.runState = .queued) :
    exec .cycleStart s = .next (woken { s with runState := .running }) := by
  change execCycleStart s = _
  rw [execCycleStart, if_pos (by simp [he, hq])]

theorem exec_cycleStart_of_not_queued {s : State} (hq : s.runState ≠ .queued) : exec .cycleStart s = .next s := by
  change execCycleStart s = _
  rw [execCycleStart, if_neg (by simp [hq])]

/-- Settles O15: one case for each of the two forms of `woken`. -/
theorem wakeUpEnablesAndStarts : Obligations.WakeUpEnablesAndStarts := by
  refine ⟨rfl, fun s hfault hbusy => ?_⟩
  rw [exec_wakeUp_of_enabled (backgroundEnabled_iff.2 ⟨hfault, hbusy⟩)]
  by_cases h : s.runState = .running ∧ s.tickEnabled = false
  · rw [woken_of_startDue h, if_pos h]; rfl
  · rw [woken_of_not_startDue h, if_neg h]

/-- Settles O17: from QUEUED the command wakes a state that is already RUNNING, so the tick source alone decides which form
`woken` takes. -/
theorem cycleStartRunsAQueuedCycle : Obligations.CycleStartRunsAQueuedCycle := by
  refine ⟨rfl, fun s hfault hbusy => ?_⟩
  by_cases hq : s.runState = .queued
  · rw [exec_cycleStart_of_queued (backgroundEnabled_iff.2 ⟨hfault, hbusy⟩) hq, if_pos hq]
    by_cases ht : s.tickEnabled = true
    · rw [woken_of_not_startDue (s := { s with runState := .running }) (by simp [ht]), if_pos ht]
    · rw [woken_of_startDue (s := { s with runState := .running }) ⟨rfl, eq_false_of_ne_true ht⟩, if_neg ht]; rfl
  · rw [exec_cycleStart_of_not_queued hq, if_neg hq]

/-! ## The commands that write the run-state -/

/-- A command that changes the run-state under a condition, and leaves the state otherwise, writes the run-state alone. -/
theorem next_ite_runState (c : Prop) [Decidable c] (r : RunState) (s : State) :
    (if c then .next { s with runState := r } else .next s : Host.Outcome State Fault Refusal) =
      .next { s with runState := if c then r else s.runState } := by
  split <;> rfl

/-- Settles O19: with the command enabled its guard is HOLD with the tick source stopped. -/
theorem cycleReinitializeEndsAHold : Obligations.CycleReinitializeEndsAHold := by
  refine ⟨rfl, fun s hfault hbusy => ?_⟩
  have he : backgroundEnabled s = true := backgroundEnabled_iff.2 ⟨hfault, hbusy⟩
  change execCycleReinitialize s = _
  rw [← next_ite_runState, execCycleReinitialize]
  simp only [he, Bool.true_and, Bool.and_eq_true, decide_eq_true_eq, Bool.not_eq_true']

/-- Settles O20: with the command enabled its guard is IDLE. -/
theorem queueEntersQueued : Obligations.QueueEntersQueued := by
  refine ⟨rfl, fun s hfault hbusy => ?_⟩
  have he : backgroundEnabled s = true := backgroundEnabled_iff.2 ⟨hfault, hbusy⟩
  change execQueue s = _
  rw [← next_ite_runState, execQueue]
  simp only [he, Bool.true_and, decide_eq_true_eq]

/-- Settles O21: an enabled CLEAR_CYCLE_STOP has no other guard, and its run-state is the one R607 names. -/
theorem clearCycleStopAcknowledges : Obligations.ClearCycleStopAcknowledges := by
  refine ⟨rfl, fun s hfault hbusy => ?_⟩
  change execClearCycleStop s = _
  rw [execClearCycleStop, if_pos (backgroundEnabled_iff.2 ⟨hfault, hbusy⟩)]

end Sys2Proof.Machine
end

section
/-! The decoder and the encoder undo each other, on both ports (30 R300 to R316). -/

namespace Sys2Proof

/-! ## Segment kinds (30 R301 to R303) -/

@[simp] theorem Descriptor.port_instr (d : Descriptor) : d.instr.port = .ring := by
  obtain ⟨c, x, f⟩ := d
  cases f <;> rfl

theorem Descriptor.encode_instr (d : Descriptor) : encode d.instr = segBytes (encodeDescriptor d) := by
  obtain ⟨c, x, f⟩ := d
  cases f <;> rfl

/-- The ring's words that decode: exactly the encodings of descriptors. -/
theorem decodeSegment_eq_ok {w : SegWord} {i : Instr} :
    decodeSegment w = .ok i ↔ ∃ d, decodeDescriptor w = some d ∧ d.instr = i := by
  cases h : decodeDescriptor w <;> simp [decodeSegment, h]

theorem decode_encode_instr (d : Descriptor) : decode .ring (encode d.instr) = .ok d.instr := by
  rw [d.encode_instr, decode_segBytes, decodeSegment_eq_ok]
  exact ⟨d, decodeDescriptor_encodeDescriptor d, rfl⟩

/-- The bytes of the word that two bytes of the ring make are those bytes (20 R202). -/
theorem segBytes_of_append (hi lo : Byte) : segBytes (hi ++ lo) = [lo, hi] := by
  have hlo : (hi ++ lo).extractLsb' 0 8 = lo := BitVec.extractLsb'_append_eq_right
  have hhi : (hi ++ lo).extractLsb' 8 8 = hi := BitVec.extractLsb'_append_eq_left
  rw [segBytes, hlo, hhi]

/-! ## Commands and events (30 R311, R312) -/

/-- The byte port's codes that decode: exactly the encodings of the commands and events. -/
theorem decodeCode_eq_ok {c : Byte} {i : Instr} :
    decodeCode c = .ok i ↔ i.port = .byte ∧ encode i = [c] := by
  constructor
  · intro h
    unfold decodeCode at h
    split at h
    case h_15 => split at h <;> cases h
    all_goals
      rename_i hc
      cases h
      exact ⟨rfl, congrArg (fun b => [b]) (BitVec.eq_of_toNat_eq hc.symm)⟩
  · rintro ⟨hp, he⟩
    cases i with
    | noop | endOfBlock | decel | decelEob => cases hp
    | _ => cases he; rfl

/-- Settles O1: a segment kind by its descriptor's word, a command or event by its code. -/
theorem decodeOfEncode : Obligations.DecodeOfEncode := by
  intro i
  cases i with
  | noop c d => exact decode_encode_instr ⟨c, d, .noop⟩
  | endOfBlock c d => exact decode_encode_instr ⟨c, d, .endOfBlock⟩
  | decel c d => exact decode_encode_instr ⟨c, d, .decel⟩
  | decelEob c d => exact decode_encode_instr ⟨c, d, .decelEob⟩
  | _ => rfl

/-- Settles O2: the two inversions `decodeSegment_eq_ok` and `decodeCode_eq_ok`; every other list has the wrong length. -/
theorem acceptedBytesAreEncodings : Obligations.AcceptedBytesAreEncodings := by
  intro p bs i h
  unfold decode at h
  split at h
  · rename_i lo hi
    obtain ⟨d, hd, rfl⟩ := decodeSegment_eq_ok.1 h
    exact ⟨d.port_instr, by rw [d.encode_instr, encodeDescriptor_of_decode hd, segBytes_of_append]⟩
  · exact decodeCode_eq_ok.1 h
  · cases h

/-- Settles O3: nine words of the tables, evaluated. -/
theorem specWordsDecode : Obligations.SpecWordsDecode := by
  unfold Obligations.SpecWordsDecode
  decide

/-! ## Reserved codes (30 R313, 60 R711) -/

/-- The codes the tables list (30 R311, R312). -/
abbrev ListedCode (c : Byte) : Prop := (1 ≤ c.toNat ∧ c.toNat ≤ 0x0B) ∨ (0x80 ≤ c.toNat ∧ c.toNat ≤ 0x82)

/-- A code the tables do not list is refused by name, told by bit 7. -/
theorem decodeCode_of_not_listed {c : Byte} (h : ¬ ListedCode c) :
    decodeCode c = if c.msb then .error (.reservedEvent c) else .error (.reservedCommand c) := by
  unfold decodeCode
  split
  case h_15 => rfl
  all_goals
    rename_i hc
    exact absurd (by unfold ListedCode; omega) h

/-- Every code the tables list is some instruction's. -/
theorem decodeCode_of_listed {c : Byte} (h : ListedCode c) : ∃ i, decodeCode c = .ok i := by
  unfold decodeCode
  rcases h with ⟨h1, h2⟩ | ⟨h1, h2⟩
  all_goals
    generalize c.toNat = n at h1 h2 ⊢
    interval_cases n <;> exact ⟨_, rfl⟩

end Sys2Proof

namespace Sys2Proof.Machine

/-- A step that takes a refused code changes nothing but the inputs (log 10). -/
theorem step_of_refused {s : State} {c : Byte} {rest : List Input} (hin : s.inputs = .word c :: rest)
    (hw : waitsFor c s = none) (hc : ¬ ListedCode c) : step s = .next { s with inputs := rest } := by
  have hne : c ≠ 0x81#8 := by
    rintro rfl
    exact hc (by decide)
  rw [step_of_word hin hw, runFetched_of_ne hne, decodeCode_of_not_listed hc]
  cases c.msb <;> rfl

/-- Settles O5: the listed codes are those that decode; an unlisted one is refused under the name bit 7 tells. -/
theorem reservedCodesAreRefused : Obligations.ReservedCodesAreRefused := by
  refine ⟨fun c => ⟨fun ⟨i, hi⟩ => ?_, decodeCode_of_listed⟩, fun s c rest hin hw => ⟨fun hc => ?_, fun hc => ?_⟩⟩
  · by_contra h
    change decodeCode c = .ok i at hi
    rw [decodeCode_of_not_listed h] at hi
    cases hm : c.msb <;> simp [hm] at hi
  · have hle : c.toNat ≤ 0x7F := by
      rcases hc with rfl | hc
      · decide
      · exact hc.2
    have hc : ¬ ListedCode c := by
      unfold ListedCode
      rcases hc with rfl | hc
      · decide
      · omega
    have hm : c.msb = false := by rw [BitVec.msb_eq_decide]; simp; omega
    exact ⟨by rw [decode, decodeCode_of_not_listed hc, hm]; rfl, step_of_refused hin hw hc⟩
  · have hc' : ¬ ListedCode c := by unfold ListedCode; omega
    have hm : c.msb = true := by rw [BitVec.msb_eq_decide]; simp; omega
    exact ⟨by rw [decode, decodeCode_of_not_listed hc', hm]; rfl, step_of_refused hin hw hc'⟩

end Sys2Proof.Machine
end

section
/-! Which instruction a step runs, and which inputs it takes (60 R726, R727; log 8, log 9). -/

namespace Sys2Proof.Machine

/-- A code other than TICK_BODY's that decodes is run as its instruction. -/
theorem runFetched_of_decodeCode {c : Byte} {i : Instr} {s : State} (hne : c ≠ 0x81#8) (hi : decodeCode c = .ok i) :
    runFetched c s = exec i s := by
  rw [runFetched_of_ne hne, hi]

/-- Settles O6: the definition of a step, and `fetchBytes` of a word that is not TICK_BODY. -/
theorem stepRunsTheFetchedInstruction : Obligations.StepRunsTheFetchedInstruction := by
  refine ⟨fun s s' c i hn hd => ?_, fun s c rest i hin hw hne hd => ?_⟩
  · simp only [step, hn, runFetched, hd]
  · rw [step_of_word hin hw, runFetched_of_decodeCode hne hd]

/-- A tick body taken now loads a segment, as a proposition (43 R503 to R506). -/
theorem loadDue_iff {s : State} :
    loadDue s = true ↔ s.loadState ≠ .loadNone ∧ s.runState ≠ .hold ∧ s.tail ≠ s.head := by
  simp [loadDue, and_assoc]

/-- TICK_BODY is the segment whose word stands at `tail`, where it loads one (log 12). -/
theorem exec_tickBody_of_segment {s : State} {i : Instr} (he : tickBodyEnabled s = true) (hl : loadDue s = true)
    (hn : s.tail < s.cfg.n) (hi : decode .ring (segBytes (segRead s s.tail)) = .ok i) :
    exec .tickBody s = exec i s := by
  rw [decode_segBytes] at hi
  obtain ⟨d, hd, rfl⟩ := decodeSegment_eq_ok.1 hi
  rw [exec_instr]
  exact execTickBody_of_loadDue he hl hn hd

/-- A TICK_BODY on the inputs is run at once. -/
theorem step_of_tickBody {s : State} {rest : List Input} (h : s.inputs = .word 0x81#8 :: rest) :
    step s = exec .tickBody { s with inputs := rest } := by
  rw [step_of_word h (waitsFor_tickBody s), runFetched_tickBody_eq]
  rfl

/-- With no input a pending body is the block's own next step (30 R315). -/
theorem step_of_pendingBody {s : State} (h : s.inputs = []) (he : tickBodyEnabled s = true) :
    step s = exec .tickBody s := by
  obtain ⟨hfault, hbusy⟩ := tickBodyEnabled_iff.1 he
  rw [step_of_own h (c := 0x81#8) (by simp [ownStep, hfault, hbusy]), runFetched_tickBody_eq]
  rfl

/-- Settles O7: TICK_BODY is the segment in every state, so also in the state with the word taken off the inputs. -/
theorem stepRunsTheSegmentAtTail : Obligations.StepRunsTheSegmentAtTail := by
  intro s rest i hfault hbusy hload hhold hne hn hi
  have he : tickBodyEnabled s = true := tickBodyEnabled_iff.2 ⟨hfault, hbusy⟩
  have hl : loadDue s = true := loadDue_iff.2 ⟨hload, hhold, hne⟩
  refine ⟨exec_tickBody_of_segment he hl hn hi, fun hin => ?_, fun hin => ?_⟩
  · rw [step_of_tickBody hin]
    exact exec_tickBody_of_segment (s := { s with inputs := rest }) he hl hn hi
  · rw [step_of_pendingBody hin he, exec_tickBody_of_segment he hl hn hi]

/-- No next state of TICK_BODY has another field outside the engine's (`BodyFrame`). -/
theorem bodyFrame_of_exec_tickBody {s t : State} (h : exec .tickBody s = .next t) : BodyFrame s t := by
  change execTickBody s = .next t at h
  unfold execTickBody at h
  split at h
  · exact ends_of_finish h (bodyFrame_tickBody s)
  · cases h; exact BodyFrame.refl s

/-- Settles O8: a command is a word that waits for the pending body (44 R612), and the body leaves the inputs. -/
theorem commandWaitsForTheTickBody : Obligations.CommandWaitsForTheTickBody := by
  intro s c rest hin hc hfault hbusy
  have hcmd : isCommand c = true := by
    have hm : c.msb = false := by rw [BitVec.msb_eq_decide]; simp; omega
    simp [isCommand, hm]
  have hw : waitsFor c s = some 0x81#8 := by simp [waitsFor, hfault, hcmd, hbusy]
  refine ⟨?_, fun t ht => (bodyFrame_of_exec_tickBody ht).inputs⟩
  rw [step_of_wait hin hw, runFetched_tickBody_eq]
  rfl

/-- Settles O9: one lemma for each kind of input; with nothing armed, pending, in progress or running there is no own
step. -/
theorem environmentStepsTouchOnlyTheirOwn : Obligations.EnvironmentStepsTouchOnlyTheirOwn := by
  refine ⟨fun s store rest hin => step_of_planner hin, fun s p rest hin => step_of_supply hin,
    fun s hin hbusy harmed hprep htick => step_of_nothing hin ?_⟩
  simp [ownStep, hbusy, harmed, hprep, htick]

/-! ## A word placed in the reset state (log 22) -/

/-- Nothing is pending in the reset state that a word would wait for. -/
theorem waitsFor_reset (c : Byte) (rest : List Input) :
    waitsFor c { State.reset with inputs := rest } = none := by
  simp [waitsFor, State.reset]

theorem withFetchWord_code (c : Byte) :
    State.reset.withFetchWord 8 c.toNat = { State.reset with inputs := [.word c] } := by
  have hw : waitsFor c State.reset = none := waitsFor_reset c []
  simp only [State.withFetchWord, BitVec.ofNat_toNat, BitVec.setWidth_eq, placeWord, hw]
  rfl

theorem step_reset_of_code {c : Byte} {i : Instr} (hi : decode .byte [c] = .ok i) :
    step { State.reset with inputs := [.word c] } = exec i State.reset := by
  by_cases hc : c = 0x81#8
  · subst hc
    cases hi
    exact step_of_tickBody rfl
  · rw [step_of_word rfl (waitsFor_reset c _)]
    exact runFetched_of_decodeCode hc hi

/-- Settles O10: a code stands alone on the inputs of the reset state; a segment word stands at `tail` with its TICK_BODY on
the inputs, so that `exec_tickBody_of_segment` applies. -/
theorem placedWordRunsFirst : Obligations.PlacedWordRunsFirst := by
  refine ⟨fun c i hi => ?_, fun w i hi => ?_⟩
  · rw [withFetchWord_code, step_reset_of_code hi]
  · have hw : State.reset.withFetchWord 16 w.toNat = placeSegment w State.reset := by
      simp [State.withFetchWord]
    rw [hw, step_of_tickBody rfl]
    refine exec_tickBody_of_segment rfl rfl (show 0 < 10 by decide) ?_
    have hr : segRead { placeSegment w State.reset with inputs := [] } 0 = w := by
      change segRead (segWrite 0 w State.reset) 0 = w
      rw [segRead_segWrite, if_pos rfl]
    exact hr.symm ▸ hi

end Sys2Proof.Machine
end

section
/-! The configuration check, INIT, and the lifecycle commands where they are enabled (00 R7, 70 R801, 44 section 1). -/

namespace Sys2Proof.Machine

/-! ## The configuration check (00 R7) -/

/-- One test of the check: it names its parameter, or the rest of the check decides. -/
theorem ite_some_eq_none {c : Prop} [Decidable c] {name : ParamName} {o : Option ParamName} :
    (if ¬ c then some name else o) = none ↔ c ∧ o = none := by
  by_cases h : c <;> simp [h]

/-- The check names no parameter exactly when each of its tests passes. -/
theorem firstInvalid_eq_none {p : Params} : firstInvalid p = none ↔
    (2 ≤ p.n ∧ p.n ≤ 16) ∧ (1 ≤ p.segCap ∧ p.segCap ≤ 255) ∧ 0 < p.ticksPerSecond.num ∧
      0 < p.accelTicksPerSecond.num ∧ (2 ≤ accelPeriodOf p ∧ accelPeriodOf p ≤ 65535) ∧ p.minRate ≤ 2147483647 ∧
      0 < p.fixedPointScale.num ∧
      p.pulseWidth.num * p.ticksPerSecond.num < p.pulseWidth.den * p.ticksPerSecond.den ∧ 0 ≤ p.idleLockDelay.num := by
  unfold firstInvalid
  simp only [ite_some_eq_none, and_true]

/-- `ACCEL_PERIOD` is the floor of the frequencies' quotient (00 R7). -/
theorem accelPeriodOf_eq_floor {p : Params} (h : 0 < p.accelTicksPerSecond) :
    accelPeriodOf p = ⌊p.ticksPerSecond / p.accelTicksPerSecond⌋ := floorQuotient_eq h

/-- Settles O11: the tests on numerators and denominators as conditions on rationals, where the frequencies are
positive. -/
theorem legalConfigurations : Obligations.LegalConfigurations := by
  intro p
  rw [firstInvalid_eq_none]
  simp only [Rat.num_pos, Rat.num_nonneg]
  refine and_congr_right fun _ => and_congr_right fun _ => and_congr_right fun ht => and_congr_right fun ha => ?_
  rw [accelPeriodOf_eq_floor ha, pulseWidth_lt_iff ht]
  norm_num

/-! ## INIT (70 R801) -/

theorem initEnabled_iff {s : State} : initEnabled s = true ↔ s.busy = false ∨ s.fault ≠ none := by
  simp [initEnabled, Option.isSome_iff_ne_none, or_comm]

theorem exec_init_of_legal {s : State} (he : initEnabled s = true) (hv : firstInvalid s.supplied = none) :
    exec .init s = .next (powerOn s.supplied s) := by
  change execInit s = _
  rw [execInit, if_pos he, hv]

theorem exec_init_of_illegal {s : State} {p : ParamName} (he : initEnabled s = true)
    (hv : firstInvalid s.supplied = some p) : exec .init s = .next (raiseFault (.configInvalid p) s) := by
  change execInit s = _
  rw [execInit, if_pos he, hv]

/-- Settles O12: the two forms of an enabled INIT; a legal configuration has positive frequencies, so its period is the
floor. -/
theorem initPowersOn : Obligations.InitPowersOn := by
  refine ⟨rfl, fun s hs => ⟨fun hv => ?_, fun p hp => exec_init_of_illegal (initEnabled_iff.2 hs) hp⟩⟩
  obtain ⟨-, -, -, ha, -⟩ := firstInvalid_eq_none.1 hv
  rw [exec_init_of_legal (initEnabled_iff.2 hs) hv, ← accelPeriodOf_eq_floor (Rat.num_pos.1 ha)]
  rfl

/-! ## RESET, GO_IDLE and FEED_HOLD -/

theorem clearEngine_clearEngine (s : State) : clearEngine (clearEngine s) = clearEngine s := rfl

/-- Settles O14: RESET leaves the fault, the busy flag and the tick source, so the second RESET is enabled too. -/
theorem resetIsIdempotent : Obligations.ResetIsIdempotent := by
  intro s t hfault hbusy htick h
  have he : backgroundEnabled s = true := backgroundEnabled_iff.2 ⟨hfault, hbusy⟩
  rw [exec_reset_of_stopped he (by simp [htick])] at h
  cases h
  rw [exec_reset_of_stopped (s := clearEngine s) (backgroundEnabled_iff.2 ⟨hfault, rfl⟩) (by simp [htick]),
    clearEngine_clearEngine]

/-- Settles O16: an enabled GO_IDLE is `idled`. -/
theorem goIdleStopsTheTick : Obligations.GoIdleStopsTheTick := by
  refine ⟨rfl, fun s hfault hbusy => ?_⟩
  change execGoIdle s = _
  rw [execGoIdle, if_pos (backgroundEnabled_iff.2 ⟨hfault, hbusy⟩), idled]

/-- Settles O18: with the command enabled its guard is RUNNING. -/
theorem feedHoldHoldsARunningCycle : Obligations.FeedHoldHoldsARunningCycle := by
  refine ⟨rfl, fun s hfault hbusy => ?_⟩
  have he : backgroundEnabled s = true := backgroundEnabled_iff.2 ⟨hfault, hbusy⟩
  change execFeedHold s = _
  rw [← next_ite_runState, execFeedHold]
  simp only [he, Bool.true_and, decide_eq_true_eq]

end Sys2Proof.Machine
end

section
/-! TICK_BEGIN past its guard, PULSE_RESET, and what a step that is not enabled does (43 R502, R530, 60 R700, R727). -/

namespace Sys2Proof.Machine

/-! ## TICK_BEGIN and PULSE_RESET -/

theorem exec_tickBegin_of_idle {s : State} (he : tickBeginEnabled s = true) (hb : s.busy = false) :
    exec .tickBegin s = finish (andThen (emitStaged s) fun t => .go { t with busy := true }) := by
  change execTickBegin s = _
  rw [execTickBegin, if_pos he, if_neg (by simp [hb])]

/-- With nothing staged the lines stay as they are. -/
theorem emitStaged_of_nothing {s : State} (h : ¬ s.staged = true) : emitStaged s = .go s := by
  rw [emitStaged, if_neg h]

/-- A staged word meets a pulse still on the lines (60 R709). -/
theorem emitStaged_of_overlap {s : State} (h : s.staged = true)
    (ho : s.pulseArmed = true ∧ (s.pins ^^^ s.cfg.invertMask) &&& 0x07 ≠ 0) :
    emitStaged s = .done (raiseFault (.pulseOverlap s.pins) s) := by
  rw [emitStaged, if_pos h, if_pos (by simpa [stepLineActive, stepMask] using ho), raise]

theorem emitStaged_of_clear {s : State} (h : s.staged = true)
    (ho : ¬ (s.pulseArmed = true ∧ (s.pins ^^^ s.cfg.invertMask) &&& 0x07 ≠ 0)) :
    emitStaged s = .go { s with pins := s.outBits &&& outMask, pulseArmed := true, staged := false } := by
  rw [emitStaged, if_pos h, if_neg (by simpa [stepLineActive, stepMask] using ho)]

/-- Settles O23: one case for each form of `emitStaged`. -/
theorem tickBeginEmits : Obligations.TickBeginEmits := by
  intro s hfault htick hpulse hbusy
  rw [exec_tickBegin_of_idle (tickBeginEnabled_iff.2 ⟨hfault, htick, hpulse⟩) hbusy]
  by_cases hs : s.staged = true
  · rw [if_pos hs]
    by_cases ho : s.pulseArmed = true ∧ (s.pins ^^^ s.cfg.invertMask) &&& 0x07 ≠ 0
    · rw [emitStaged_of_overlap hs ho, if_pos ho]; rfl
    · rw [emitStaged_of_clear hs ho, if_neg ho]; rfl
  · rw [emitStaged_of_nothing hs, if_neg hs]; rfl

theorem pulseResetEnabled_iff {s : State} : pulseResetEnabled s = true ↔ s.fault = none ∧ s.pulseArmed = true := by
  simp [pulseResetEnabled]

theorem exec_pulseReset_of_enabled {s : State} (he : pulseResetEnabled s = true) :
    exec .pulseReset s = .next { s with
      pins := (s.pins &&& ~~~stepMask) ||| (s.cfg.invertMask &&& stepMask)
      pulseArmed := false } := by
  change execPulseReset s = _
  rw [execPulseReset, if_pos he]

theorem or_and_mask (a b m : Byte) : (a ||| b) &&& m = (a &&& m) ||| (b &&& m) := by
  ext i hi
  simp [Bool.and_or_distrib_right]

/-- Replacing the step bits of a word by another's: the step bits are the other's, the other bits the word's. -/
theorem replaceStepBits (w m : Byte) :
    ((w &&& ~~~stepMask) ||| (m &&& stepMask)) &&& 0x07 = m &&& 0x07 ∧
      ((w &&& ~~~stepMask) ||| (m &&& stepMask)) &&& 0xF8 = w &&& 0xF8 := by
  have e1 : ~~~stepMask &&& 0x07 = 0 := by decide
  have e2 : stepMask &&& 0x07 = 0x07 := by decide
  have e3 : ~~~stepMask &&& 0xF8 = 0xF8 := by decide
  have e4 : stepMask &&& 0xF8 = 0 := by decide
  simp only [or_and_mask, BitVec.and_assoc, e1, e2, e3, e4]
  simp

/-- Settles O24: the two masks of `replaceStepBits`. -/
theorem pulseResetClearsTheStepLines : Obligations.PulseResetClearsTheStepLines := by
  refine ⟨rfl, fun s hfault harmed =>
    ⟨_, exec_pulseReset_of_enabled (pulseResetEnabled_iff.2 ⟨hfault, harmed⟩), rfl, ?_⟩⟩
  exact replaceStepBits s.pins s.cfg.invertMask

/-! ## Steps that are not enabled (60 R727; log 9) -/

/-- The background steps: the host commands, PREP_STEP, and INIT, which is enabled under a fault as well. -/
abbrev backgroundSteps : List Instr :=
  [.init, .reset, .wakeUp, .goIdle, .cycleStart, .feedHold, .cycleReinitialize, .prepareSegments, .queue,
    .clearCycleStop, .prepStep]

/-- A background step other than INIT that is not enabled leaves the state. -/
theorem exec_of_not_backgroundEnabled {s : State} (h : backgroundEnabled s = false) :
    ∀ i ∈ backgroundSteps, i ≠ .init → exec i s = .next s := by
  simp [exec, execReset, execWakeUp, execGoIdle, execCycleStart, execFeedHold, execCycleReinitialize,
    execPrepareSegments, execQueue, execClearCycleStop, execPrepStep, h]

theorem exec_init_of_not_enabled {s : State} (h : initEnabled s = false) : exec .init s = .next s := by
  change execInit s = _
  rw [execInit, if_neg (by simp [h])]

theorem exec_tickBegin_of_not_enabled {s : State} (h : tickBeginEnabled s = false) : exec .tickBegin s = .next s := by
  change execTickBegin s = _
  rw [execTickBegin, if_neg (by simp [h])]

theorem exec_tickBody_of_not_enabled {s : State} (h : tickBodyEnabled s = false) : exec .tickBody s = .next s := by
  change execTickBody s = _
  rw [execTickBody, if_neg (by simp [h])]

theorem exec_instr_of_not_enabled {s : State} (h : (tickBodyEnabled s && loadDue s) = false) (x : Descriptor) :
    exec x.instr s = .next s := by
  rw [exec_instr, runSegment, if_neg (by simp [h])]

theorem exec_pulseReset_of_not_enabled {s : State} (h : pulseResetEnabled s = false) :
    exec .pulseReset s = .next s := by
  change execPulseReset s = _
  rw [execPulseReset, if_neg (by simp [h])]

/-- Settles O49: each clause's condition is the negation of an enabling condition. -/
theorem notEnabledLeavesTheState : Obligations.NotEnabledLeavesTheState := by
  intro s
  refine ⟨fun hfault hbusy i hi => ?_, fun h => ?_, fun h => ?_, fun h x => ?_, fun h => ?_⟩
  · by_cases hinit : i = .init
    · subst hinit
      exact exec_init_of_not_enabled (by simp [initEnabled, hfault, hbusy])
    · exact exec_of_not_backgroundEnabled (by simp [backgroundEnabled, hbusy]) i hi hinit
  · exact exec_tickBegin_of_not_enabled (by rcases h with h | ⟨h1, h2⟩ <;> simp [tickBeginEnabled, *])
  · exact exec_tickBody_of_not_enabled (by simp [tickBodyEnabled, h])
  · refine exec_instr_of_not_enabled ?_ x
    rcases h with h | h | h | h <;> simp [tickBodyEnabled, loadDue, h]
  · exact exec_pulseReset_of_not_enabled (by simp [pulseResetEnabled, h])

/-! ## Under a recorded fault (60 R700) -/

/-- Every instruction is a segment kind, a device event or a background step. -/
theorem instr_cases (i : Instr) :
    (∃ x : Descriptor, i = x.instr) ∨ i ∈ [Instr.tickBegin, .tickBody, .pulseReset] ∨ i ∈ backgroundSteps := by
  cases i with
  | noop c d => exact .inl ⟨⟨c, d, .noop⟩, rfl⟩
  | endOfBlock c d => exact .inl ⟨⟨c, d, .endOfBlock⟩, rfl⟩
  | decel c d => exact .inl ⟨⟨c, d, .decel⟩, rfl⟩
  | decelEob c d => exact .inl ⟨⟨c, d, .decelEob⟩, rfl⟩
  | tickBegin | tickBody | pulseReset => exact .inr (.inl (by decide))
  | _ => exact .inr (.inr (by decide))

/-- Under a fault no agent's step but INIT is enabled. -/
theorem exec_of_fault {s : State} (h : s.fault ≠ none) {i : Instr} (hi : i ≠ .init) : exec i s = .next s := by
  have hf : s.fault.isNone = false := by simpa [Option.isSome_iff_ne_none] using h
  rcases instr_cases i with ⟨x, rfl⟩ | he | hb
  · exact exec_instr_of_not_enabled (by simp [tickBodyEnabled, hf]) x
  · simp only [List.mem_cons, List.not_mem_nil, or_false] at he
    rcases he with rfl | rfl | rfl
    · exact exec_tickBegin_of_not_enabled (by simp [tickBeginEnabled, hf])
    · exact exec_tickBody_of_not_enabled (by simp [tickBodyEnabled, hf])
    · exact exec_pulseReset_of_not_enabled (by simp [pulseResetEnabled, hf])
  · exact exec_of_not_backgroundEnabled (by simp [backgroundEnabled, hf]) i hb hi

/-- A fetched word other than INIT's leaves the state under a fault. -/
theorem runFetched_of_fault {s : State} {c : Byte} (h : s.fault ≠ none) (hc : c ≠ 0x01#8) :
    runFetched c s = .next s := by
  by_cases hb : c = 0x81#8
  · subst hb
    rw [runFetched_tickBody_eq]
    exact exec_of_fault h (i := .tickBody) (by decide)
  · rw [runFetched_of_ne hb]
    cases hd : decodeCode c with
    | error r => rfl
    | ok i =>
      refine exec_of_fault h ?_
      rintro rfl
      obtain ⟨-, henc⟩ := decodeCode_eq_ok.1 hd
      cases henc
      exact hc rfl

/-- Settles O48: nothing waits and nothing runs of itself under a fault, so a step takes one input, and a word of it leaves
the state. -/
theorem faultsAreSticky : Obligations.FaultsAreSticky := by
  refine ⟨fun i s h hi => exec_of_fault h hi, fun s t h hin hs => ?_⟩
  have hf : s.fault.isSome = true := Option.isSome_iff_ne_none.2 h
  cases hi : s.inputs with
  | nil =>
    rw [step_of_nothing hi (by simp [ownStep, hf])] at hs
    cases hs; rfl
  | cons x rest =>
    cases x with
    | word c =>
      rw [step_of_word hi (by simp [waitsFor, hf]), runFetched_of_fault (s := { s with inputs := rest }) h] at hs
      · cases hs; rfl
      · rintro rfl
        exact hin rest hi
    | planner store => rw [step_of_planner hi] at hs; cases hs; rfl
    | supply p => rw [step_of_supply hi] at hs; cases hs; rfl

end Sys2Proof.Machine
end

section
/-! A tick body on a loaded segment under the premises of no over-speed (43 R509 to R519, 70 R813, R822; log 21). -/

namespace Sys2Proof.Machine

/-! ## The ramp update -/

/-- The ramp update writes three registers. -/
theorem ramped_eq (d : SegmentData) (s : State) :
    ramped d s = { s with
      rate := (ramped d s).rate, rampCount := (ramped d s).rampCount, rampState := (ramped d s).rampState } := by
  unfold ramped
  split_ifs <;> rfl

/-- A bound of the rate, of the nominal rate and of the floor bounds the rate after the ramp update: an acceleration that
passes the nominal rate ends there. -/
theorem ramped_rate_le {d : SegmentData} {s : State} {m : Nat} (hr : s.rate ≤ m) (hn : d.nominalRate ≤ m)
    (hf : s.cfg.minRate ≤ m) : (ramped d s).rate ≤ m := by
  unfold ramped
  split_ifs
  · exact hr
  · exact hr
  · exact max_le hn hf
  all_goals exact max_le (by omega) hf

theorem ramped_rampCount_le {d : SegmentData} {s : State} {m : Nat} (hc : s.rampCount ≤ m) (hp : s.accelPeriod ≤ m) :
    (ramped d s).rampCount ≤ m := by
  unfold ramped
  split_ifs
  · exact hc
  · exact (Nat.sub_le _ _).trans hc
  all_goals exact hp

/-! ## One axis of a step event -/

/-- A step event keeps an accumulator in `[0, step_event_count - 1]` (10 R101). -/
theorem counterAfter_range {b : PlannerBlock} {a : Axis} {c : Int} (hs : atAxis b.steps a ≤ b.stepEventCount)
    (h0 : 0 ≤ c) (h1 : c < b.stepEventCount) : 0 ≤ counterAfter b a c ∧ counterAfter b a c < b.stepEventCount := by
  unfold counterAfter
  split <;> omega

/-! ## The body -/

/-- The state between the ramp update and the step event (43 R513). -/
abbrev countedDown (s : State) : State :=
  { ramped (dataRead s s.curData) s with
    counterD := (ramped (dataRead s s.curData) s).counterD - (ramped (dataRead s s.curData) s).rate }

/-- The fields of that state: the ramp's three registers and `counter_d` are written. -/
theorem countedDown_eq (s : State) : countedDown s = { s with
    rate := (ramped (dataRead s s.curData) s).rate
    rampCount := (ramped (dataRead s s.curData) s).rampCount
    rampState := (ramped (dataRead s s.curData) s).rampState
    counterD := s.counterD - (ramped (dataRead s s.curData) s).rate } := by
  unfold countedDown
  rw [ramped_eq]

theorem ticked_of_event {b : PlannerBlock} {s : State} (h : (countedDown s).counterD < 0) :
    ticked b s = { evented b (dataRead s s.curData) (countedDown s) with busy := false } := by
  unfold ticked
  exact congrArg (fun t : State => { t with busy := false }) (if_pos h)

theorem ticked_of_no_event {b : PlannerBlock} {s : State} (h : ¬ (countedDown s).counterD < 0) :
    ticked b s = { countedDown s with busy := false } := by
  unfold ticked
  exact congrArg (fun t : State => { t with busy := false }) (if_neg h)

/-- Under `SafeToTick` no write of the body is out of range. -/
theorem engineTick_eq_ticked {b : PlannerBlock} {s : State} (h : SafeToTick b s) :
    engineTick s = .go (ticked b s) := by
  obtain ⟨⟨hheld, hbad, hx0, hx1, hy0, hy1, hz0, hz1⟩, ⟨hd0, hd1, hrate, hnom, hmin, hnsd, hsum⟩, ⟨hpx, hpy, hpz⟩,
    hseg1, hseg2, hrc, hap, hcur⟩ := h
  have hr := ramped_rate_le (d := dataRead s s.curData) hrate hnom hmin
  have hcd := countedDown_eq s
  unfold engineTick
  rw [needSlot_of_lt hcur, andThen_go,
    rampUpdate_eq_ramped hrc hap (by omega) (by omega) (by omega) (fun _ _ => by omega), andThen_go]
  have hw : writeCounterD ((ramped (dataRead s s.curData) s).counterD - (ramped (dataRead s s.curData) s).rate)
      (ramped (dataRead s s.curData) s) = .go (countedDown s) :=
    writeCounterD_of (inInt32_iff.2 (by rw [ramped_eq]; dsimp only; omega))
  rw [inverseTime, hw, andThen_go]
  by_cases hneg : (countedDown s).counterD < 0
  · have hheld' : heldBlock (countedDown s) = some b := by rw [hcd]; exact hheld
    have hev : stepEvent (dataRead s s.curData) (countedDown s) =
        .go (evented b (dataRead s s.curData) (countedDown s)) := by
      simp only [stepEvent, loadedBlock, countFreeBlock, hheld']
      refine stepEventWith_eq_evented hbad (inInt32_iff.2 ?_) (fun a => ?_) (fun a => ?_) ?_ ?_
      · rw [hcd] at hneg ⊢
        dsimp only at hneg ⊢
        omega
      all_goals rw [hcd]
      · cases a
        · exact ⟨hx0, hx1⟩
        · exact ⟨hy0, hy1⟩
        · exact ⟨hz0, hz1⟩
      · cases a
        · exact hpx
        · exact hpy
        · exact hpz
      · exact hseg1
      · exact hseg2
    rw [if_pos hneg, hev, andThen_go, ticked_of_event hneg]
  · rw [if_neg hneg, andThen_go, ticked_of_no_event hneg]

/-- TICK_BODY on a loaded segment is the body from the ramp update on. -/
theorem exec_tickBody_of_loaded {s : State} (he : tickBodyEnabled s = true) (hl : s.loadState = .loadNone) :
    exec .tickBody s = finish (engineTick s) := by
  rw [exec_tickBody_of_enabled he, tickBody, if_pos hl]

/-- Settles O29: the body is `engineTick`, which `SafeToTick` makes `ticked`. -/
theorem loadedTickCompletes : Obligations.LoadedTickCompletes := by
  intro b s hfault hbusy hl h
  rw [exec_tickBody_of_loaded (tickBodyEnabled_iff.2 ⟨hfault, hbusy⟩) hl, engineTick_eq_ticked h, finish_go]

end Sys2Proof.Machine
end

section
/-! What such a body keeps of its premises (43 R541, 70 R822; log 21). -/

namespace Sys2Proof.Machine

variable {b : PlannerBlock} {s : State}

/-- The two forms of `ticked`: without and with a step event. -/
theorem ticked_cases (b : PlannerBlock) (s : State) :
    (0 ≤ (countedDown s).counterD ∧ ticked b s = { countedDown s with busy := false }) ∨
      ((countedDown s).counterD < 0 ∧
        ticked b s = { evented b (dataRead s s.curData) (countedDown s) with busy := false }) := by
  rcases lt_or_ge (countedDown s).counterD 0 with h | h
  · exact .inr ⟨h, ticked_of_event h⟩
  · exact .inl ⟨h, ticked_of_no_event (not_lt.2 h)⟩

/-- Fields the body never writes, and two that only its ramp update writes. -/
theorem ticked_frame (b : PlannerBlock) (s : State) :
    (ticked b s).mem = s.mem ∧ (ticked b s).curData = s.curData ∧ (ticked b s).cfg = s.cfg ∧
      (ticked b s).accelPeriod = s.accelPeriod ∧ (ticked b s).fault = s.fault ∧
      (ticked b s).rate = (ramped (dataRead s s.curData) s).rate ∧
      (ticked b s).rampCount = (ramped (dataRead s s.curData) s).rampCount := by
  rcases ticked_cases b s with ⟨-, h⟩ | ⟨-, h⟩ <;> rw [h, countedDown_eq] <;> exact ⟨rfl, rfl, rfl, rfl, rfl, rfl, rfl⟩

/-- `counter_d` goes below 0 by at most the rate, and a step event then adds `next_step_distance` (43 R541). -/
theorem ticked_counterD_range (hd : 0 ≤ s.counterD ∧ s.counterD ≤ (dataRead s s.curData).nextStepDistance)
    (hr : (ramped (dataRead s s.curData) s).rate ≤ (dataRead s s.curData).nextStepDistance) :
    0 ≤ (ticked b s).counterD ∧ (ticked b s).counterD ≤ (dataRead s s.curData).nextStepDistance := by
  rcases ticked_cases b s with ⟨hc, h⟩ | ⟨hc, h⟩ <;> rw [h] <;> rw [countedDown_eq] at hc ⊢ <;>
    dsimp only [evented] at hc ⊢ <;> omega

theorem ticked_speedBounded (h : SpeedBounded s) : SpeedBounded (ticked b s) := by
  obtain ⟨hd0, hd1, hrate, hnom, hmin, hnsd, hsum⟩ := h
  obtain ⟨hmem, hcur, hcfg, -, -, hr, -⟩ := ticked_frame b s
  have hle := ramped_rate_le (d := dataRead s s.curData) hrate hnom hmin
  have hread : dataRead (ticked b s) (ticked b s).curData = dataRead s s.curData := by rw [dataRead, hmem, hcur]; rfl
  have hcd := ticked_counterD_range (b := b) ⟨hd0, hd1⟩ hle
  simp only [SpeedBounded, hread, hr, hcfg]
  exact ⟨hcd.1, hcd.2, hle, hnom, hmin, hnsd, hsum⟩

/-- Every accumulator stays in `[0, step_event_count - 1]`. -/
theorem ticked_counter_range (h : BlockLoaded b s) (a : Axis) :
    0 ≤ atAxis (ticked b s).counter a ∧ atAxis (ticked b s).counter a < b.stepEventCount := by
  obtain ⟨-, hbad, hx0, hx1, hy0, hy1, hz0, hz1⟩ := h
  obtain ⟨-, hs, -⟩ := badBlock_eq_false.1 hbad
  rcases ticked_cases b s with ⟨-, h⟩ | ⟨-, h⟩ <;> rw [h, countedDown_eq]
  · cases a
    · exact ⟨hx0, hx1⟩
    · exact ⟨hy0, hy1⟩
    · exact ⟨hz0, hz1⟩
  · cases a
    · exact counterAfter_range (hs .x) hx0 hx1
    · exact counterAfter_range (hs .y) hy0 hy1
    · exact counterAfter_range (hs .z) hz0 hz1

/-- The step count is not raised, and while the segment is loaded a step event is left. -/
theorem ticked_segmentSteps (h : 1 ≤ s.segmentSteps) :
    (ticked b s).segmentSteps ≤ s.segmentSteps ∧
      ((ticked b s).loadState = .loadNone → 1 ≤ (ticked b s).segmentSteps) := by
  rcases ticked_cases b s with ⟨-, ht⟩ | ⟨-, ht⟩ <;> rw [ht, countedDown_eq]
  · exact ⟨le_rfl, fun _ => h⟩
  · refine ⟨Nat.sub_le _ _, fun hn => ?_⟩
    by_cases h1 : s.segmentSteps = 1
    · cases he : s.curFlag.eob <;> simp [evented, h1, he] at hn
    · show 1 ≤ s.segmentSteps - 1
      omega

theorem heldBlock_congr {s t : State} (hc : t.curBlock = s.curBlock) (hp : t.planner = s.planner) :
    heldBlock t = heldBlock s := by
  have : blockOfRef t = blockOfRef s := funext fun r => by simp only [blockOfRef, hp]
  rw [heldBlock, heldBlock, hc, this]

/-- Until the block ends it is the block that is held. -/
theorem ticked_heldBlock (h : heldBlock s = some b) (hl : (ticked b s).loadState ≠ .loadBlock) :
    heldBlock (ticked b s) = some b := by
  rcases ticked_cases b s with ⟨-, ht⟩ | ⟨-, ht⟩ <;> rw [ht, countedDown_eq] at hl ⊢
  · exact h
  · by_cases he : (decide (s.segmentSteps = 1) && s.curFlag.eob) = true
    · simp [evented, he] at hl
    · exact (heldBlock_congr (s := s) (by simp [evented, he]) (by simp [evented, he])).trans h

/-- With room for the positions, the body after a body on the same segment is safe as well. -/
theorem ticked_safe (h : SafeToTick b s) (hl' : (ticked b s).loadState = .loadNone)
    (hp : PositionsInside (ticked b s)) : SafeToTick b (ticked b s) := by
  obtain ⟨hblock, hspeed, -, hseg1, hseg2, hrc, hap, hcur⟩ := h
  obtain ⟨-, hcurData, hcfg, hperiod, -, -, hcount⟩ := ticked_frame b s
  obtain ⟨hle, hleft⟩ := ticked_segmentSteps (b := b) hseg1
  have hc := ticked_counter_range hblock
  refine ⟨⟨ticked_heldBlock hblock.1 (by simp [hl']), hblock.2.1, (hc .x).1, (hc .x).2, (hc .y).1, (hc .y).2, (hc .z).1,
    (hc .z).2⟩, ticked_speedBounded hspeed, hp, hleft hl', hle.trans hseg2, ?_, ?_, ?_⟩
  · rw [hcount]; exact ramped_rampCount_le hrc hap
  · rw [hperiod]; exact hap
  · rw [hcurData, hcfg]; exact hcur

/-- Settles O30: the next state is `ticked`, and each premise has its own lemma. -/
theorem loadedTickKeepsThePremises : Obligations.LoadedTickKeepsThePremises := by
  intro b s t hfault hbusy hl h ht
  rw [loadedTickCompletes b s hfault hbusy hl h] at ht
  cases ht
  obtain ⟨hblock, hspeed, -, hseg1, hseg2, hrc, hap, hcur⟩ := id h
  obtain ⟨-, hcurData, hcfg, hperiod, hf, -, hcount⟩ := ticked_frame b s
  obtain ⟨hle, hleft⟩ := ticked_segmentSteps (b := b) hseg1
  have hc := ticked_counter_range hblock
  refine ⟨hf.trans hfault, ticked_speedBounded hspeed, ?_, ?_, hle.trans hseg2, ?_, hleft, hc .x, hc .y, hc .z,
    ticked_heldBlock hblock.1, ticked_safe h⟩
  · rw [hcount]; exact ramped_rampCount_le hrc hap
  · rw [hperiod]; exact hap
  · rw [hcurData, hcfg]; exact hcur

end Sys2Proof.Machine
end

section
/-! Segments that load, and bodies that fault (30 R304, 43 R506 to R523, 60 R702 to R707). -/

namespace Sys2Proof.Machine

/-! ## A load that passes its checks -/

/-- A segment that is due is the body that loads it. -/
theorem exec_instr_of_due {s : State} (he : tickBodyEnabled s = true) (hl : loadDue s = true) (x : Descriptor) :
    exec x.instr s = finish (andThen (loadSegment x s) engineTick) := by
  rw [exec_instr, runSegment, if_pos (by rw [he, hl]; rfl), segmentBody]

/-- A segment of the loaded block, of any kind. -/
theorem exec_instr_of_continued {b : PlannerBlock} {s : State} {x : Descriptor} (he : tickBodyEnabled s = true)
    (hd : loadDue s = true) (hl : s.loadState = .loadSegment) (hi : x.index.toNat < s.cfg.n) (hc : x.count ≠ 0)
    (hr : s.rampCount ≤ s.accelPeriod) (h : SafeToTick b (continued x s)) :
    exec x.instr s = .next (ticked b (continued x s)) := by
  obtain ⟨-, -, -, -, -, -, hap, -⟩ := id h
  rw [exec_instr_of_due he hd, loadSegment_eq_of_continued hi hc (by simp [hl]) hap hr, andThen_go,
    engineTick_eq_ticked h, finish_go]

/-- The first segment of the planner's current block, of any kind. -/
theorem exec_instr_of_started {b : PlannerBlock} {s : State} {x : Descriptor} (he : tickBodyEnabled s = true)
    (hd : loadDue s = true) (hl : s.loadState = .loadBlock) (hi : x.index.toNat < s.cfg.n) (hc : x.count ≠ 0)
    (hb : currentBlock s = some b) (h : SafeToTick b (started b x s)) :
    exec x.instr s = .next (ticked b (started b x s)) := by
  obtain ⟨⟨-, hbad, -⟩, ⟨-, -, hrate, -, -, hnsd, -⟩, -, -, -, -, hap, -⟩ := id h
  have hrate' : max (dataRead s x.index.toNat).initialRate s.cfg.minRate ≤ 4294967295 :=
    le_trans (le_trans hrate hnsd) (by decide)
  rw [exec_instr_of_due he hd, loadSegment_eq_of_started hi hc hl hb hbad hnsd hrate' hap, andThen_go,
    engineTick_eq_ticked h, finish_go]

/-- Settles O31: `exec_instr_of_continued` for each of the four kinds. -/
theorem segmentContinuesItsBlock : Obligations.SegmentContinuesItsBlock := by
  intro b s c d hfault hbusy hl hhold hne hi hc hr
  have he : tickBodyEnabled s = true := tickBodyEnabled_iff.2 ⟨hfault, hbusy⟩
  have hd : loadDue s = true := loadDue_iff.2 ⟨by simp [hl], hhold, hne⟩
  exact ⟨exec_instr_of_continued (x := ⟨c, d, .noop⟩) he hd hl hi hc hr,
    exec_instr_of_continued (x := ⟨c, d, .endOfBlock⟩) he hd hl hi hc hr,
    exec_instr_of_continued (x := ⟨c, d, .decel⟩) he hd hl hi hc hr,
    exec_instr_of_continued (x := ⟨c, d, .decelEob⟩) he hd hl hi hc hr⟩

/-- Settles O32: `exec_instr_of_started` for each of the four kinds. -/
theorem segmentStartsABlock : Obligations.SegmentStartsABlock := by
  intro b s c d hfault hbusy hl hhold hne hi hc hb
  have he : tickBodyEnabled s = true := tickBodyEnabled_iff.2 ⟨hfault, hbusy⟩
  have hd : loadDue s = true := loadDue_iff.2 ⟨by simp [hl], hhold, hne⟩
  exact ⟨exec_instr_of_started (x := ⟨c, d, .noop⟩) he hd hl hi hc hb,
    exec_instr_of_started (x := ⟨c, d, .endOfBlock⟩) he hd hl hi hc hb,
    exec_instr_of_started (x := ⟨c, d, .decel⟩) he hd hl hi hc hb,
    exec_instr_of_started (x := ⟨c, d, .decelEob⟩) he hd hl hi hc hb⟩

/-! ## A load that faults -/

/-- A word at `tail` that is no descriptor (60 R705). -/
theorem tickBody_of_reservedBits {s : State} (hd : loadDue s = true) (hn : s.tail < s.cfg.n)
    (hw : decodeDescriptor (segRead s s.tail) = none) :
    tickBody s = .done (raiseFault (.reservedBits s.tail) s) := by
  obtain ⟨hload, hhold, hne⟩ := loadDue_iff.1 hd
  rw [tickBody, if_neg hload, if_neg hhold, if_neg hne, needSlot_of_lt hn, andThen_go, hw, raise]

theorem loadSegment_of_badIndex {s : State} {x : Descriptor} (h : s.cfg.n ≤ x.index.toNat) :
    loadSegment x s = .done (raiseFault (.badDataIndex s.tail) s) := by
  rw [loadSegment, if_pos h, raise]

theorem loadSegment_of_zeroCount {s : State} {x : Descriptor} (h : x.index.toNat < s.cfg.n) (hc : x.count = 0) :
    loadSegment x s = .done (raiseFault (.zeroStepSegment s.tail) s) := by
  rw [loadSegment, if_neg (not_le.2 h), if_pos hc, raise]

/-- At a block load whose block part faults, the latch is all that is written before it (60 R700). -/
theorem loadSegment_of_loadBlock_done {s t : State} {x : Descriptor} (h : x.index.toNat < s.cfg.n) (hc : x.count ≠ 0)
    (hl : s.loadState = .loadBlock) (hb : loadBlock (latch x s) = .done t) : loadSegment x s = .done t := by
  rw [loadSegment, if_neg (not_le.2 h), if_neg hc, if_pos hl, hb, andThen_done]

theorem loadBlock_of_no_block {s : State} (h : currentBlock s = none) :
    loadBlock s = .done (raiseFault (.noCurrentBlock s.tail) s) := by
  rw [loadBlock, h, raise]

theorem loadBlock_of_badBlock {b : PlannerBlock} {s : State} (h : currentBlock s = some b) (hb : badBlock b = true) :
    loadBlock s = .done (raiseFault (.badBlock b.ident) s) := by
  rw [loadBlock, h]
  exact if_pos hb

/-- A segment whose load ends the step in `t` ends there. -/
theorem exec_instr_of_load_done {s t : State} {x : Descriptor} (he : tickBodyEnabled s = true)
    (hd : loadDue s = true) (h : loadSegment x s = .done t) : exec x.instr s = .next t := by
  rw [exec_instr_of_due he hd, h, andThen_done, finish_done]

/-- Settles O33: the three checks of R304, in their order. -/
theorem malformedSegmentsFault : Obligations.MalformedSegmentsFault := by
  intro s hfault hbusy hload hhold hne
  have he : tickBodyEnabled s = true := tickBodyEnabled_iff.2 ⟨hfault, hbusy⟩
  have hd : loadDue s = true := loadDue_iff.2 ⟨hload, hhold, hne⟩
  refine ⟨fun hn hw => ?_, fun x hx => exec_instr_of_load_done he hd (loadSegment_of_badIndex hx),
    fun x hx hc => exec_instr_of_load_done he hd (loadSegment_of_zeroCount hx hc)⟩
  rw [exec_tickBody_of_enabled he, tickBody_of_reservedBits hd hn (decodeDescriptor_eq_none.2 hw), finish_done, raiseFault]

/-- Settles O34: the two faults of `loadBlock` in the state after the latch. -/
theorem blockLoadFaults : Obligations.BlockLoadFaults := by
  intro s x hfault hbusy hl hhold hne hx hc
  have he : tickBodyEnabled s = true := tickBodyEnabled_iff.2 ⟨hfault, hbusy⟩
  have hd : loadDue s = true := loadDue_iff.2 ⟨by simp [hl], hhold, hne⟩
  exact ⟨fun hb => exec_instr_of_load_done he hd
      (loadSegment_of_loadBlock_done hx hc hl (loadBlock_of_no_block (s := latch x s) hb)),
    fun b hb hbad => exec_instr_of_load_done he hd
      (loadSegment_of_loadBlock_done hx hc hl (loadBlock_of_badBlock (s := latch x s) hb hbad))⟩

/-! ## A ramp update that faults -/

/-- An acceleration past uint32 ends the ramp update after the countdown's reload (43 R509, R510). -/
theorem rampUpdate_of_overflow {d : SegmentData} {s : State} (hs : s.rampState = .accel) (hc : s.rampCount ≤ 1)
    (hp : s.accelPeriod ≤ 65535) (hr : 4294967295 < s.rate + d.rateDelta) :
    rampUpdate d s = .done (raiseFault (.range .rate) { s with rampCount := s.accelPeriod }) := by
  have h0 : s.rampCount - 1 = 0 := by omega
  have hout : inUint32 ((s.rate + d.rateDelta : Nat) : Int) = false := by
    rw [Bool.eq_false_iff, ne_eq, inUint32_iff]; omega
  rw [rampUpdate, if_neg (by simp [hs]), h0, writeRampCount_of (by decide), andThen_go, if_pos rfl,
    writeRampCount_of hp, andThen_go, accelTick, if_pos hs, accelerate, writeRate, put_of_outOfRange hout]
  rfl

/-- Settles O35: the body ends where its ramp update does. -/
theorem rateOverflowFaults : Obligations.RateOverflowFaults := by
  intro s hfault hbusy hl hs hc hp hn hr
  rw [exec_tickBody_of_loaded (tickBodyEnabled_iff.2 ⟨hfault, hbusy⟩) hl, engineTick, needSlot_of_lt hn, andThen_go,
    rampUpdate_of_overflow hs hc hp hr]
  rfl

end Sys2Proof.Machine
end

section
/-! The ramp within a loaded segment (43 R542). -/

namespace Sys2Proof.Machine

/-! ## A ramp update that goes on -/

theorem writeRate_eq_go {v : Nat} {s t : State} (h : writeRate v s = .go t) : t = { s with rate := v } := by
  obtain ⟨-, rfl⟩ := put_eq_go.1 h
  rfl

theorem writeRampCount_eq_go {v : Nat} {s t : State} (h : writeRampCount v s = .go t) :
    t = { s with rampCount := v } := by
  obtain ⟨-, rfl⟩ := put_eq_go.1 h
  rfl

/-- An acceleration tick that goes on: in ACCEL the sum, or the nominal rate and CRUISE; else the decrease; then the floor
(43 R510 to R512). -/
theorem accelTick_eq_go {d : SegmentData} {s t : State} (h : accelTick d s = .go t) :
    t = if s.rampState = .accel then
        if d.nominalRate ≤ s.rate + d.rateDelta then
          { s with rampState := .cruise, rate := max d.nominalRate s.cfg.minRate }
        else { s with rate := max (s.rate + d.rateDelta) s.cfg.minRate }
      else { s with rate := max (if d.rateDelta < s.rate then s.rate - d.rateDelta else s.rate / 2) s.cfg.minRate } := by
  obtain ⟨s1, h1, h2⟩ := andThen_eq_go.1 h
  rw [writeRate_eq_go h2]
  split_ifs at h1 ⊢ with ha hn hd
  · obtain ⟨s2, h3, h4⟩ := andThen_eq_go.1 h1
    cases writeRate_eq_go h3
    rw [if_pos hn] at h4
    obtain ⟨s3, h5, h6⟩ := andThen_eq_go.1 h4
    cases writeRate_eq_go h5
    cases h6
    rfl
  · obtain ⟨s2, h3, h4⟩ := andThen_eq_go.1 h1
    cases writeRate_eq_go h3
    rw [if_neg hn] at h4
    cases h4
    rfl
  · rw [decelerate, if_pos hd] at h1
    cases writeRate_eq_go h1
    rfl
  · rw [decelerate, if_neg hd] at h1
    cases writeRate_eq_go h1
    rfl

/-- A ramp update that goes on gives `ramped`, whatever the registers hold. -/
theorem rampUpdate_eq_go {d : SegmentData} {s t : State} (h : rampUpdate d s = .go t) : t = ramped d s := by
  unfold rampUpdate at h
  unfold ramped
  split_ifs at h with hc
  · cases h; rw [if_pos hc]
  · obtain ⟨s1, h1, h2⟩ := andThen_eq_go.1 h
    cases writeRampCount_eq_go h1
    rw [if_neg hc]
    by_cases hn : s.rampCount - 1 = 0
    · rw [if_pos hn] at h2
      obtain ⟨s2, h3, h4⟩ := andThen_eq_go.1 h2
      cases writeRampCount_eq_go h3
      rw [if_neg (by omega), accelTick_eq_go h4]
    · rw [if_neg hn] at h2
      cases h2
      rw [if_pos (by omega)]

/-! ## The body after its ramp update -/

/-- The rate and the ramp state are as in the state `r`. -/
abbrev SameRamp (r s : State) : Prop := s.rate = r.rate ∧ s.rampState = r.rampState

/-- The inverse-time tick writes neither. -/
theorem sameRamp_event (r : State) : KeptByEvent (SameRamp r) (fun _ => True) := by
  exact ⟨fun _ _ _ h _ => h, fun _ _ _ h _ => h, fun _ _ h _ => h, fun _ _ h _ => h, fun _ h => by simpa [SameRamp] using h,
    fun _ _ h => h, fun _ h => h, fun _ _ _ => trivial⟩

/-- A body without a fault has the rate and the ramp state of its ramp update. -/
theorem ramp_of_exec_tickBody {s t : State} (he : tickBodyEnabled s = true) (hl : s.loadState = .loadNone)
    (h : exec .tickBody s = .next t) (hf : t.fault = none) : SameRamp (ramped (dataRead s s.curData) s) t := by
  rw [exec_tickBody_of_loaded he hl] at h
  rcases finish_eq_next.1 h with h | h
  · simp only [engineTick, andThen_eq_go, needSlot_eq_go] at h
    obtain ⟨_, ⟨-, rfl⟩, s1, h1, s2, h2, h⟩ := h
    cases rampUpdate_eq_go h1
    cases h
    have hk : SameRamp (ramped (dataRead s s.curData) s) s2 :=
      ends_of_go ((sameRamp_event _).inverseTime ⟨rfl, rfl⟩ _) h2
    exact hk
  · exact absurd hf (ends_of_done (engineTick_done_fault s) h)

theorem ramped_of_accel {d : SegmentData} {s : State} (hs : s.rampState = .accel) (hr : s.rate ≤ d.nominalRate)
    (hm : s.cfg.minRate ≤ d.nominalRate) :
    s.rate ≤ (ramped d s).rate ∧ (ramped d s).rate ≤ d.nominalRate ∧ (ramped d s).rampState ≠ .decel := by
  refine ⟨?_, ramped_rate_le hr le_rfl hm, ?_⟩ <;> unfold ramped <;> rw [if_neg (by simp [hs]), if_pos hs] <;> split_ifs
  · exact le_rfl
  · exact hr.trans (le_max_left _ _)
  · exact (Nat.le_add_right _ _).trans (le_max_left _ _)
  all_goals simp [hs]

theorem ramped_of_decel {d : SegmentData} {s : State} (hs : s.rampState = .decel) (hm : s.cfg.minRate ≤ s.rate) :
    (ramped d s).rate ≤ s.rate ∧ s.cfg.minRate ≤ (ramped d s).rate ∧ (ramped d s).rampState = .decel := by
  unfold ramped
  rw [if_neg (by simp [hs]), if_neg (show ¬ s.rampState = .accel by simp [hs])]
  split_ifs
  · exact ⟨le_rfl, hm, hs⟩
  · exact ⟨max_le (Nat.sub_le _ _) hm, le_max_right _ _, hs⟩
  · exact ⟨max_le (Nat.div_le_self _ _) hm, le_max_right _ _, hs⟩

/-- Settles O36: a body without a fault has the ramp update's rate and ramp state, one lemma for each ramp state. -/
theorem rampIsMonotone : Obligations.RampIsMonotone := by
  intro s t hfault hbusy hl h hf
  obtain ⟨hrate, hstate⟩ := ramp_of_exec_tickBody (tickBodyEnabled_iff.2 ⟨hfault, hbusy⟩) hl h hf
  rw [hrate, hstate]
  refine ⟨ramped_of_accel, ramped_of_decel, fun hs => ?_⟩
  rw [ramped, if_pos hs]
  exact ⟨rfl, hs⟩

end Sys2Proof.Machine
end

section
/-! What a tick body does not read: the lines, the one-shot and, on a loaded segment, the run-state (43 R504, R530,
44 R604). -/

namespace Sys2Proof.Machine

/-- Other values in the registers that a body on a loaded segment neither reads nor writes. -/
def setOutside (r : RunState) (p : Byte) (a : Bool) (s : State) : State :=
  { s with runState := r, pins := p, pulseArmed := a }

/-- A part's outcome with its state changed. -/
def mapFlow (g : State → State) : Flow → Flow
  | .go s => .go (g s)
  | .done s => .done (g s)
  | .stop r => .stop r

theorem finish_mapFlow (g : State → State) (f : Flow) : finish (mapFlow g f) = mapNext g (finish f) := by
  cases f <;> rfl

theorem mapFlow_andThen {g : State → State} {f f' : Flow} {k k' : State → Flow} (hf : f' = mapFlow g f)
    (hk : ∀ s, k' (g s) = mapFlow g (k s)) : andThen f' k' = mapFlow g (andThen f k) := by
  subst hf
  cases f with
  | go s => exact hk s
  | done s => rfl
  | stop r => rfl

theorem mapFlow_ite {g : State → State} {c c' : Prop} [Decidable c] [Decidable c'] {f f' h h' : Flow}
    (hc : c' ↔ c) (hf : f' = mapFlow g f) (hh : h' = mapFlow g h) :
    (if c' then f' else h') = mapFlow g (if c then f else h) := by
  by_cases hp : c
  · rw [if_pos hp, if_pos (hc.2 hp), hf]
  · rw [if_neg hp, if_neg (fun h => hp (hc.1 h)), hh]

section

variable (r : RunState) (p : Byte) (a : Bool) (s : State)

/-! ## Writes -/

theorem put_setOutside {g : Reg} {c : Bool} {w w' : State} (hw : w' = setOutside r p a w) :
    put g c w' (setOutside r p a s) = mapFlow (setOutside r p a) (put g c w s) := by
  subst hw
  cases c <;> rfl

theorem writeCounter_setOutside (ax : Axis) (v : Int) : writeCounter ax v (setOutside r p a s) =
    mapFlow (setOutside r p a) (writeCounter ax v s) := put_setOutside r p a s rfl

theorem writePosition_setOutside (ax : Axis) (v : Int) : writePosition ax v (setOutside r p a s) =
    mapFlow (setOutside r p a) (writePosition ax v s) := put_setOutside r p a s rfl

theorem writeCounterD_setOutside (v : Int) : writeCounterD v (setOutside r p a s) =
    mapFlow (setOutside r p a) (writeCounterD v s) := put_setOutside r p a s rfl

theorem writeRate_setOutside (v : Int) : writeRate v (setOutside r p a s) =
    mapFlow (setOutside r p a) (writeRate v s) := put_setOutside r p a s rfl

theorem writeRampCount_setOutside (v : Int) : writeRampCount v (setOutside r p a s) =
    mapFlow (setOutside r p a) (writeRampCount v s) := put_setOutside r p a s rfl

theorem writeSegmentSteps_setOutside (v : Int) : writeSegmentSteps v (setOutside r p a s) =
    mapFlow (setOutside r p a) (writeSegmentSteps v s) := put_setOutside r p a s rfl

theorem needSlot_setOutside (i : Nat) : needSlot i (setOutside r p a s) =
    mapFlow (setOutside r p a) (needSlot i s) := mapFlow_ite Iff.rfl rfl rfl

theorem finishSegment_setOutside :
    finishSegment (setOutside r p a s) = setOutside r p a (finishSegment s) := by
  cases h : s.curFlag <;> simp [finishSegment, setOutside, discardCurrentBlock, ringNext, SegFlag.eob, h]

theorem countFreeBlock_setOutside :
    countFreeBlock (setOutside r p a s) = setOutside r p a (countFreeBlock s) := by
  have h : heldBlock (setOutside r p a s) = heldBlock s := rfl
  unfold countFreeBlock
  rw [h]
  cases heldBlock s <;> rfl

/-! ## The body on a loaded segment -/

theorem accelTick_setOutside (d : SegmentData) : accelTick d (setOutside r p a s) =
    mapFlow (setOutside r p a) (accelTick d s) := by
  refine mapFlow_andThen (mapFlow_ite Iff.rfl ?_ ?_) fun t => writeRate_setOutside r p a t _
  · exact mapFlow_andThen (writeRate_setOutside r p a s _) fun s1 =>
      mapFlow_ite Iff.rfl (mapFlow_andThen (writeRate_setOutside r p a s1 _) fun _ => rfl) rfl
  · exact mapFlow_ite Iff.rfl (writeRate_setOutside r p a s _) (writeRate_setOutside r p a s _)

theorem rampUpdate_setOutside (d : SegmentData) : rampUpdate d (setOutside r p a s) =
    mapFlow (setOutside r p a) (rampUpdate d s) :=
  mapFlow_ite Iff.rfl rfl <| mapFlow_andThen (writeRampCount_setOutside r p a s _) fun s1 =>
    mapFlow_ite Iff.rfl (mapFlow_andThen (writeRampCount_setOutside r p a s1 _) fun s2 =>
      accelTick_setOutside r p a s2 d) rfl

theorem stepAxis_setOutside (b : PlannerBlock) (ax : Axis) : stepAxis b ax (setOutside r p a s) =
    mapFlow (setOutside r p a) (stepAxis b ax s) :=
  mapFlow_andThen (writeCounter_setOutside r p a s ax _) fun s1 =>
    mapFlow_ite Iff.rfl (mapFlow_andThen (writeCounter_setOutside r p a s1 ax _) fun s2 =>
      writePosition_setOutside r p a s2 ax _) rfl

theorem countStep_setOutside : countStep (setOutside r p a s) = mapFlow (setOutside r p a) (countStep s) :=
  mapFlow_andThen (writeSegmentSteps_setOutside r p a s _) fun s1 =>
    mapFlow_ite Iff.rfl (congrArg Flow.go (finishSegment_setOutside r p a s1)) rfl

theorem stepEvent_setOutside (d : SegmentData) : stepEvent d (setOutside r p a s) =
    mapFlow (setOutside r p a) (stepEvent d s) := by
  have hb : loadedBlock (setOutside r p a s) = loadedBlock s := rfl
  rw [stepEvent, hb, countFreeBlock_setOutside]
  exact mapFlow_andThen (writeCounterD_setOutside r p a _ _) fun s1 =>
    mapFlow_andThen (stepAxis_setOutside r p a s1 _ .x) fun s2 =>
    mapFlow_andThen (stepAxis_setOutside r p a s2 _ .y) fun s3 =>
    mapFlow_andThen (stepAxis_setOutside r p a s3 _ .z) fun s4 =>
    mapFlow_andThen (countStep_setOutside r p a s4) fun _ => rfl

theorem engineTick_setOutside : engineTick (setOutside r p a s) = mapFlow (setOutside r p a) (engineTick s) :=
  mapFlow_andThen (needSlot_setOutside r p a s _) fun s0 =>
    mapFlow_andThen (rampUpdate_setOutside r p a s0 _) fun s1 =>
    mapFlow_andThen (mapFlow_andThen (writeCounterD_setOutside r p a s1 _) fun s2 =>
      mapFlow_ite Iff.rfl (stepEvent_setOutside r p a s2 _) rfl) fun _ => rfl

/-! ## The load -/

theorem loadBlock_setOutside : loadBlock (setOutside r p a s) = mapFlow (setOutside r p a) (loadBlock s) := by
  have h : currentBlock (setOutside r p a s) = currentBlock s := rfl
  unfold loadBlock
  rw [h]
  cases currentBlock s with
  | none => rfl
  | some b =>
    exact mapFlow_ite Iff.rfl rfl <| mapFlow_andThen (writeCounterD_setOutside r p a (seedBlock b s) _) fun s1 =>
      mapFlow_andThen (writeRate_setOutside r p a s1 _) fun s2 =>
        writeRampCount_setOutside r p a { s2 with rampState := .accel } _

theorem forceDecel_setOutside : forceDecel (setOutside r p a s) = mapFlow (setOutside r p a) (forceDecel s) := by
  have h : (setOutside r p a s).rampState = s.rampState := rfl
  unfold forceDecel
  refine mapFlow_andThen ?_ fun _ => rfl
  rw [h]
  cases s.rampState with
  | cruise => exact writeRampCount_setOutside r p a s _
  | accel => exact writeRampCount_setOutside r p a s _
  | decel => rfl

theorem segmentBody_setOutside (d : Descriptor) : segmentBody d (setOutside r p a s) =
    mapFlow (setOutside r p a) (segmentBody d s) := by
  refine mapFlow_andThen ?_ fun t => engineTick_setOutside r p a t
  refine mapFlow_ite Iff.rfl rfl (mapFlow_ite Iff.rfl rfl (mapFlow_andThen ?_ fun s1 => mapFlow_andThen ?_ fun _ => rfl))
  · exact mapFlow_ite Iff.rfl (loadBlock_setOutside r p a (latch d s)) rfl
  · exact mapFlow_ite Iff.rfl (forceDecel_setOutside r p a s1) rfl

/-- Every tick body, with the run-state as it was: the load reads it (43 R504). -/
theorem tickBody_setOutside : tickBody (setOutside s.runState p a s) =
    mapFlow (setOutside s.runState p a) (tickBody s) := by
  refine mapFlow_ite Iff.rfl (engineTick_setOutside _ p a s) (mapFlow_ite Iff.rfl rfl (mapFlow_ite Iff.rfl rfl
    (mapFlow_andThen (needSlot_setOutside _ p a s _) fun s1 => ?_)))
  have h : segRead (setOutside s.runState p a s1) (setOutside s.runState p a s1).tail = segRead s1 s1.tail := rfl
  rw [h]
  cases decodeDescriptor (segRead s1 s1.tail) with
  | none => rfl
  | some d => exact segmentBody_setOutside _ p a s1 d

end

/-- Settles O28: the body on a loaded segment with another run-state is `engineTick_setOutside`; the lines and the one-shot
are those of its start. -/
theorem loadedSegmentIgnoresTheRunState : Obligations.LoadedSegmentIgnoresTheRunState := by
  intro s r hl
  by_cases he : tickBodyEnabled s = true
  · have hframe : ∀ t, finish (engineTick s) = .next t → setOutside r s.pins s.pulseArmed t = { t with runState := r } := by
      intro t ht
      have hb := bodyFrame_of_exec_tickBody ((exec_tickBody_of_loaded he hl).trans ht)
      rw [setOutside, hb.pins, hb.pulseArmed]
    have hs : { s with runState := r } = setOutside r s.pins s.pulseArmed s := rfl
    rw [exec_tickBody_of_loaded he hl, exec_tickBody_of_loaded (s := { s with runState := r }) he hl, hs,
      engineTick_setOutside, finish_mapFlow]
    cases h : finish (engineTick s) with
    | next t => exact congrArg _ (hframe t h)
    | fault f => rfl
    | refused f => rfl
  · have he : tickBodyEnabled s = false := eq_false_of_ne_true he
    rw [exec_tickBody_of_not_enabled he, exec_tickBody_of_not_enabled (s := { s with runState := r }) he]
    rfl

/-- The lines after a pulse reset (43 R530). -/
def resetLines (s : State) : Byte := (s.pins &&& ~~~stepMask) ||| (s.cfg.invertMask &&& stepMask)

theorem exec_pulseReset_eq_setOutside {s : State} (he : pulseResetEnabled s = true) :
    exec .pulseReset s = .next (setOutside s.runState (resetLines s) false s) :=
  exec_pulseReset_of_enabled he

/-- Settles O25: the pulse reset is `setOutside` with lines that are the same after the body, since the body leaves the lines
and the invert mask. -/
theorem pulseResetCommutesWithTheBody : Obligations.PulseResetCommutesWithTheBody := by
  intro s t u hbusy harmed hfault ht hfault' hu
  have he : tickBodyEnabled s = true := tickBodyEnabled_iff.2 ⟨hfault, hbusy⟩
  have hb := bodyFrame_of_exec_tickBody ht
  have hlines : resetLines t = resetLines s := by rw [resetLines, resetLines, hb.pins, hb.cfg]
  rw [exec_pulseReset_eq_setOutside (pulseResetEnabled_iff.2 ⟨hfault, harmed⟩)] at hu
  rw [exec_pulseReset_eq_setOutside (pulseResetEnabled_iff.2 ⟨hfault', hb.pulseArmed.trans harmed⟩), hlines, hb.runState]
  cases hu
  refine ⟨_, ?_, rfl⟩
  rw [exec_tickBody_of_enabled he] at ht
  rw [exec_tickBody_of_enabled (s := setOutside s.runState (resetLines s) false s) he, tickBody_setOutside,
    finish_mapFlow, ht, mapNext]

end Sys2Proof.Machine
end

section
/-! How far a tick body moves the position (43 R541, 70 R832). -/

namespace Sys2Proof.Machine

variable {P Q : State → Prop}

/-- The ends of TICK_BODY, from those of the body on a loaded segment, of the two idle paths, of a raised fault and of the
body of each segment that may stand at `tail`. -/
theorem ends_tickBody_of {s : State} (loaded : s.loadState = .loadNone → Ends P Q (engineTick s))
    (hold : Q (idled s)) (empty : Q { idled s with cycleStop := true }) (fault : ∀ r, Q (raiseFault r s))
    (segment : s.loadState ≠ .loadNone → ∀ d, Ends P Q (segmentBody d s)) : Ends P Q (tickBody s) := by
  refine ends_ite loaded fun hl => ends_ite (fun _ => hold) fun _ => ends_ite (fun _ => empty) fun _ =>
    ends_andThen (P' := fun t => t = s) (ends_needSlot fun _ => rfl) fun t ht => ?_
  subst ht
  split
  · exact fault _
  · exact segment hl _

/-- No axis is more than one step from where it was in `s`, and the axes of `l` are where they were. -/
def MovedOutside (l : List Axis) (s t : State) : Prop :=
  ∀ a, (a ∈ l → atAxis t.position a = atAxis s.position a) ∧
    atAxis s.position a - 1 ≤ atAxis t.position a ∧ atAxis t.position a ≤ atAxis s.position a + 1

theorem MovedOutside.of_position_eq (l : List Axis) {s t : State} (h : t.position = s.position) :
    MovedOutside l s t := by
  intro a
  rw [h]
  exact ⟨fun _ => rfl, by omega, by omega⟩

theorem MovedOutside.mono {l l' : List Axis} {s t : State} (h : MovedOutside l s t) (hl : l' ⊆ l) :
    MovedOutside l' s t :=
  fun a => ⟨fun ha => (h a).1 (hl ha), (h a).2⟩

/-- A step of one axis that has not moved. -/
theorem ends_stepAxis_moved {l : List Axis} {ax : Axis} {s t : State} (h : MovedOutside (ax :: l) s t) (hl : ax ∉ l)
    (b : PlannerBlock) : Ends (MovedOutside l s) (MovedOutside [] s) (stepAxis b ax t) := by
  have hcounter : ∀ u v, MovedOutside (ax :: l) s u →
      Ends (MovedOutside (ax :: l) s) (MovedOutside [] s) (writeCounter ax v u) := fun u v hu =>
    ends_put (fun _ => hu) fun _ => hu.mono (List.nil_subset _)
  refine ends_andThen (hcounter t _ h) fun u hu => ends_ite (fun _ => ?_) fun _ => hu.mono (List.subset_cons_self _ _)
  refine ends_andThen (hcounter u _ hu) fun v hv => ends_put (fun _ a => ?_) fun _ => hv.mono (List.nil_subset _)
  by_cases ha : a = ax
  · subst ha
    have hp := (hv a).1 (List.mem_cons_self ..)
    simp only [atAxis_setAxis, if_true, stepped, hp]
    exact ⟨fun hm => absurd hm hl, by split <;> omega, by split <;> omega⟩
  · simp only [atAxis_setAxis, ha, if_false]
    exact ⟨fun hm => (hv a).1 (List.mem_cons_of_mem _ hm), (hv a).2⟩

theorem ends_countStep_moved {s t : State} (h : MovedOutside [] s t) :
    Ends (MovedOutside [] s) (MovedOutside [] s) (countStep t) :=
  ends_andThen (P' := MovedOutside [] s) (ends_put (fun _ => h) fun _ => h) fun u hu =>
    ends_ite (fun _ => by simpa [MovedOutside] using hu) fun _ => hu

/-- A step event steps the axes one after the other. -/
theorem ends_stepEvent_moved {s t : State} (h : t.position = s.position) (d : SegmentData) :
    Ends (MovedOutside [] s) (MovedOutside [] s) (stepEvent d t) := by
  have h0 : MovedOutside [.x, .y, .z] s (countFreeBlock t) := .of_position_eq _ (by simpa using h)
  exact ends_andThen (P' := MovedOutside [.x, .y, .z] s)
      (ends_put (fun _ => h0) fun _ => h0.mono (List.nil_subset _)) fun _ h1 =>
    ends_andThen (ends_stepAxis_moved h1 (by decide) _) fun _ h2 =>
    ends_andThen (ends_stepAxis_moved h2 (by decide) _) fun _ h3 =>
    ends_andThen (ends_stepAxis_moved h3 (by decide) _) fun _ h4 =>
    ends_andThen (ends_countStep_moved h4) fun _ h5 => h5

/-- The load and the ramp update write no position. -/
theorem positionKept_load (s : State) : KeptByLoad (fun t => t.position = s.position) (MovedOutside [] s) :=
  ⟨⟨fun _ _ h _ => h, fun _ _ h _ => h, fun _ _ h => h, fun _ _ h => .of_position_eq [] h⟩, fun _ _ h _ => h,
    fun _ _ h _ _ => h, fun _ _ h _ _ => h, fun _ h => h⟩

theorem ends_engineTick_moved {s t : State} (h : t.position = s.position) :
    Ends (MovedOutside [] s) (MovedOutside [] s) (engineTick t) :=
  ends_andThen (P' := fun u => u.position = s.position) (ends_needSlot fun _ => h) fun _ h0 =>
    ends_andThen ((positionKept_load s).toKeptByRamp.rampUpdate h0 _) fun _ h1 =>
    ends_andThen (P' := MovedOutside [] s)
      (ends_andThen (P' := fun u => u.position = s.position) (ends_put (fun _ => h1) fun _ => .of_position_eq [] h1)
        fun _ h2 => ends_ite (fun _ => ends_stepEvent_moved h2 _) fun _ => .of_position_eq [] h2)
      fun _ h3 => h3

/-- Every tick body moves each axis by at most one step. -/
theorem ends_tickBody_moved (s : State) : Ends (MovedOutside [] s) (MovedOutside [] s) (tickBody s) :=
  ends_tickBody_of (fun _ => ends_engineTick_moved rfl) (.of_position_eq [] rfl) (.of_position_eq [] rfl)
    (fun _ => .of_position_eq [] rfl) fun _ d =>
    ends_andThen ((positionKept_load s).loadSegment rfl d) fun _ h => ends_engineTick_moved h

/-- Settles O37: only a step event writes the position, and it steps each axis once. -/
theorem atMostOneStepPerTick : Obligations.AtMostOneStepPerTick := by
  intro s t h
  have hm : MovedOutside [] s t := by
    by_cases he : tickBodyEnabled s = true
    · rw [exec_tickBody_of_enabled he] at h
      exact ends_of_finish h (ends_tickBody_moved s)
    · rw [exec_tickBody_of_not_enabled (eq_false_of_ne_true he)] at h
      cases h
      exact .of_position_eq [] rfl
  exact ⟨(hm .x).2, (hm .y).2, (hm .z).2⟩

end Sys2Proof.Machine
end

section
/-! Every step keeps the rings in canonical form (log 3). -/

namespace Sys2Proof.Machine

/-! ## Invariants of every step -/

/-- A property that every instruction keeps in every state, and that the inputs, the planner's store and INIT's operand do
not enter, is kept by every step. -/
theorem kept_by_step {P : State → Prop} {s t : State} (hs : P s) (h : step s = .next t)
    (env : ∀ u store p inputs, P u → P { u with planner := store, supplied := p, inputs := inputs })
    (commands : ∀ u, P u → HoldsAfterCommands P u) (agents : ∀ u, P u → HoldsAfterAgents P u) : P t := by
  refine holds_of_step h ?_ (fun inputs => env s s.planner s.supplied inputs hs) fun i inputs hi => ?_
  · unfold environmentStep
    split
    · exact env s _ s.supplied _ hs
    · exact env s s.planner _ _ hs
    all_goals exact hs
  · have hu := env s s.planner s.supplied inputs hs
    exact holds_of_exec hi (commands _ hu) (agents _ hu)

/-! ## The canonical form -/

/-- Both rings are in canonical form. -/
abbrev MemCanonical (s : State) : Prop := s.mem.wf

theorem memCanonical_commands {s : State} (h : MemCanonical s) : HoldsAfterCommands MemCanonical s := by
  constructor <;> intros <;> simpa [MemCanonical] using h

theorem memCanonical_load : KeptByLoad MemCanonical MemCanonical :=
  ⟨⟨fun _ _ h _ => h, fun _ _ h _ => h, fun _ _ h => h, fun _ _ h => h⟩, fun _ _ h _ => h, fun _ _ h _ _ => h,
    fun _ _ h _ _ => h, fun _ h => h⟩

theorem memCanonical_event : KeptByEvent MemCanonical MemCanonical :=
  ⟨fun _ _ _ h _ => h, fun _ _ _ h _ => h, fun _ _ h _ => h, fun _ _ h _ => h,
    fun _ h => by simpa [MemCanonical] using h, fun _ _ h => h, fun _ h => h, fun _ _ h => h⟩

theorem memCanonical_prep : KeptByPrep MemCanonical MemCanonical where
  nextSlot _ _ h := h
  started _ _ h _ _ _ := wf_dataWrite h
  startedOnly _ _ h _ _ := wf_dataWrite h
  consumed _ _ h := wf_dataWrite h
  closeBlock _ _ h := by simpa [MemCanonical] using h
  publish _ _ _ _ h _ := wf_segWrite h
  prepReturn _ _ h := h
  fault _ _ h := h

theorem memCanonical_agents {s : State} (h : MemCanonical s) : HoldsAfterAgents MemCanonical s where
  overrun := h
  overlap := h
  begin _ := h
  emit _ := h
  tickBody _ := ends_tickBody memCanonical_load memCanonical_event (fun _ h => h) (fun _ h => h) (fun _ h => h) h
  segment _ d := ends_segmentBody memCanonical_load memCanonical_event (fun _ h => h) h d
  pulseReset _ := h
  prepStep := ends_mono (memCanonical_prep.prepStep h) (fun _ hu _ => hu) fun _ hu => hu

/-- Settles O55: only the preparer writes the rings, through `cellSet`. -/
theorem stepKeepsMemoryCanonical : Obligations.StepKeepsMemoryCanonical := by
  intro s t hs h
  exact kept_by_step (P := MemCanonical) hs h (fun _ _ _ _ hu => hu) (fun _ => memCanonical_commands)
    fun _ => memCanonical_agents

/-- Settles O56: both lists are empty. -/
theorem resetMemoryIsCanonical : Obligations.ResetMemoryIsCanonical := by
  unfold Obligations.ResetMemoryIsCanonical
  decide

end Sys2Proof.Machine
end

section
/-! Every step keeps every register in its range (10 R100). -/

namespace Sys2Proof.Machine

/-! ## A legal configuration -/

theorem cfg_n_bounds {s : State} (h : ConfigLegal s) : 2 ≤ s.cfg.n ∧ s.cfg.n ≤ 16 :=
  (firstInvalid_eq_none.1 h.1).1

/-- `ACCEL_PERIOD` is a uint16 (00 R7). -/
theorem accelPeriod_le {s : State} (h : ConfigLegal s) : s.accelPeriod ≤ 65535 := by
  obtain ⟨-, -, -, -, ⟨-, hp⟩, -⟩ := firstInvalid_eq_none.1 h.1
  have := h.2.1
  omega

/-- The check does not read the invert mask. -/
theorem firstInvalid_heldParams (p : Params) : firstInvalid (heldParams p) = firstInvalid p := rfl

/-! ## Masked words (10 R106, R135) -/

/-- Bits 7:6 of a word cut to the six lines are 0. -/
theorem outMask_high (w : Byte) : (w &&& outMask) &&& 0xC0#8 = 0 := by
  have e : outMask &&& 0xC0#8 = 0 := by decide
  rw [BitVec.and_assoc, e]; exact BitVec.and_zero

/-- The lines after a pulse reset, where neither the lines nor the invert mask have bits 7:6 set. -/
theorem resetLines_high {s : State} (hp : s.pins &&& 0xC0#8 = 0) : resetLines s &&& 0xC0#8 = 0 := by
  have e : stepMask &&& 0xC0#8 = 0 := by decide
  have e' : ~~~stepMask &&& 0xC0#8 = 0xC0#8 := by decide
  rw [resetLines, or_and_mask, BitVec.and_assoc, BitVec.and_assoc, e, e', hp]
  exact BitVec.zero_or.trans BitVec.and_zero

/-! ## The host's commands -/

theorem inRange_woken {s : State} (h : InRange s) : InRange (woken s) := by
  obtain ⟨⟨hx, hy, hz, hcd, hss, hr, hdd, hrc, hob, hcur, ht⟩, hrest⟩ := h
  unfold woken tickStarted
  split
  · exact ⟨⟨hx, hy, hz, hcd, hss, hr, hdd, hrc, outMask_high _, hcur, ht⟩, hrest⟩
  · exact ⟨⟨hx, hy, hz, hcd, hss, hr, hdd, hrc, hob, hcur, ht⟩, hrest⟩

/-- The registers RESET clears. -/
theorem clearEngine_registers {s : State} (hn : 2 ≤ s.cfg.n) :
    EngineInRange (clearEngine s) ∧ ProducerInRange (clearEngine s) := by
  have h0 : inInt32 0 = true := by decide
  have h1 : 1 = (0 + 1) % s.cfg.n := (Nat.mod_eq_of_lt (by omega)).symm
  have hlt : 0 < s.cfg.n := by omega
  have hw : (0 : Byte) &&& 0xC0#8 = 0 := by decide
  exact ⟨⟨h0, h0, h0, h0, Nat.zero_le _, Nat.zero_le _, Nat.zero_le _, Nat.zero_le _, hw, hlt, hlt⟩, hlt, h1, hlt⟩

theorem inRange_clearEngine {s : State} (h : InRange s) : InRange (clearEngine s) := by
  obtain ⟨-, -, hmem, hout, hcfg⟩ := h
  obtain ⟨he, hp⟩ := clearEngine_registers (cfg_n_bounds hcfg).1
  exact ⟨he, hp, hmem, hout, hcfg⟩

/-- INIT clears the registers under the supplied configuration, which its check has passed. -/
theorem inRange_powerOn {s : State} (h : InRange s) (hv : firstInvalid s.supplied = none) :
    InRange (powerOn s.supplied s) := by
  obtain ⟨-, -, hmem, -, -⟩ := h
  obtain ⟨⟨hn, -⟩, -, -, -, ⟨hp, -⟩, -⟩ := firstInvalid_eq_none.1 hv
  have h0 : inInt32 0 = true := by decide
  have hperiod : ((accelPeriodOf s.supplied).toNat : Int) = accelPeriodOf s.supplied := Int.toNat_of_nonneg (by omega)
  obtain ⟨hengine, hproducer⟩ := clearEngine_registers
    (s := { s with cfg := heldParams s.supplied, accelPeriod := (accelPeriodOf s.supplied).toNat }) hn
  exact ⟨hengine, hproducer, hmem, ⟨h0, h0, h0, outMask_high _⟩, hv, hperiod, outMask_high _⟩

theorem inRange_commands {s : State} (h : InRange s) : HoldsAfterCommands InRange s where
  stay := h
  initFault _ := h
  init hv := inRange_powerOn h hv
  resetFault _ := h
  reset _ _ := inRange_clearEngine h
  wakeUp _ := inRange_woken h
  goIdle _ := h
  cycleStart _ _ := inRange_woken (s := { s with runState := .running }) h
  feedHold _ := h
  cycleReinitialize _ _ _ := h
  queue _ := h
  clearCycleStop _ := h

/-! ## The tick bodies -/

theorem forall_axis_setAxis {p : Int → Prop} {v : PerAxis Int} {a : Axis} {e : Int} (hx : p v.x) (hy : p v.y)
    (hz : p v.z) (he : p e) : p (setAxis v a e).x ∧ p (setAxis v a e).y ∧ p (setAxis v a e).z := by
  cases a
  · exact ⟨he, hy, hz⟩
  · exact ⟨hx, he, hz⟩
  · exact ⟨hx, hy, he⟩

theorem inRange_seedBlock {s : State} {b : PlannerBlock} (h : InRange s) (hb : badBlock b = false) :
    InRange (seedBlock b s) := by
  obtain ⟨⟨-, -, -, hcd, hss, hr, hdd, hrc, -, hcur, ht⟩, hrest⟩ := h
  obtain ⟨⟨-, hE⟩, -⟩ := badBlock_eq_false.1 hb
  have hseed : inInt32 ((b.stepEventCount / 2 : Nat) : Int) = true := inInt32_iff.2 (by omega)
  exact ⟨⟨hseed, hseed, hseed, hcd, hss, hr, hdd, hrc, outMask_high _, hcur, ht⟩, hrest⟩

theorem inRange_finishSegment {s : State} (h : InRange s) : InRange (finishSegment s) := by
  obtain ⟨⟨hx, hy, hz, hcd, hss, hr, hdd, hrc, hob, hcur, -⟩, hprod, hmem, hout, hcfg⟩ := h
  have ht : (s.tail + 1) % s.cfg.n < s.cfg.n := Nat.mod_lt _ (by have := cfg_n_bounds hcfg; omega)
  unfold finishSegment
  split <;> exact ⟨⟨hx, hy, hz, hcd, hss, hr, hdd, hrc, hob, hcur, ht⟩, hprod, hmem, hout, hcfg⟩

theorem inRange_load : KeptByLoad InRange InRange where
  rate _ _ := fun ⟨⟨hx, hy, hz, hcd, hss, _, hdd, hrc, hob, hcur, ht⟩, hrest⟩ hv =>
    ⟨⟨hx, hy, hz, hcd, hss, hv, hdd, hrc, hob, hcur, ht⟩, hrest⟩
  rampCount _ _ := fun ⟨⟨hx, hy, hz, hcd, hss, hr, hdd, _, hob, hcur, ht⟩, hrest⟩ hv =>
    ⟨⟨hx, hy, hz, hcd, hss, hr, hdd, hv, hob, hcur, ht⟩, hrest⟩
  rampState _ _ h := h
  fault _ _ h := h
  counterD _ _ := fun ⟨⟨hx, hy, hz, _, hss, hr, hdd, hrc, hob, hcur, ht⟩, hrest⟩ hv =>
    ⟨⟨hx, hy, hz, hv, hss, hr, hdd, hrc, hob, hcur, ht⟩, hrest⟩
  latch _ d := fun ⟨⟨hx, hy, hz, hcd, _, hr, hdd, hrc, hob, _, ht⟩, hrest⟩ hi _ =>
    ⟨⟨hx, hy, hz, hcd, Nat.le_of_lt_succ d.count.isLt, hr, hdd, hrc, hob, hi, ht⟩, hrest⟩
  seedBlock _ _ h _ hb := inRange_seedBlock h hb
  loaded _ h := h

theorem inRange_event : KeptByEvent InRange InRange where
  counter _ _ _ := fun ⟨⟨hx, hy, hz, hcd, hss, hr, hdd, hrc, hob, hcur, ht⟩, hrest⟩ hv =>
    have ⟨hx', hy', hz'⟩ := forall_axis_setAxis (p := fun e => inInt32 e = true) hx hy hz hv
    ⟨⟨hx', hy', hz', hcd, hss, hr, hdd, hrc, hob, hcur, ht⟩, hrest⟩
  position _ _ _ := fun ⟨hengine, hprod, hmem, ⟨hx, hy, hz, hp⟩, hcfg⟩ hv =>
    have ⟨hx', hy', hz'⟩ := forall_axis_setAxis (p := fun e => inInt32 e = true) hx hy hz hv
    ⟨hengine, hprod, hmem, ⟨hx', hy', hz', hp⟩, hcfg⟩
  counterD := inRange_load.counterD
  segmentSteps _ _ := fun ⟨⟨hx, hy, hz, hcd, _, hr, hdd, hrc, hob, hcur, ht⟩, hrest⟩ hv =>
    ⟨⟨hx, hy, hz, hcd, hv, hr, hdd, hrc, hob, hcur, ht⟩, hrest⟩
  finishSegment _ h := inRange_finishSegment h
  stageWord _ _ := fun ⟨⟨hx, hy, hz, hcd, hss, hr, hdd, hrc, _, hcur, ht⟩, hrest⟩ =>
    ⟨⟨hx, hy, hz, hcd, hss, hr, hdd, hrc, outMask_high _, hcur, ht⟩, hrest⟩
  freeCount _ h := h
  fault _ _ h := h

/-! ## The preparer -/

/-- What the rate converter's range check says (41 R403 to R406). -/
theorem rateInRange_of_firstBadRate {b : PlannerBlock} {p : Params} (h : firstBadRate b p = none) (f : RateField) :
    rateInRange f (rateOutput f b p) = true := by
  have := List.find?_eq_none.1 h f (by cases f <;> decide)
  simpa using this

/-- The fields of a record that starts a valid block, but for `decelerate_after`, which it keeps. -/
theorem recordInRange_startedData {b : PlannerBlock} {p : Params} {d : SegmentData} (hb : badBlock b = false)
    (hr : firstBadRate b p = none) (hd : d.decelerateAfter ≤ 4294967295) : RecordInRange (startedData b p d) := by
  obtain ⟨⟨-, hE⟩, -⟩ := badBlock_eq_false.1 hb
  have hi := inUint32_iff.1 (rateInRange_of_firstBadRate hr .initialRate)
  have hn := inUint32_iff.1 (rateInRange_of_firstBadRate hr .nominalRate)
  have hδ := inUint32_iff.1 (rateInRange_of_firstBadRate hr .rateDelta)
  have hs := rateInRange_of_firstBadRate hr .nextStepDistance
  simp only [rateInRange, Bool.and_eq_true, decide_eq_true_eq] at hs
  refine ⟨?_, ?_, ?_, ?_, ?_, hd⟩ <;> simp only [startedData] <;> omega

theorem recordInRange_dataRead {s : State} (h : InRange s) (i : Nat) : RecordInRange (dataRead s i) := by
  obtain ⟨-, -, hmem, -⟩ := h
  rcases cellGet_mem_or_default (dflt := SegmentData.unwritten) s.mem.data i with hd | hd
  · rw [dataRead, hd]; decide
  · exact hmem _ hd

theorem decelerateAfter_le {s : State} (h : InRange s) (i : Nat) : (dataRead s i).decelerateAfter ≤ 4294967295 := by
  obtain ⟨-, -, -, -, -, hd⟩ := recordInRange_dataRead h i
  exact hd

theorem inRange_dataWrite {s : State} {i : Nat} {d : SegmentData} (h : InRange s) (hd : RecordInRange d) :
    InRange (dataWrite i d s) := by
  obtain ⟨hengine, hprod, hmem, hrest⟩ := h
  refine ⟨hengine, hprod, fun e he => ?_, hrest⟩
  rcases mem_cellSet he with rfl | he
  · exact hd
  · exact hmem e he

theorem recordInRange_consume {d : SegmentData} (h : RecordInRange d) (n : Nat) : RecordInRange (consume n d) := by
  obtain ⟨hrem, hi, hn, hδ, hs, hd⟩ := h
  refine ⟨(Nat.sub_le _ _).trans hrem, hi, hn, hδ, hs, ?_⟩
  simp only [consume]
  split <;> omega

theorem inRange_publish {s : State} (h : InRange s) (n slot : Nat) (f : SegFlag) : InRange (publish n slot f s) := by
  obtain ⟨hengine, ⟨-, hnext, hdp⟩, hmem, hout, hcfg⟩ := h
  have hlt : s.nextHead < s.cfg.n := hnext ▸ Nat.mod_lt _ (by have := cfg_n_bounds hcfg; omega)
  exact ⟨hengine, ⟨hlt, rfl, hdp⟩, hmem, hout, hcfg⟩

theorem inRange_prep : KeptByPrep InRange InRange where
  nextSlot _ _ := fun ⟨hengine, ⟨hh, hnext, _⟩, hmem, hout, hcfg⟩ =>
    ⟨hengine, ⟨hh, hnext, Nat.mod_lt _ (by have := cfg_n_bounds hcfg; omega)⟩, hmem, hout, hcfg⟩
  started s _ h hb hr hv := by
    obtain ⟨hrem, hi, hn, hδ, hs, -⟩ := recordInRange_startedData hb hr (decelerateAfter_le h s.dataPrepIndex)
    exact inRange_dataWrite h ⟨hrem, hi, hn, hδ, hs, hv⟩
  startedOnly s _ h hb hr := inRange_dataWrite h (recordInRange_startedData hb hr (decelerateAfter_le h s.dataPrepIndex))
  consumed s n h := inRange_dataWrite h (recordInRange_consume (recordInRange_dataRead h s.dataPrepIndex) n)
  closeBlock s d h := by
    unfold closeBlock
    split <;> exact h
  publish _ _ _ _ h _ := inRange_publish h _ _ _
  prepReturn _ _ h := h
  fault _ _ h := h

theorem inRange_agents {s : State} (h : InRange s) : HoldsAfterAgents InRange s where
  overrun := h
  overlap := h
  begin _ := h
  emit _ := by
    obtain ⟨hengine, hprod, hmem, ⟨hx, hy, hz, -⟩, hcfg⟩ := h
    exact ⟨hengine, hprod, hmem, ⟨hx, hy, hz, outMask_high _⟩, hcfg⟩
  tickBody _ := ends_tickBody inRange_load inRange_event (fun _ h => h) (fun _ h => h) (fun _ h => h) h
  segment _ d := ends_segmentBody inRange_load inRange_event (fun _ h => h) h d
  pulseReset _ := by
    obtain ⟨hengine, hprod, hmem, ⟨hx, hy, hz, hp⟩, hcfg⟩ := h
    exact ⟨hengine, hprod, hmem, ⟨hx, hy, hz, resetLines_high hp⟩, hcfg⟩
  prepStep := ends_mono (inRange_prep.prepStep h) (fun _ hu _ => hu) fun _ hu => hu

/-- Settles O53: the commands by `inRange_commands`, the agents by the writes of a body and of a PREP_STEP, each of which is
checked or bounded by what the step has checked before. -/
theorem stepKeepsRanges : Obligations.StepKeepsRanges := by
  intro s t hs h
  exact kept_by_step (P := fun u => InRange u) hs h (fun _ _ _ _ hu => hu) (fun _ => inRange_commands)
    fun _ => inRange_agents

/-- Settles O54: the reset state's registers, evaluated. -/
theorem resetIsInRange : Obligations.ResetIsInRange := by
  unfold Obligations.ResetIsInRange
  decide

end Sys2Proof.Machine
end

section
/-! Every step keeps the run-state, the tick source, the busy flag and the load state consistent (10 R102, R110 to R112,
R137). -/

namespace Sys2Proof.Machine

/-- The tick source runs only in RUNNING or HOLD, and a body is pending only while it runs. -/
abbrev TickConsistent (s : State) : Prop :=
  (s.tickEnabled = true → s.runState = .running ∨ s.runState = .hold) ∧ (s.busy = true → s.tickEnabled = true)

/-- No block is current only if a block load is due, and a loaded segment has a step event left. -/
abbrev LoadConsistent (s : State) : Prop :=
  (s.loadState ≠ .loadBlock → s.curBlock.isSome = true) ∧ (s.loadState = .loadNone → 1 ≤ s.segmentSteps)

theorem controlConsistent_iff {s : State} : ControlConsistent s ↔ TickConsistent s ∧ LoadConsistent s :=
  and_assoc.symm

/-! ## The tick source through a body: a body stops it or leaves it -/

theorem tickConsistent_load : KeptByLoad TickConsistent TickConsistent :=
  ⟨⟨fun _ _ h _ => h, fun _ _ h _ => h, fun _ _ h => h, fun _ _ h => h⟩, fun _ _ h _ => h, fun _ _ h _ _ => h,
    fun _ _ h _ _ => h, fun _ h => h⟩

theorem tickConsistent_event : KeptByEvent TickConsistent TickConsistent :=
  ⟨fun _ _ _ h _ => h, fun _ _ _ h _ => h, fun _ _ h _ => h, fun _ _ h _ => h,
    fun _ h => by simpa [TickConsistent] using h, fun _ _ h => h, fun _ h => h, fun _ _ h => h⟩

theorem tickConsistent_bodyEnded (s : State) (h : TickConsistent s) : TickConsistent { s with busy := false } :=
  ⟨h.1, by simp⟩

theorem tickConsistent_idled (s : State) : TickConsistent (idled s) := by simp [TickConsistent, idled]

/-! ## The load state through a body -/

/-- A block is current and a step event is left: what a load gives, and what the engine then runs on. -/
abbrev SegmentHeld (s : State) : Prop := s.curBlock.isSome = true ∧ 1 ≤ s.segmentSteps

/-- A segment is loaded, of a current block, with a step event left. -/
abbrev SegmentLoaded (s : State) : Prop := s.loadState = .loadNone ∧ SegmentHeld s

theorem LoadConsistent.of_held {s : State} (h : SegmentHeld s) : LoadConsistent s := ⟨fun _ => h.1, fun _ => h.2⟩

theorem LoadConsistent.of_loadBlock {s : State} (h : s.loadState = .loadBlock) : LoadConsistent s := by
  simp [LoadConsistent, h]

theorem one_le_count {d : Descriptor} (h : d.count ≠ 0) : 1 ≤ d.count.toNat := by
  have : d.count.toNat ≠ 0 := fun h0 => h (BitVec.eq_of_toNat_eq h0)
  omega

theorem segmentHeld_load : KeptByLoad SegmentHeld LoadConsistent :=
  ⟨⟨fun _ _ h _ => h, fun _ _ h _ => h, fun _ _ h => h, fun _ _ h => .of_held h⟩, fun _ _ h _ => h,
    fun _ _ h _ hc => ⟨h.1, one_le_count hc⟩, fun _ _ h _ _ => ⟨rfl, h.2⟩, fun _ h => h⟩

/-- A block load refers to the planner's block, or faults with the block load still due. -/
theorem ends_loadBlock_held {s : State} (hl : s.loadState = .loadBlock) (h : 1 ≤ s.segmentSteps) :
    Ends SegmentHeld LoadConsistent (loadBlock s) := by
  unfold loadBlock
  split
  · exact LoadConsistent.of_loadBlock hl
  · rename_i b _
    have h0 : SegmentHeld (seedBlock b s) := ⟨rfl, h⟩
    exact ends_ite (fun _ => LoadConsistent.of_loadBlock hl) fun _ =>
      ends_andThen (P' := SegmentHeld) (ends_put (fun _ => h0) fun _ => .of_held h0) fun _ h1 =>
      ends_andThen (segmentHeld_load.writeRate h1 _) fun _ h2 =>
        segmentHeld_load.writeRampCount (segmentHeld_load.rampState _ _ h2) _

theorem ends_loadSegment_loaded {s : State} (h : LoadConsistent s) (d : Descriptor) :
    Ends SegmentLoaded LoadConsistent (loadSegment d s) := by
  refine ends_ite (fun _ => h) fun _ => ends_ite (fun _ => h) fun hc => ?_
  refine ends_andThen (P' := SegmentHeld) (ends_ite (fun hl => ?_) fun hl => ?_) fun s1 h1 =>
    ends_andThen (P' := SegmentHeld) (ends_ite (fun _ => segmentHeld_load.forceDecel h1) fun _ => h1) fun _ h2 => ⟨rfl, h2⟩
  · exact ends_loadBlock_held hl (one_le_count hc)
  · exact ⟨h.1 hl, one_le_count hc⟩

theorem segmentLoaded_ramp : KeptByRamp SegmentLoaded LoadConsistent :=
  ⟨fun _ _ h _ => h, fun _ _ h _ => h, fun _ _ h => h, fun _ _ h => .of_held h.2⟩

/-- The axes of a step event write an accumulator and a position. -/
theorem ends_stepAxis_loaded {s : State} (h : SegmentLoaded s) (b : PlannerBlock) (a : Axis) :
    Ends SegmentLoaded LoadConsistent (stepAxis b a s) :=
  ends_andThen (P' := SegmentLoaded) (ends_put (fun _ => h) fun _ => .of_held h.2) fun _ h1 => ends_ite
    (fun _ => ends_andThen (P' := SegmentLoaded) (ends_put (fun _ => h1) fun _ => .of_held h1.2) fun _ h2 =>
      ends_put (fun _ => h2) fun _ => .of_held h2.2) fun _ => h1

/-- The step count leaves a step event, or the segment is released: its block is kept, or a block load is due. -/
theorem ends_countStep_loaded {s : State} (h : SegmentLoaded s) :
    Ends LoadConsistent LoadConsistent (countStep s) := by
  refine ends_andThen (P' := fun t => t.curBlock.isSome = true) (ends_put (fun _ => h.2.1) fun _ => .of_held h.2)
    fun t ht => ends_ite (fun _ => ?_) fun hn => ⟨fun _ => ht, fun _ => Nat.one_le_iff_ne_zero.2 hn⟩
  unfold finishSegment
  split
  · exact LoadConsistent.of_loadBlock rfl
  · exact ⟨fun _ => ht, fun hl => absurd hl (by simp)⟩

theorem ends_engineTick_loaded {s : State} (h : SegmentLoaded s) :
    Ends LoadConsistent LoadConsistent (engineTick s) := by
  refine ends_andThen (P' := SegmentLoaded) (ends_needSlot fun _ => h) fun s0 h0 =>
    ends_andThen (segmentLoaded_ramp.rampUpdate h0 _) fun s1 h1 => ends_andThen (P' := LoadConsistent) ?_ fun _ h3 => h3
  refine ends_andThen (P' := SegmentLoaded) (ends_put (fun _ => h1) fun _ => .of_held h1.2) fun s2 h2 =>
    ends_ite (fun _ => ?_) fun _ => .of_held h2.2
  have h2' : SegmentLoaded (countFreeBlock s2) := by simpa [SegmentLoaded, SegmentHeld] using h2
  exact ends_andThen (P' := SegmentLoaded) (ends_put (fun _ => h2') fun _ => .of_held h2'.2) fun _ h3 =>
    ends_andThen (ends_stepAxis_loaded h3 _ .x) fun _ h4 => ends_andThen (ends_stepAxis_loaded h4 _ .y) fun _ h5 =>
    ends_andThen (ends_stepAxis_loaded h5 _ .z) fun _ h6 => ends_andThen (ends_countStep_loaded h6) fun _ h7 => h7

theorem ends_segmentBody_loadConsistent {s : State} (h : LoadConsistent s) (d : Descriptor) :
    Ends LoadConsistent LoadConsistent (segmentBody d s) :=
  ends_andThen (ends_loadSegment_loaded h d) fun _ h1 => ends_engineTick_loaded h1

theorem ends_tickBody_loadConsistent {s : State} (h : LoadConsistent s) :
    Ends LoadConsistent LoadConsistent (tickBody s) :=
  ends_tickBody_of (fun hl => ends_engineTick_loaded ⟨hl, h.1 (by simp [hl]), h.2 hl⟩) h h (fun _ => h)
    fun _ => ends_segmentBody_loadConsistent h

/-! ## The commands and the agents -/

/-- The tick source is started in RUNNING only (44 R601). -/
theorem controlConsistent_woken {s : State} (h : ControlConsistent s) : ControlConsistent (woken s) := by
  unfold woken tickStarted
  split
  · rename_i hr
    exact ⟨fun _ => .inl hr.1, fun _ => rfl, h.2.2⟩
  · exact h

theorem controlConsistent_commands {s : State} (h : ControlConsistent s) : HoldsAfterCommands ControlConsistent s := by
  obtain ⟨hrun, hbusy, hload⟩ := id h
  refine
    { stay := h, initFault := fun _ => h, resetFault := fun _ => h, wakeUp := fun _ => controlConsistent_woken h
      init := fun _ => ?_, reset := fun hb ht => ?_, goIdle := fun _ => ?_, cycleStart := fun hb _ => ?_
      feedHold := fun _ => ⟨fun _ => .inr rfl, hbusy, hload⟩
      cycleReinitialize := fun hb _ ht => ?_, queue := fun hi => ?_, clearCycleStop := fun hb => ?_ }
  · simp [ControlConsistent]
  · simp [ControlConsistent, ht]
  · exact ⟨fun ht => absurd ht (by simp [idled]), fun hb => absurd hb (by simp [idled]), hload⟩
  · exact controlConsistent_woken (s := { s with runState := .running }) ⟨fun _ => .inl rfl, hbusy, hload⟩
  · exact ⟨fun h' => absurd h' (by simp [ht]), hbusy, hload⟩
  · exact ⟨fun ht => absurd (hrun ht) (by simp [hi]), hbusy, hload⟩
  · refine ⟨fun ht => ?_, hbusy, hload⟩
    have htrue : s.tickEnabled = true := ht
    simpa [htrue] using hrun htrue

theorem controlConsistent_agents {s : State} (h : ControlConsistent s) : HoldsAfterAgents ControlConsistent s where
  overrun := h
  overlap := h
  begin ht := ⟨h.1, fun _ => ht, h.2.2⟩
  emit ht := ⟨h.1, fun _ => ht, h.2.2⟩
  tickBody _ := by
    obtain ⟨htick, hload⟩ := controlConsistent_iff.1 h
    exact ends_mono (ends_and
      (ends_tickBody tickConsistent_load tickConsistent_event tickConsistent_bodyEnded
        (fun s _ => tickConsistent_idled s) (fun s _ => tickConsistent_idled s) htick)
      (ends_tickBody_loadConsistent hload)) (fun _ => controlConsistent_iff.2) fun _ => controlConsistent_iff.2
  segment _ d := by
    obtain ⟨htick, hload⟩ := controlConsistent_iff.1 h
    exact ends_mono (ends_and
      (ends_segmentBody tickConsistent_load tickConsistent_event tickConsistent_bodyEnded htick d)
      (ends_segmentBody_loadConsistent hload d)) (fun _ => controlConsistent_iff.2) fun _ => controlConsistent_iff.2
  pulseReset _ := h
  prepStep := by
    have k : KeptByPrep ControlConsistent ControlConsistent :=
      ⟨fun _ _ h => h, fun _ _ h _ _ _ => h, fun _ _ h _ _ => h, fun _ _ h => h,
        fun _ _ h => by simpa [ControlConsistent] using h, fun _ _ _ _ h _ => h, fun _ _ h => h, fun _ _ h => h⟩
    exact ends_mono (k.prepStep h) (fun _ hu _ => hu) fun _ hu => hu

/-- Settles O57: the four conditions are kept by every command and by every agent's step. -/
theorem stepKeepsControlConsistent : Obligations.StepKeepsControlConsistent := by
  intro s t hs h
  exact kept_by_step (P := fun u => ControlConsistent u) hs h (fun _ _ _ _ hu => hu)
    (fun _ => controlConsistent_commands) fun _ => controlConsistent_agents

/-- Settles O58: the tick source is stopped, nothing is pending and a block load is due. -/
theorem resetIsControlConsistent : Obligations.ResetIsControlConsistent := by
  unfold Obligations.ResetIsControlConsistent
  decide

end Sys2Proof.Machine
end

section
/-! The preparer: what a PREP_STEP gives, and where it faults (42 R450 to R457, 60 R702, R707). -/

namespace Sys2Proof.Machine

/-! ## PREP_STEP and PREPARE_SEGMENTS where they are enabled -/

theorem exec_prepStep_of_enabled {s : State} (he : backgroundEnabled s = true) : exec .prepStep s =
    finish (andThen (prepStep s) fun t => .go { t with preparing := t.preparing && decide (t.prepReturn = some .work) }) := by
  change execPrepStep s = _
  rw [execPrepStep, if_pos he]

theorem exec_prepareSegments_of_enabled {s : State} (he : backgroundEnabled s = true) : exec .prepareSegments s =
    finish (andThen (prepStep s) fun t => .go { t with preparing := decide (t.prepReturn = some .work) }) := by
  change execPrepareSegments s = _
  rw [execPrepareSegments, if_pos he]

/-! ## The ways of a PREP_STEP -/

/-- A full ring, or no next block (42 R451, R452). -/
theorem prepStep_of_nothing {s : State}
    (h : s.nextHead = s.tail ∨ (s.prepBlock = none ∧ blockByIndex s s.prepIndex = none)) :
    prepStep s = .go (prepDone s) := by
  by_cases hf : s.nextHead = s.tail
  · rw [prepStep, if_pos hf]
  · obtain ⟨hp, hb⟩ := h.resolve_left hf
    rw [prepStep, if_neg hf, hp, hb]

theorem prepStep_of_preparing {s : State} {r : BlockRef} (hroom : s.nextHead ≠ s.tail) (hp : s.prepBlock = some r) :
    prepStep s = emitSegment s := by
  rw [prepStep, if_neg hroom, hp]

theorem prepStep_of_badBlock {s : State} {b : PlannerBlock} (hroom : s.nextHead ≠ s.tail) (hp : s.prepBlock = none)
    (hb : blockByIndex s s.prepIndex = some b) (hbad : badBlock b = true) :
    prepStep s = .done (raiseFault (.badBlock b.ident) s) := by
  rw [prepStep, if_neg hroom, hp, hb]
  exact if_pos hbad

theorem prepStep_of_fetch {s : State} {b : PlannerBlock} (hroom : s.nextHead ≠ s.tail) (hp : s.prepBlock = none)
    (hb : blockByIndex s s.prepIndex = some b) (hok : badBlock b = false) :
    prepStep s = andThen (startBlock b { s with prepBlock := some b.ident }) emitSegment := by
  rw [prepStep, if_neg hroom, hp, hb]
  exact if_neg (by simp [hok])

/-! ## Step 2: the record of a new block (42 R453) -/

theorem startBlock_of_badRate {s : State} {b : PlannerBlock} {f : RateField} (h : firstBadRate b s.cfg = some f) :
    startBlock b s = .done
      (raiseFault (.range (.rateOutput f)) { s with dataPrepIndex := ringNext s s.dataPrepIndex }) := by
  rw [startBlock, h]
  rfl

/-- With the converter's outputs in range, step 2 writes the record, and its breakpoint where that is a uint32. -/
theorem startBlock_of_rates {s : State} {b : PlannerBlock} {slot : Nat} (hr : firstBadRate b s.cfg = none)
    (hn : 1 ≤ s.cfg.n) (hslot : slot = ringNext s s.dataPrepIndex) : startBlock b s =
      put (.decelerateAfter slot) (inUint32 b.breakpoint)
        (dataWrite slot { startedData b s.cfg (dataRead s slot) with decelerateAfter := b.breakpoint }
          { s with dataPrepIndex := slot })
        (dataWrite slot (startedData b s.cfg (dataRead s slot)) { s with dataPrepIndex := slot }) := by
  have hlt : slot < s.cfg.n := hslot ▸ Nat.mod_lt _ hn
  have hneed : needSlot slot { s with dataPrepIndex := slot } = .go { s with dataPrepIndex := slot } :=
    needSlot_of_lt (s := { s with dataPrepIndex := slot }) hlt
  rw [startBlock, hr, ← hslot]
  exact congrArg (fun f => andThen f _) hneed

/-- The state in which the record of `b` stands in `slot` and `b` is being prepared. -/
def blockStarted (b : PlannerBlock) (slot : Nat) (s : State) : State :=
  dataWrite slot { startedData b s.cfg (dataRead s slot) with decelerateAfter := b.breakpoint }
    { s with prepBlock := some b.ident, dataPrepIndex := slot }

theorem startBlock_eq_blockStarted {s : State} {b : PlannerBlock} {slot : Nat} (hr : firstBadRate b s.cfg = none)
    (hbp : b.breakpoint ≤ 4294967295) (hn : 1 ≤ s.cfg.n) (hslot : slot = ringNext s s.dataPrepIndex) :
    startBlock b { s with prepBlock := some b.ident } = .go (blockStarted b slot s) := by
  rw [startBlock_of_rates (s := { s with prepBlock := some b.ident }) hr hn hslot]
  exact put_of_inRange (inUint32_iff.2 (by omega))

/-! ## Steps 3 to 6: one segment (42 R454 to R457) -/

theorem consume_eq (n : Nat) (d : SegmentData) : consume n d =
    { d with stepEventsRemaining := d.stepEventsRemaining - n, decelerateAfter := d.decelerateAfter - n } := by
  have h : (if 0 < d.decelerateAfter then d.decelerateAfter - n else d.decelerateAfter) = d.decelerateAfter - n := by
    split <;> omega
  rw [consume, h]

theorem segmentSize_le (segCap : Nat) (d : SegmentData) : segmentSize segCap d ≤ segCap := by
  have h : min segCap d.stepEventsRemaining ≤ segCap := min_le_left _ _
  unfold segmentSize
  dsimp only
  split
  · exact (min_le_left _ _).trans h
  · exact h

/-- The state after the cut of one segment of `k` step events that leaves the record `d`: the descriptor at `head`, the record
in its slot, and the block released where no step event remains. -/
def segmentCut (k : Nat) (d : SegmentData) (s : State) : State :=
  { s with
    mem := ⟨cellSet 0 s.mem.seg s.head (encodeDescriptor ⟨BitVec.ofNat 8 k, BitVec.ofNat 4 s.dataPrepIndex, classify d⟩),
      cellSet SegmentData.unwritten s.mem.data s.dataPrepIndex d⟩
    head := s.nextHead
    nextHead := (s.nextHead + 1) % s.cfg.n
    prepBlock := if d.stepEventsRemaining = 0 then none else s.prepBlock
    prepIndex := if d.stepEventsRemaining = 0 then plannerNext s.cfg s.prepIndex else s.prepIndex
    prepReturn := some .work }

theorem closeBlock_of_done {d : SegmentData} {s : State} (h : d.stepEventsRemaining = 0) :
    closeBlock d s = { s with prepBlock := none, prepIndex := plannerNext s.cfg s.prepIndex } := if_pos h

theorem closeBlock_of_left {d : SegmentData} {s : State} (h : ¬ d.stepEventsRemaining = 0) : closeBlock d s = s := if_neg h

theorem publish_closeBlock (k : Nat) (d : SegmentData) (s : State) :
    { publish k s.dataPrepIndex (classify d) (closeBlock d (dataWrite s.dataPrepIndex d s)) with
      prepReturn := some .work } = segmentCut k d s := by
  by_cases h : d.stepEventsRemaining = 0
  · simp only [closeBlock_of_done h, segmentCut, h, if_true, publish, segWrite, dataWrite, ringNext]
  · simp only [closeBlock_of_left h, segmentCut, h, if_false, publish, segWrite, dataWrite, ringNext]

theorem emitSegment_eq {s : State} {k : Nat} {d : SegmentData} (hdp : s.dataPrepIndex < s.cfg.n)
    (hh : s.head < s.cfg.n) (hn : s.cfg.n ≤ 16) (hc : s.cfg.segCap ≤ 255)
    (hk : k = segmentSize s.cfg.segCap (dataRead s s.dataPrepIndex)) (hd : d = consume k (dataRead s s.dataPrepIndex)) :
    emitSegment s = .go (segmentCut k d s) := by
  have hle : k ≤ s.cfg.segCap := hk ▸ segmentSize_le s.cfg.segCap (dataRead s s.dataPrepIndex)
  unfold emitSegment
  rw [needSlot_of_lt hdp, andThen_go]
  dsimp only
  rw [← hk, ← hd, needSlot_of_lt (by simpa [dataWrite] using hh), andThen_go, put_of_inRange, publish_closeBlock]
  simp only [Bool.and_eq_true, decide_eq_true_eq]
  omega

/-! ## The obligations -/

/-- Settles O39: both commands end in `prepDone`, and DONE ends the progress. -/
theorem prepStepReturnsDone : Obligations.PrepStepReturnsDone := by
  intro s hfault hbusy h
  have he : backgroundEnabled s = true := backgroundEnabled_iff.2 ⟨hfault, hbusy⟩
  rw [exec_prepStep_of_enabled he, exec_prepareSegments_of_enabled he, prepStep_of_nothing h]
  simp [prepDone]

/-- Settles O40: the PREP_STEP is `segmentCut` of the segment's size. -/
theorem prepStepCutsASegment : Obligations.PrepStepCutsASegment := by
  intro s r hfault hbusy hroom hp hdp hh hn hc d k left due
  have he : backgroundEnabled s = true := backgroundEnabled_iff.2 ⟨hfault, hbusy⟩
  have hflag : classify (consume k d) = flagOfBits (left == 0) (due == 0) := by
    rw [consume_eq, classify, beq_eq_decide, beq_eq_decide]
  have hemit : emitSegment s = .go (segmentCut k (consume k d) s) := emitSegment_eq hdp hh hn hc rfl rfl
  have hwork : decide ((segmentCut k (consume k d) s).prepReturn = some .work) = true := rfl
  refine ⟨(segmentCut k (consume k d) s).mem, fun i => ?_, fun i => ?_, fun p => ?_⟩
  · rw [← hflag]
    exact cellGet_cellSet ..
  · rw [show { d with stepEventsRemaining := left, decelerateAfter := due } = consume k d from (consume_eq k d).symm]
    exact cellGet_cellSet ..
  · rw [exec_prepStep_of_enabled he, exec_prepareSegments_of_enabled he, prepStep_of_preparing hroom hp, hemit,
      andThen_go, andThen_go, finish_go, finish_go, hwork, Bool.and_true, ← hp]
    exact ⟨fun h => by subst h; rfl, fun h => by subst h; rfl⟩

/-- Settles O41: step 2 goes on to the cut in the state in which its record stands. -/
theorem prepStepStartsABlock : Obligations.PrepStepStartsABlock := by
  intro s b hfault hbusy hroom hp hb hok hr hbp hn slot
  have he : backgroundEnabled s = true := backgroundEnabled_iff.2 ⟨hfault, hbusy⟩
  have he' : backgroundEnabled (blockStarted b slot s) = true := he
  have hstep : prepStep s = prepStep (blockStarted b slot s) := by
    rw [prepStep_of_fetch hroom hp hb hok, startBlock_eq_blockStarted (slot := slot) hr hbp hn rfl,
      andThen_go,
      prepStep_of_preparing (s := blockStarted b slot s) hroom rfl]
  refine ⟨(blockStarted b slot s).mem, rfl, fun i => dataRead_dataWrite slot i _ _, ?_, ?_⟩
  · rw [exec_prepStep_of_enabled he, hstep]
    exact (exec_prepStep_of_enabled he').symm
  · rw [exec_prepareSegments_of_enabled he, hstep]
    exact (exec_prepareSegments_of_enabled he').symm

/-- Settles O42: one way of a PREP_STEP for each fault. -/
theorem prepStepFaults : Obligations.PrepStepFaults := by
  intro s b hfault hbusy hroom hp hb
  have he : backgroundEnabled s = true := backgroundEnabled_iff.2 ⟨hfault, hbusy⟩
  rw [exec_prepStep_of_enabled he]
  refine ⟨fun hbad => ?_, fun f hok hr => ?_, fun hok hr hbp hn => ?_⟩
  · rw [prepStep_of_badBlock hroom hp hb hbad]; rfl
  · rw [prepStep_of_fetch hroom hp hb hok, startBlock_of_badRate (s := { s with prepBlock := some b.ident }) hr]; rfl
  · intro slot
    have hout : inUint32 (b.breakpoint : Int) = false := by
      rw [Bool.eq_false_iff, ne_eq, inUint32_iff]; omega
    refine ⟨(dataWrite slot (startedData b s.cfg (dataRead s slot)) s).mem, rfl, fun i => dataRead_dataWrite slot i _ s, ?_⟩
    rw [prepStep_of_fetch hroom hp hb hok,
      startBlock_of_rates (s := { s with prepBlock := some b.ident }) (slot := slot) hr hn rfl, put_of_outOfRange hout]
    rfl

end Sys2Proof.Machine
end

section
/-! The preparer publishes at `head` and nowhere else (20 R210, R212). -/

namespace Sys2Proof.Machine

/-! ## What a PREP_STEP does to the segment ring -/

/-- Nothing is published: the segment ring and its indices are as in `s`. -/
abbrev Unpublished (s t : State) : Prop :=
  t.mem.seg = s.mem.seg ∧ t.head = s.head ∧ t.nextHead = s.nextHead ∧ t.tail = s.tail ∧ t.cfg = s.cfg

/-- One word is published: it stands at the old `head`, and `head` has advanced. -/
abbrev Published (s t : State) : Prop :=
  (∃ w, t.mem.seg = cellSet 0 s.mem.seg s.head w) ∧ t.head = s.nextHead ∧ t.tail = s.tail ∧ t.cfg = s.cfg

theorem Published.of_unpublished {s t u : State} (h : Unpublished s t) (h' : Published t u) : Published s u := by
  obtain ⟨hseg, hh, hn, ht, hc⟩ := h
  obtain ⟨⟨w, hw⟩, hh', ht', hc'⟩ := h'
  exact ⟨⟨w, by rw [hw, hseg, hh]⟩, hh'.trans hn, ht'.trans ht, hc'.trans hc⟩

theorem ends_emitSegment_published (s : State) : Ends (Published s) (Unpublished s) (emitSegment s) := by
  refine ends_andThen (P' := fun t => t = s) (ends_needSlot fun _ => rfl) fun s1 h1 => ?_
  subst h1
  refine ends_andThen (P' := Unpublished s1) (ends_needSlot fun _ => ?_) fun s3 h3 => ends_put (fun _ => ?_) fun _ => h3
  · simp [Unpublished, dataWrite]
  · exact Published.of_unpublished h3 ⟨⟨_, rfl⟩, rfl, rfl, rfl⟩

theorem ends_startBlock_unpublished (b : PlannerBlock) (s : State) :
    Ends (Unpublished s) (Unpublished s) (startBlock b s) := by
  unfold startBlock
  have h1 : Unpublished s { s with dataPrepIndex := ringNext s s.dataPrepIndex } := ⟨rfl, rfl, rfl, rfl, rfl⟩
  split
  · exact h1
  · exact ends_andThen (P' := Unpublished s) (ends_needSlot fun _ => h1) fun _ h2 => ends_put (fun _ => h2) fun _ => h2

/-- One word is published or none, and none in a full ring. -/
abbrev PublishedAtMostOne (s t : State) : Prop := Unpublished s t ∨ (s.nextHead ≠ s.tail ∧ Published s t)

theorem ends_prepStep_published (s : State) : Ends (PublishedAtMostOne s) (Unpublished s) (prepStep s) := by
  have h0 : Unpublished s s := ⟨rfl, rfl, rfl, rfl, rfl⟩
  refine ends_ite (fun _ => .inl h0) fun hroom => ?_
  have hemit : ∀ t, Unpublished s t → Ends (PublishedAtMostOne s) (Unpublished s) (emitSegment t) :=
    fun t ht => by
      refine ends_mono (ends_emitSegment_published t) (fun u hu => .inr ⟨hroom, hu.of_unpublished ht⟩) fun u hu => ?_
      obtain ⟨hseg, hh, hn, htail, hc⟩ := ht
      obtain ⟨hseg', hh', hn', htail', hc'⟩ := hu
      exact ⟨hseg'.trans hseg, hh'.trans hh, hn'.trans hn, htail'.trans htail, hc'.trans hc⟩
  split
  · exact hemit s h0
  · split
    · exact .inl h0
    · exact ends_ite (fun _ => h0) fun _ =>
        ends_andThen (ends_startBlock_unpublished _ { s with prepBlock := _ }) fun t ht => hemit t ht

/-- Every next state of the preparer's two commands: the state itself, or one of a PREP_STEP, with any value of the model's
own `preparing`. -/
theorem holds_of_exec_prep {P : State → Prop} {i : Instr} {s t : State} (hi : i = .prepStep ∨ i = .prepareSegments)
    (h : exec i s = .next t) (stay : P s) (step : Ends (fun u => ∀ p, P { u with preparing := p }) P (prepStep s)) :
    P t := by
  by_cases he : backgroundEnabled s = true
  · rcases hi with rfl | rfl
    · rw [exec_prepStep_of_enabled he] at h
      exact ends_of_finish h (ends_andThen step fun _ hu => hu _)
    · rw [exec_prepareSegments_of_enabled he] at h
      exact ends_of_finish h (ends_andThen step fun _ hu => hu _)
  · rw [exec_of_not_backgroundEnabled (eq_false_of_ne_true he) i (by rcases hi with rfl | rfl <;> decide)
      (by rcases hi with rfl | rfl <;> decide)] at h
    cases h
    exact stay

theorem published_of_exec_prep {i : Instr} {s t : State} (hi : i = .prepStep ∨ i = .prepareSegments)
    (h : exec i s = .next t) : PublishedAtMostOne s t :=
  holds_of_exec_prep hi h (.inl ⟨rfl, rfl, rfl, rfl, rfl⟩)
    (ends_mono (ends_prepStep_published s) (fun _ hu _ => hu) fun _ hu => .inl hu)

/-! ## Distances in the ring -/

/-- How far a slot is after `tail`, going round the ring. -/
theorem ringDistance {n x tail : Nat} (hx : x < n) (ht : tail < n) :
    (x + n - tail) % n = if tail ≤ x then x - tail else x + n - tail := by
  split
  · rw [show x + n - tail = x - tail + n by omega, Nat.add_mod_right, Nat.mod_eq_of_lt (by omega)]
  · exact Nat.mod_eq_of_lt (by omega)

theorem ringSucc {n x : Nat} (hx : x < n) : (x + 1) % n = if x + 1 = n then 0 else x + 1 := by
  split
  · rename_i h; rw [h, Nat.mod_self]
  · exact Nat.mod_eq_of_lt (by omega)

/-- Settles O44: an occupied slot is nearer to `tail` than `head`, where the word is published; the new `head` is one slot
further, since it is not `tail`. -/
theorem preparerKeepsUnreadSegments : Obligations.PreparerKeepsUnreadSegments := by
  intro i s t hi hn hhead htail hnext h
  rcases published_of_exec_prep hi h with ⟨hseg, hh, -, ht, hc⟩ | ⟨hroom, ⟨w, hw⟩, hh, ht, hc⟩
  · exact ⟨fun k _ _ => by rw [segRead, hseg]; rfl, ht, .inl ⟨hh, by rw [occupancy, occupancy, hh, ht, hc]⟩⟩
  · refine ⟨fun k hk hocc => ?_, ht, .inr ⟨hh, ?_⟩⟩
    · have hne : k ≠ s.head := by
        rintro rfl
        exact lt_irrefl _ hocc
      rw [segRead, hw, cellGet_cellSet, if_neg hne]
      rfl
    · rw [hnext, ringSucc hhead] at hroom
      have hlt : (if s.head + 1 = s.cfg.n then 0 else s.head + 1) < s.cfg.n := by split <;> omega
      rw [occupancy, occupancy, hh, ht, hc, hnext, ringSucc hhead, ringDistance hlt htail, ringDistance hhead htail]
      split_ifs at hroom ⊢ <;> omega

end Sys2Proof.Machine
end

section
/-! The segments of a block partition its step events (42 R458). -/

namespace Sys2Proof.Machine

/-- A segment of a record with a step event left has at least one, and no more than the cap and than remain
(42 R454). -/
theorem segmentSize_bounds {segCap : Nat} {d : SegmentData} (hc : 1 ≤ segCap) (hd : 1 ≤ d.stepEventsRemaining) :
    1 ≤ segmentSize segCap d ∧ segmentSize segCap d ≤ segCap ∧
      segmentSize segCap d ≤ d.stepEventsRemaining := by
  have h1 : min segCap d.stepEventsRemaining ≤ segCap := min_le_left _ _
  have h2 : min segCap d.stepEventsRemaining ≤ d.stepEventsRemaining := min_le_right _ _
  have h3 : 1 ≤ min segCap d.stepEventsRemaining := le_min hc hd
  unfold segmentSize
  dsimp only
  split
  · rename_i hpos
    have h4 := min_le_left (min segCap d.stepEventsRemaining) d.decelerateAfter
    exact ⟨le_min h3 hpos, h4.trans h1, h4.trans h2⟩
  · exact ⟨h3, h1, h2⟩

theorem classify_eob (d : SegmentData) : (classify d).eob = decide (d.stepEventsRemaining = 0) := flagOfBits_eob ..

theorem classify_forcesDecel (d : SegmentData) : (classify d).forcesDecel = decide (d.decelerateAfter = 0) :=
  flagOfBits_forcesDecel ..

/-- The list of a record's segments is what R458 says of it. -/
structure Partitions (segCap : Nat) (d : SegmentData) (l : List (Nat × SegFlag)) : Prop where
  sum : (l.map Prod.fst).sum = d.stepEventsRemaining
  size : ∀ p ∈ l, 1 ≤ p.1 ∧ p.1 ≤ segCap
  last : ∃ pre last, l = pre ++ [last] ∧ last.2.eob = true ∧ ∀ p ∈ pre, p.2.eob = false
  decel : ∀ pre p post, l = pre ++ p :: post →
    (p.2.forcesDecel = true ↔ d.decelerateAfter ≤ (pre.map Prod.fst).sum + p.1)

/-- The segment that takes all that remains. -/
theorem partitions_last {segCap n : Nat} {d : SegmentData} (h1 : 1 ≤ n) (h2 : n ≤ segCap)
    (hn : n = d.stepEventsRemaining) : Partitions segCap d [(n, classify (consume n d))] := by
  have hrem : (consume n d).stepEventsRemaining = 0 := by rw [consume_eq]; exact Nat.sub_eq_zero_of_le hn.ge
  refine ⟨by simpa using hn, by simpa using ⟨h1, h2⟩, ⟨[], _, rfl, by simp [classify_eob, hrem], by simp⟩, ?_⟩
  intro pre p post h
  obtain ⟨rfl, hp⟩ | ⟨_, _, hnil⟩ := List.cons_eq_append_iff.1 h
  · cases hp
    simp [classify_forcesDecel, consume_eq, Nat.sub_eq_zero_iff_le]
  · simp at hnil

/-- A segment before one that takes all that remains, and the segments of the consumed record. -/
theorem partitions_cons {segCap n : Nat} {d : SegmentData} {l : List (Nat × SegFlag)} (h1 : 1 ≤ n) (h2 : n ≤ segCap)
    (hn : n < d.stepEventsRemaining) (h : Partitions segCap (consume n d) l) :
    Partitions segCap d ((n, classify (consume n d)) :: l) := by
  obtain ⟨hsum, hsize, ⟨pre, last, rfl, hlast, hpre⟩, hdecel⟩ := h
  have hrem : (consume n d).stepEventsRemaining = d.stepEventsRemaining - n := by rw [consume_eq]
  have hda : (consume n d).decelerateAfter = d.decelerateAfter - n := by rw [consume_eq]
  rw [hrem] at hsum
  rw [hda] at hdecel
  refine ⟨?_, ?_, ⟨(n, classify (consume n d)) :: pre, last, rfl, hlast, ?_⟩, ?_⟩
  · rw [List.map_cons, List.sum_cons, hsum]
    omega
  · exact List.forall_mem_cons.2 ⟨⟨h1, h2⟩, hsize⟩
  · refine List.forall_mem_cons.2 ⟨?_, hpre⟩
    simp only [classify_eob, hrem, decide_eq_false_iff_not]
    omega
  · intro pre' p post hsplit
    rcases List.cons_eq_append_iff.1 hsplit with ⟨rfl, hp⟩ | ⟨pre'', rfl, hl⟩
    · cases hp
      simp [classify_forcesDecel, hda, Nat.sub_eq_zero_iff_le]
    · rw [hdecel pre'' p post hl, List.map_cons, List.sum_cons]
      dsimp only
      omega

theorem partitions_slices {segCap : Nat} (hc : 1 ≤ segCap) (fuel : Nat) (d : SegmentData)
    (hd : 1 ≤ d.stepEventsRemaining) (hf : d.stepEventsRemaining ≤ fuel) :
    Partitions segCap d (slices segCap fuel d) := by
  induction fuel generalizing d with
  | zero => omega
  | succ fuel ih =>
    obtain ⟨h1, h2, h3⟩ := segmentSize_bounds hc hd
    have hrem : (consume (segmentSize segCap d) d).stepEventsRemaining =
      d.stepEventsRemaining - segmentSize segCap d := by rw [consume_eq]
    unfold slices
    dsimp only
    split
    · exact partitions_last h1 h2 (by omega)
    · exact partitions_cons h1 h2 (by omega) (ih _ (by omega) (by omega))

/-- Settles O43: by induction on the number of segments, with the rest partitioned by the consumed record. -/
theorem segmentsPartitionTheBlock : Obligations.SegmentsPartitionTheBlock := by
  intro segCap fuel d hc hd hf
  obtain ⟨hsum, hsize, hlast, hdecel⟩ := partitions_slices hc fuel d hd hf
  exact ⟨hsum, hsize, hlast, hdecel⟩

end Sys2Proof.Machine
end

section
/-! One axis over the step events of a block (43 R540). -/

namespace Sys2Proof.Machine

variable {b : PlannerBlock} {a : Axis}

/-- After `k` step events the accumulator is in range, and it has lost `steps[a]` at each event and gained
`step_event_count` at each step. -/
theorem bresenhamEvents_spec (hs : atAxis b.steps a ≤ b.stepEventCount) (k : Nat) (v : Int × Nat)
    (h0 : 0 ≤ v.1) (h1 : v.1 < b.stepEventCount) :
    0 ≤ (bresenhamEvents b a k v).1 ∧ (bresenhamEvents b a k v).1 < b.stepEventCount ∧
      (bresenhamEvents b a k v).1 =
        v.1 - k * ((atAxis b.steps a : Nat) : Int) + b.stepEventCount * (((bresenhamEvents b a k v).2 : Int) - v.2) := by
  induction k generalizing v with
  | zero => exact ⟨h0, h1, by simp [bresenhamEvents]⟩
  | succ k ih =>
    obtain ⟨hr0, hr1⟩ := counterAfter_range hs h0 h1
    obtain ⟨hk0, hk1, hk⟩ := ih (bresenhamEvent b a v) hr0 hr1
    refine ⟨hk0, hk1, hk.trans ?_⟩
    simp only [bresenhamEvents, bresenhamEvent, counterAfter]
    split_ifs
    all_goals push_cast; ring

/-- An accumulator in `[0, E - 1]` fixes the number of steps that gave it, as a ceiling. -/
theorem steps_eq_ceil {c : Int} {h k s E n : Nat} (hE : 1 ≤ E) (h0 : 0 ≤ c) (h1 : c < E)
    (hc : c = h - k * s + E * n) : (n : Int) = ⌈((k * s : Rat) - h) / E⌉ := by
  have hE' : (0 : Rat) < E := by exact_mod_cast hE
  have hq : (c : Rat) = h - k * s + E * n := by exact_mod_cast hc
  have h0' : (0 : Rat) ≤ c := by exact_mod_cast h0
  have h1' : (c : Rat) < E := by exact_mod_cast h1
  refine (Int.ceil_eq_iff.2 ⟨?_, ?_⟩).symm
  · rw [lt_div_iff₀ hE']
    push_cast
    linarith
  · rw [div_le_iff₀ hE']
    push_cast
    linarith

/-- Two numbers of the same residue range that differ by a multiple of `E` are equal. -/
theorem eq_of_multiple {E : Nat} {h c : Int} {m n : Nat} (h0 : 0 ≤ h) (h1 : h < E) (hc0 : 0 ≤ c) (hc1 : c < E)
    (hc : c = h - E * m + E * n) : n = m := by
  rcases lt_trichotomy n m with hlt | heq | hgt
  · have : (E : Int) * (n + 1) ≤ E * m := mul_le_mul_of_nonneg_left (by exact_mod_cast hlt) (by positivity)
    linarith
  · exact heq
  · have : (E : Int) * (m + 1) ≤ E * n := mul_le_mul_of_nonneg_left (by exact_mod_cast hgt) (by positivity)
    linarith

/-- Settles O38: the accumulator's equation, at `k` events and at `step_event_count` events. -/
theorem bresenhamIsExact : Obligations.BresenhamIsExact := by
  intro b a hE hs
  have hseed0 : (0 : Int) ≤ ((b.stepEventCount / 2 : Nat) : Int) := by omega
  have hseed1 : ((b.stepEventCount / 2 : Nat) : Int) < b.stepEventCount := by omega
  refine ⟨fun k => ?_, ?_⟩
  · obtain ⟨h0, h1, hk⟩ := bresenhamEvents_spec hs k (((b.stepEventCount / 2 : Nat) : Int), 0) hseed0 hseed1
    rw [Nat.cast_zero, sub_zero] at hk
    have hceil := steps_eq_ceil hE h0 h1 hk
    exact ⟨h0, h1, by rw [← hceil, max_eq_right (Int.natCast_nonneg _)]⟩
  · obtain ⟨h0, h1, hk⟩ :=
      bresenhamEvents_spec hs b.stepEventCount (((b.stepEventCount / 2 : Nat) : Int), 0) hseed0 hseed1
    rw [Nat.cast_zero, sub_zero] at hk
    have hn := eq_of_multiple hseed0 hseed1 h0 h1 hk
    exact Prod.ext (by rw [hk, hn]; ring) hn

end Sys2Proof.Machine
end

section
/-! The rate converter (41 R400 to R409). -/

namespace Sys2Proof.Machine

/-! ## Real square roots -/

theorem sqrt_mul_eq_sqrt {q k : Rat} (hk : 0 ≤ k) :
    Real.sqrt (q : ℝ) * (k : ℝ) = Real.sqrt ((q * k * k : Rat) : ℝ) := by
  have hk' : (0 : ℝ) ≤ k := by exact_mod_cast hk
  push_cast
  rw [mul_assoc, Real.sqrt_mul' _ (mul_self_nonneg _), Real.sqrt_mul_self hk']

/-- The product of a root and a factor that is not negative is at most `m` exactly when the squares compare. -/
theorem sqrt_mul_le_iff {q k : Rat} {m : Nat} (hk : 0 ≤ k) :
    Real.sqrt (q : ℝ) * (k : ℝ) ≤ m ↔ q * k * k ≤ ((m * m : Nat) : Rat) := by
  rw [sqrt_mul_eq_sqrt hk, Real.sqrt_le_left (Nat.cast_nonneg m), sq]
  exact_mod_cast Iff.rfl

theorem le_sqrt_mul_iff {q k : Rat} {m : Nat} (hq : 0 ≤ q) (hk : 0 ≤ k) :
    (m : ℝ) ≤ Real.sqrt (q : ℝ) * (k : ℝ) ↔ ((m * m : Nat) : Rat) ≤ q * k * k := by
  have hx : (0 : ℝ) ≤ ((q * k * k : Rat) : ℝ) := by exact_mod_cast mul_nonneg (mul_nonneg hq hk) hk
  rw [sqrt_mul_eq_sqrt hk, Real.le_sqrt (Nat.cast_nonneg m) hx, sq]
  exact_mod_cast Iff.rfl

/-- `ceilRoot` of a rational's ceiling, against a natural number. -/
theorem ceilRoot_ceil_le_iff {x : Rat} {m : Nat} : ceilRoot ⌈x⌉.toNat ≤ m ↔ x ≤ ((m * m : Nat) : Rat) := by
  rw [ceilRoot_le_iff, Int.toNat_le, Int.ceil_le]
  norm_cast

theorem le_floorRoot_floor_iff {x : Rat} {m : Nat} (hx : 0 ≤ x) :
    m ≤ floorRoot ⌊x⌋.toNat ↔ ((m * m : Nat) : Rat) ≤ x := by
  rw [le_floorRoot_iff, Int.le_toNat (Int.floor_nonneg.2 hx), Int.le_floor]
  norm_cast

theorem ceilRoot_eq_ceil {q k : Rat} (hk : 0 ≤ k) :
    (ceilRoot ⌈q * k * k⌉.toNat : Int) = ⌈Real.sqrt (q : ℝ) * (k : ℝ)⌉ := by
  have hk' : (0 : ℝ) ≤ k := by exact_mod_cast hk
  apply le_antisymm
  · have h0 : 0 ≤ ⌈Real.sqrt (q : ℝ) * (k : ℝ)⌉ := Int.ceil_nonneg (mul_nonneg (Real.sqrt_nonneg _) hk')
    obtain ⟨m, hm⟩ := Int.eq_ofNat_of_zero_le h0
    have hle : Real.sqrt (q : ℝ) * (k : ℝ) ≤ (m : ℝ) := by
      have := Int.le_ceil (Real.sqrt (q : ℝ) * (k : ℝ))
      rw [hm] at this
      exact_mod_cast this
    rw [hm]
    exact_mod_cast ceilRoot_ceil_le_iff.2 ((sqrt_mul_le_iff hk).1 hle)
  · exact Int.ceil_le.2 (by exact_mod_cast (sqrt_mul_le_iff hk).2 (ceilRoot_ceil_le_iff.1 le_rfl))

theorem floorRoot_eq_floor {q k : Rat} (hq : 0 ≤ q) (hk : 0 ≤ k) :
    (floorRoot ⌊q * k * k⌋.toNat : Int) = ⌊Real.sqrt (q : ℝ) * (k : ℝ)⌋ := by
  have hk' : (0 : ℝ) ≤ k := by exact_mod_cast hk
  have hx : 0 ≤ q * k * k := mul_nonneg (mul_nonneg hq hk) hk
  apply le_antisymm
  · exact Int.le_floor.2 (by exact_mod_cast (le_sqrt_mul_iff hq hk).2 ((le_floorRoot_floor_iff hx).1 le_rfl))
  · have h0 : 0 ≤ ⌊Real.sqrt (q : ℝ) * (k : ℝ)⌋ := Int.floor_nonneg.2 (mul_nonneg (Real.sqrt_nonneg _) hk')
    obtain ⟨m, hm⟩ := Int.eq_ofNat_of_zero_le h0
    have hle : (m : ℝ) ≤ Real.sqrt (q : ℝ) * (k : ℝ) := by
      have := Int.floor_le (Real.sqrt (q : ℝ) * (k : ℝ))
      rw [hm] at this
      exact_mod_cast this
    rw [hm]
    exact_mod_cast (le_floorRoot_floor_iff hx).2 ((le_sqrt_mul_iff hq hk).1 hle)

/-- The integer computation is the ceiling over the reals (41 R408); under a negative factor the ceiling is the negated
floor. -/
theorem ceilRootTimes_eq_ceil {q k : Rat} (hq : 0 ≤ q) : ceilRootTimes q k = ⌈Real.sqrt (q : ℝ) * (k : ℝ)⌉ := by
  by_cases hk : 0 ≤ k
  · rw [ceilRootTimes, if_pos hk, ceilRoot_eq_ceil hk]
  · have hneg : q * k * k = q * -k * -k := by ring
    rw [ceilRootTimes, if_neg hk, hneg, floorRoot_eq_floor hq (by linarith), ← Int.ceil_neg]
    push_cast
    rw [mul_neg, neg_neg]

/-! ## The outputs -/

theorem rateOutput_of_exact {f : RateField} {b : PlannerBlock} {p : Params} (h : p.rateNumerics = .exact) :
    rateOutput f b p = exactOutput f b p := by
  simp only [rateOutput, h]

theorem rateOutput_of_inexact {f : RateField} {b : PlannerBlock} {p : Params} (h : p.rateNumerics = .inexact) :
    rateOutput f b p = exactOutput f b p + ((Config.rateError f b.rateOperands p).val : Int) - 1 := by
  simp only [rateOutput, h]

/-- A rate over the real numbers (41 R401, R403, R404). -/
theorem rateOfSpeedSq_eq_ceil {f : RateField} {v : Rat} {p : Params} (hv : 0 ≤ v) : rateOfSpeedSq f v p =
    ⌈Real.sqrt (v : ℝ) * ((p.fixedPointScale : ℝ) / (60 * (p.ticksPerSecond : ℝ)))⌉ := by
  rw [rateOfSpeedSq, if_pos hv, ceilRootTimes_eq_ceil hv, speedConstant]
  push_cast
  rfl

/-- Settles O45: both rates are `rateOfSpeedSq` under exact numerics. -/
theorem ratesAreExactCeilings : Obligations.RatesAreExactCeilings := by
  intro b p hp he hn
  rw [rateOutput_of_exact hp, rateOutput_of_exact hp]
  exact ⟨rateOfSpeedSq_eq_ceil he, rateOfSpeedSq_eq_ceil hn⟩

/-- Settles O46: the formulas of the exact outputs. -/
theorem deltaAndDistanceFormulas : Obligations.DeltaAndDistanceFormulas := by
  intro b p hp
  rw [rateOutput_of_exact hp, rateOutput_of_exact hp]
  exact ⟨rfl, rfl, by simp only [distancePerStep, hp]⟩

/-- Settles O47: the free value is 0, 1 or 2, and one is subtracted. -/
theorem inexactNumericsWithinOneUnit : Obligations.InexactNumericsWithinOneUnit := by
  intro f b p hp
  have herr := (Config.rateError f b.rateOperands p).isLt
  rw [rateOutput_of_inexact hp]
  omega

/-- Settles O59: each output is a function of the five fields and the configuration. -/
theorem rateConverterReadsFiveFields : Obligations.RateConverterReadsFiveFields := by
  intro b b' p he hn ha hm hc
  have hops : b.rateOperands = b'.rateOperands := by
    simp only [PlannerBlock.rateOperands, he, hn, ha, hm, hc]
  have hexact : ∀ f, exactOutput f b p = exactOutput f b' p := by
    intro f
    cases f <;> simp only [exactOutput, he, hn, ha, hm, hc]
  exact ⟨fun f => by simp only [rateOutput, hexact, hops], by simp only [distancePerStep, hm, hc, hops]⟩

end Sys2Proof.Machine
end

section
/-! Which instruction writes which registers (10 R128 to R139, 20 R205, 60 R725). -/

namespace Sys2Proof.Machine

/-! ## The host's commands -/

/-- The commands of the host other than INIT and the preparer's. -/
abbrev hostCommands : List Instr :=
  [.reset, .wakeUp, .goIdle, .cycleStart, .feedHold, .cycleReinitialize, .queue, .clearCycleStop]

/-- The next states of each of these commands. -/
inductive Commanded (s : State) : Instr → State → Prop where
  | stay (i : Instr) : Commanded s i s
  | resetFault : Commanded s .reset (raiseFault .resetWhileRunning s)
  | reset (ht : s.tickEnabled = false) : Commanded s .reset (clearEngine s)
  | wakeUp : Commanded s .wakeUp (woken s)
  | goIdle : Commanded s .goIdle (idled s)
  | cycleStart : Commanded s .cycleStart (woken { s with runState := .running })
  | runState (i : Instr) (r : RunState) : Commanded s i { s with runState := r }
  | clearCycleStop (r : RunState) : Commanded s .clearCycleStop { s with cycleStop := false, runState := r }

theorem next_of_ite {c : Prop} [Decidable c] {x s t : State}
    (h : (if c then .next x else .next s : Host.Outcome State Fault Refusal) = .next t) : t = x ∨ t = s := by
  split at h <;> cases h
  · exact .inl rfl
  · exact .inr rfl

theorem commanded_of_exec {i : Instr} {s t : State} (hi : i ∈ hostCommands) (h : exec i s = .next t) :
    Commanded s i t := by
  simp only [List.mem_cons, List.not_mem_nil, or_false] at hi
  rcases hi with rfl | rfl | rfl | rfl | rfl | rfl | rfl | rfl
  · simp only [exec, execReset] at h
    split_ifs at h with he ht <;> cases h
    · exact .resetFault
    · exact .reset (eq_false_of_ne_true ht)
    · exact .stay _
  · obtain rfl | rfl := next_of_ite h
    · exact .wakeUp
    · exact .stay _
  · obtain rfl | rfl := next_of_ite h
    · exact .goIdle
    · exact .stay _
  · obtain rfl | rfl := next_of_ite h
    · exact .cycleStart
    · exact .stay _
  · obtain rfl | rfl := next_of_ite h
    · exact .runState _ _
    · exact .stay _
  · obtain rfl | rfl := next_of_ite h
    · exact .runState _ _
    · exact .stay _
  · obtain rfl | rfl := next_of_ite h
    · exact .runState _ _
    · exact .stay _
  · obtain rfl | rfl := next_of_ite h
    · exact .clearCycleStop _
    · exact .stay _

theorem background_cases {i : Instr} (h : i ∈ backgroundSteps) :
    i = .init ∨ (i = .prepStep ∨ i = .prepareSegments) ∨ i ∈ hostCommands := by
  simp only [List.mem_cons, List.not_mem_nil, or_false] at h ⊢
  tauto

/-! ## The preparer (42 R451 to R457) -/

/-- The state `s` with what a PREP_STEP may have written taken from `t`. -/
abbrev withPrepOf (s t : State) : State :=
  { s with
    mem := t.mem, head := t.head, nextHead := t.nextHead, prepBlock := t.prepBlock, prepIndex := t.prepIndex
    dataPrepIndex := t.dataPrepIndex, fault := t.fault, preparing := t.preparing, prepReturn := t.prepReturn }

/-- Nothing else has changed. -/
def PrepFrame (s t : State) : Prop := t = withPrepOf s t

/-- A further write of one of these fields. -/
theorem PrepFrame.trans {s t u : State} (h : PrepFrame s t) (h' : PrepFrame t u) : PrepFrame s u := by
  unfold PrepFrame at *
  rw [h] at h'
  exact h'

theorem prepFrame_kept (s : State) : KeptByPrep (PrepFrame s) (PrepFrame s) where
  nextSlot _ _ h := h.trans rfl
  started _ _ h _ _ _ := h.trans rfl
  startedOnly _ _ h _ _ := h.trans rfl
  consumed _ _ h := h.trans rfl
  closeBlock _ _ h := h.trans (by unfold closeBlock; split <;> rfl)
  publish _ _ _ _ h _ := h.trans rfl
  prepReturn _ _ h := h.trans rfl
  fault _ _ h := h.trans rfl

theorem prepFrame_of_exec {i : Instr} {s t : State} (hi : i = .prepStep ∨ i = .prepareSegments)
    (h : exec i s = .next t) : PrepFrame s t :=
  holds_of_exec_prep hi h rfl (ends_mono ((prepFrame_kept s).prepStep rfl) (fun _ hu _ => hu.trans rfl) fun _ hu => hu)

/-! ## The device events and the segments -/

theorem tickBegin_frame {s t : State} (h : exec .tickBegin s = .next t) : t = { s with
    overrunCount := t.overrunCount, fault := t.fault, pins := t.pins, pulseArmed := t.pulseArmed, staged := t.staged
    busy := t.busy } := by
  simp only [exec, execTickBegin, emitStaged] at h
  split_ifs at h <;> cases h <;> rfl

theorem pulseReset_frame {s t : State} (h : exec .pulseReset s = .next t) :
    t = { s with pins := t.pins, pulseArmed := t.pulseArmed } := by
  obtain rfl | rfl := next_of_ite h <;> rfl

theorem bodyFrame_of_exec_instr {x : Descriptor} {s t : State} (h : exec x.instr s = .next t) : BodyFrame s t := by
  rw [exec_instr, runSegment] at h
  split at h
  · exact ends_of_finish h (bodyFrame_segmentBody x s)
  · cases h; exact .refl s

/-- The tick source and `cycle_stop` are as in `s`. -/
abbrev TickAndStopKept (s t : State) : Prop := t.tickEnabled = s.tickEnabled ∧ t.cycleStop = s.cycleStop

/-- The tick source is not started and `cycle_stop` not cleared. -/
abbrev TickAndStopMonotone (s t : State) : Prop :=
  (t.tickEnabled = true → s.tickEnabled = true) ∧ (s.cycleStop = true → t.cycleStop = true)

theorem TickAndStopKept.monotone {s t : State} (h : TickAndStopKept s t) : TickAndStopMonotone s t :=
  ⟨fun ht => h.1 ▸ ht, fun hc => h.2 ▸ hc⟩

theorem tickAndStop_load (s : State) : KeptByLoad (TickAndStopKept s) (TickAndStopKept s) :=
  ⟨⟨fun _ _ h _ => h, fun _ _ h _ => h, fun _ _ h => h, fun _ _ h => h⟩, fun _ _ h _ => h, fun _ _ h _ _ => h,
    fun _ _ h _ _ => h, fun _ h => h⟩

theorem tickAndStop_event (s : State) : KeptByEvent (TickAndStopKept s) (TickAndStopKept s) :=
  ⟨fun _ _ _ h _ => h, fun _ _ _ h _ => h, fun _ _ h _ => h, fun _ _ h _ => h,
    fun _ h => by simpa [TickAndStopKept] using h, fun _ _ h => h, fun _ h => h, fun _ _ h => h⟩

theorem ends_segmentBody_tickAndStop (x : Descriptor) (s : State) :
    Ends (TickAndStopKept s) (TickAndStopKept s) (segmentBody x s) :=
  ends_segmentBody (tickAndStop_load s) (tickAndStop_event s) (fun _ h => h) ⟨rfl, rfl⟩ x

theorem tickAndStop_of_exec_instr {x : Descriptor} {s t : State} (h : exec x.instr s = .next t) :
    TickAndStopKept s t := by
  rw [exec_instr, runSegment] at h
  split at h
  · exact ends_of_finish h (ends_segmentBody_tickAndStop x s)
  · cases h; exact ⟨rfl, rfl⟩

theorem tickAndStop_of_exec_tickBody {s t : State} (h : exec .tickBody s = .next t) : TickAndStopMonotone s t := by
  by_cases he : tickBodyEnabled s = true
  · rw [exec_tickBody_of_enabled he] at h
    have hkept : ∀ {f}, Ends (TickAndStopKept s) (TickAndStopKept s) f →
        Ends (TickAndStopMonotone s) (TickAndStopMonotone s) f := fun hf =>
      ends_mono hf (fun _ hu => hu.monotone) fun _ hu => hu.monotone
    refine ends_of_finish h (ends_tickBody_of (fun _ => hkept ?_) ?_ ?_ (fun _ => ⟨id, id⟩)
      fun _ x => hkept (ends_segmentBody_tickAndStop x s))
    · exact ends_engineTick (tickAndStop_load s).toKeptByRamp (tickAndStop_event s) (fun _ h => h) ⟨rfl, rfl⟩
    · exact ⟨fun ht => absurd ht (by simp [idled]), id⟩
    · exact ⟨fun ht => absurd ht (by simp [idled]), fun _ => rfl⟩
  · rw [exec_tickBody_of_not_enabled (eq_false_of_ne_true he)] at h
    cases h
    exact ⟨id, id⟩

/-! ## The obligations -/

/-- Settles O50: the other instructions' next states have the position of the state before. -/
theorem positionMovesOnlyInTicks : Obligations.PositionMovesOnlyInTicks := by
  intro i s t h hmoved
  rcases instr_cases i with ⟨x, rfl⟩ | he | hb
  · exact .inr (.inr ⟨x, rfl⟩)
  · simp only [List.mem_cons, List.not_mem_nil, or_false] at he
    rcases he with rfl | rfl | rfl
    · exact absurd (by rw [tickBegin_frame h]) hmoved
    · exact .inl rfl
    · exact absurd (by rw [pulseReset_frame h]) hmoved
  · rcases background_cases hb with rfl | hp | hc
    · exact .inr (.inl rfl)
    · exact absurd (by rw [show t = withPrepOf s t from prepFrame_of_exec hp h]) hmoved
    · refine absurd ?_ hmoved
      cases commanded_of_exec hc h <;> simp

/-- What O52 says of the engine's agents, as fields of `BodyFrame`. -/
theorem BodyFrame.leavesProducer {s t : State} (h : BodyFrame s t) :
    t.mem = s.mem ∧ t.head = s.head ∧ t.nextHead = s.nextHead ∧ t.prepBlock = s.prepBlock ∧ t.prepIndex = s.prepIndex ∧
    t.dataPrepIndex = s.dataPrepIndex ∧ t.runState = s.runState ∧ t.cfg = s.cfg ∧ t.accelPeriod = s.accelPeriod ∧
    t.deltaD = s.deltaD ∧ t.preparing = s.preparing ∧ t.prepReturn = s.prepReturn ∧ t.supplied = s.supplied ∧
    t.inputs = s.inputs :=
  ⟨h.mem, h.head, h.nextHead, h.prepBlock, h.prepIndex, h.dataPrepIndex, h.runState, h.cfg, h.accelPeriod, h.deltaD,
    h.preparing, h.prepReturn, h.supplied, h.inputs⟩

/-- Settles O52: the engine's agents by their frames, the preparer by `PrepFrame`. -/
theorem agentsWriteOnlyTheirOwn : Obligations.AgentsWriteOnlyTheirOwn := by
  refine ⟨fun i s t hi h => ?_, fun i s t hi h => prepFrame_of_exec hi h⟩
  rcases hi with rfl | rfl | rfl | ⟨x, rfl⟩
  · rw [tickBegin_frame h]
    exact ⟨rfl, rfl, rfl, rfl, rfl, rfl, rfl, rfl, rfl, rfl, rfl, rfl, rfl, rfl⟩
  · exact (bodyFrame_of_exec_tickBody h).leavesProducer
  · rw [pulseReset_frame h]
    exact ⟨rfl, rfl, rfl, rfl, rfl, rfl, rfl, rfl, rfl, rfl, rfl, rfl, rfl, rfl⟩
  · exact (bodyFrame_of_exec_instr h).leavesProducer

/-- The tick source, the configuration and `cycle_stop` are as in `s`. -/
structure DeviceKept (s t : State) : Prop where
  lines : TickAndStopKept s t
  cfg : t.cfg = s.cfg
  accelPeriod : t.accelPeriod = s.accelPeriod

/-- INIT stops the tick source and clears `cycle_stop`, or only records a fault. -/
theorem tickAndStop_of_exec_init {s t : State} (h : exec .init s = .next t) :
    (t.tickEnabled = true → s.tickEnabled = true) ∧ (t.cycleStop = true → s.cycleStop = true) := by
  simp only [exec, execInit] at h
  split at h
  · split at h <;> cases h <;> simp
  · cases h; exact ⟨id, id⟩

/-- WAKE_UP starts the tick source in RUNNING only. -/
theorem runState_of_woken_tick {s : State} (h0 : s.tickEnabled = false) (h : (woken s).tickEnabled = true) :
    (woken s).runState = .running := by
  by_cases hr : s.runState = .running
  · rw [woken_runState, hr]
  · rw [woken_of_not_startDue (by simp [hr])] at h
    exact absurd h (by simp [h0])

/-- What O51 says of one instruction and its next state. -/
abbrev SingleWriters (i : Instr) (s t : State) : Prop :=
  (s.tickEnabled = false → t.tickEnabled = true → (i = .wakeUp ∨ i = .cycleStart) ∧ t.runState = .running) ∧
  ((t.cfg ≠ s.cfg ∨ t.accelPeriod ≠ s.accelPeriod) → i = .init) ∧
  (s.cycleStop = false → t.cycleStop = true → i = .tickBody) ∧
  (s.cycleStop = true → t.cycleStop = false → i = .clearCycleStop ∨ i = .init)

/-- An instruction that keeps the device state writes none of it, whichever it is. -/
theorem DeviceKept.singleWriters {i : Instr} {s t : State} (h : DeviceKept s t) : SingleWriters i s t := by
  obtain ⟨⟨ht, hc⟩, hcfg, hp⟩ := h
  exact ⟨fun h0 h1 => by simp [ht, h0] at h1, fun hne => by simp [hcfg, hp] at hne,
    fun h0 h1 => by simp [hc, h0] at h1, fun h1 h0 => by simp [hc, h1] at h0⟩

/-- A command that wakes: it may start the tick source, and writes nothing else of the device state. -/
theorem singleWriters_of_woken {i : Instr} {s u : State} (hi : i = .wakeUp ∨ i = .cycleStart) (hu : DeviceKept s u) :
    SingleWriters i s (woken u) := by
  obtain ⟨⟨ht, hc⟩, hcfg, hp⟩ := hu
  exact ⟨fun h0 h1 => ⟨hi, runState_of_woken_tick (ht.trans h0) h1⟩, fun hne => by simp [hcfg, hp] at hne,
    fun h0 h1 => by simp [hc, h0] at h1, fun h1 h0 => by simp [hc, h1] at h0⟩

theorem singleWriters_of_commanded {i : Instr} {s t : State} (h : Commanded s i t) : SingleWriters i s t := by
  cases h with
  | stay | resetFault | reset | runState => exact DeviceKept.singleWriters ⟨⟨rfl, rfl⟩, rfl, rfl⟩
  | wakeUp => exact singleWriters_of_woken (.inl rfl) ⟨⟨rfl, rfl⟩, rfl, rfl⟩
  | cycleStart => exact singleWriters_of_woken (.inr rfl) ⟨⟨rfl, rfl⟩, rfl, rfl⟩
  | goIdle =>
    exact ⟨fun _ h1 => absurd h1 (by simp), fun hne => by simp at hne, fun h0 h1 => by simp [h0] at h1,
      fun h1 h0 => by simp [h1] at h0⟩
  | clearCycleStop =>
    exact ⟨fun h0 h1 => by simp [h0] at h1, fun hne => by simp at hne, fun _ h1 => absurd h1 (by simp),
      fun _ _ => .inl rfl⟩

/-- Settles O51: the agents but TICK_BODY and the preparer keep the device state; TICK_BODY, INIT and the host's commands
each have a lemma of what they may write of it. -/
theorem singleWritersOfTheDeviceState : Obligations.SingleWritersOfTheDeviceState := by
  intro i s t h
  rcases instr_cases i with ⟨x, rfl⟩ | he | hb
  · have hf := bodyFrame_of_exec_instr h
    exact DeviceKept.singleWriters ⟨tickAndStop_of_exec_instr h, hf.cfg, hf.accelPeriod⟩
  · simp only [List.mem_cons, List.not_mem_nil, or_false] at he
    rcases he with rfl | rfl | rfl
    · rw [tickBegin_frame h]
      exact DeviceKept.singleWriters ⟨⟨rfl, rfl⟩, rfl, rfl⟩
    · obtain ⟨htick, hstop⟩ := tickAndStop_of_exec_tickBody h
      have hf := bodyFrame_of_exec_tickBody h
      exact ⟨fun h0 h1 => by simp [htick h1] at h0, fun hne => by simp [hf.cfg, hf.accelPeriod] at hne, fun _ _ => rfl,
        fun h1 h0 => by simp [hstop h1] at h0⟩
    · rw [pulseReset_frame h]
      exact DeviceKept.singleWriters ⟨⟨rfl, rfl⟩, rfl, rfl⟩
  · rcases background_cases hb with rfl | hp | hc
    · obtain ⟨htick, hstop⟩ := tickAndStop_of_exec_init h
      exact ⟨fun h0 h1 => by simp [htick h1] at h0, fun _ => rfl, fun h0 h1 => by simp [hstop h1] at h0,
        fun _ _ => .inr rfl⟩
    · rw [show t = withPrepOf s t from prepFrame_of_exec hp h]
      exact DeviceKept.singleWriters ⟨⟨rfl, rfl⟩, rfl, rfl⟩
    · exact singleWriters_of_commanded (commanded_of_exec hc h)

end Sys2Proof.Machine
end
